-- ==== Sys2Proof/Word.lean ====
section
/-! DEFINITION. The words and the plain data of the decoder core: bytes, byte spaces, arena nodes, trees, the
BitReader's registers and the names of the fault causes. -/

namespace Sys2Proof

/-- A byte, bit 0 its least significant bit (R11). -/
abbrev Byte := BitVec 8

/-- A 16-bit word: a node's symbol (R37), a stored block's LEN and NLEN (R79). -/
abbrev Half := BitVec 16

/-- A 32-bit word: the IHDR sizes, a chunk's length and type, the 32-bit interface registers (R21, R73, R74). -/
abbrev Word := BitVec 32

/-- One byte space (R50): the bytes it holds, as address and byte pairs with strictly rising addresses. An address that
is not listed holds no byte. -/
abbrev Memory := List Host.Cell

/-- One arena node (R37). A child index of 0 means "no child". -/
structure Node where
  symbol : Half
  left   : Nat
  right  : Nat
  deriving DecidableEq, Repr

/-- A Huffman tree register (R37): the arena, its root at index 0, and the number of codes inserted. -/
structure Tree where
  nodes  : List Node
  ncodes : Nat
  deriving DecidableEq, Repr

/-- The BitReader's registers `BR_POS`, `BR_ACC` and `BR_CNT` (R33). -/
structure BitReader where
  pos : Nat
  acc : Byte
  cnt : Nat
  deriving DecidableEq, Repr

/-- The fault causes of R311, one name each. `ioSource` is the host's own and is never raised by the engine (R326). -/
inductive Cause where
  | pngSignature | firstNotIhdr | ihdrLength | zeroDimension | zlibFcheck | zlibCinfo
  | bitDepth | colorType | pngCompression | pngFilterMethod | pngInterlace | zlibCm | zlibFdict
  | outOfData | btypeReserved | filterType | distanceTooFar | emptyTree | missingBranch
  | repeatNoPrevious | repeatOverrun | lengthSymbol | distanceSymbol | shortImageData
  | ioSource
  | outputCapacity | sizeOverflow
  deriving DecidableEq, Repr

end Sys2Proof
end

