-- ==== Sys2Proof/Config.lean ====
section
/-! DEFINITION. The parameters the spec leaves OPEN (R9), the one free value, and the sizes the spec fixes. The parameters are plain data that a
State carries and no step changes, so a statement about every state is a statement about every choice of them. -/

namespace Sys2Proof

/-- `P_MISSING_BRANCH` (R9, R129): what a Huffman decode does when the bit read selects an absent child. -/
inductive MissingBranch where
  | fault
  | restartRoot
  deriving DecidableEq, Repr

/-- The parameters of R9. `outCap = none` is the unbounded `P_OUT_CAP`. -/
structure Params where
  addrBits      : Nat
  outCap        : Option Nat
  missingBranch : MissingBranch
  deriving DecidableEq, Repr

/-- The defaults of R9: 64 address bits, an unbounded output buffer, a fault on an absent branch. -/
def Params.defaults : Params := { addrBits := 64, outCap := none, missingBranch := .fault }

/-- The free value of the byte of `IN` at an offset that nothing has written since the power-on reset of that number: any
value (R340). Nothing constrains it (assumption 5). -/
opaque unwrittenByte : Nat → Nat → Byte

/-- `MAXBITS` (R9): the longest literal/length or distance code length. -/
def maxBits : Nat := 15

/-- `CL_MAXBITS` (R9): the longest code length of the code-length alphabet. -/
def clMaxBits : Nat := 7

/-- `NSYM_CL` (R9): the number of code-length symbols. -/
def nsymCl : Nat := 19

/-- `NSYM_FIXED_LIT` (R9): the number of literal/length symbols of the fixed tree. -/
def nsymFixedLit : Nat := 288

/-- `NSYM_FIXED_DIST` (R9): the number of distance symbols of the fixed tree. -/
def nsymFixedDist : Nat := 30

end Sys2Proof
end

