-- ==== Sys2Proof/Machine/Huffman.lean ====
section
/-! DEFINITION. The canonical Huffman tree: building the arena from a list of code lengths (R120 to R126), walking it over
the stream's bits (R127 to R130), and the two fixed trees (R131, R132). -/

namespace Sys2Proof.Machine

/-- A new node (R37, R124): symbol 0 and no children. -/
def emptyNode : Node := { symbol := 0, left := 0, right := 0 }

/-- A tree register with no arena (R45). -/
def noTree : Tree := { nodes := [], ncodes := 0 }

/-- A node is a leaf exactly when both child fields are 0 (R37, R125). -/
def isLeaf (n : Node) : Bool := n.left == 0 && n.right == 0

/-- The child a bit selects: left for 0, right for 1 (R128). -/
def childOf (n : Node) (b : Bool) : Nat := if b then n.right else n.left

/-- Stores a child index in the field a bit selects (R124). -/
def linkChild (n : Node) (b : Bool) (k : Nat) : Node :=
  if b then { n with right := k } else { n with left := k }

/-- `count[L]` (R121): how many symbols have length `L`; symbols of length 0 are not counted. -/
def lengthCount (lens : List Nat) (L : Nat) : Nat := if L = 0 then 0 else lens.count L

/-- `next_code[L]` before any assignment (R122). -/
def firstCode (lens : List Nat) : Nat → Nat
  | 0 => 0
  | 1 => 0
  | L + 2 => (firstCode lens (L + 1) + lengthCount lens (L + 1)) <<< 1

/-- The counters `next_code[0 .. 15]` before any assignment (R122). -/
def nextCodes (lens : List Nat) : List Nat := (List.range (maxBits + 1)).map (firstCode lens)

/-- The codes in increasing symbol order (R123): a symbol of nonzero length takes its length's counter, which is then
incremented; a symbol of length 0 has no code. -/
def assignCodes (next : List Nat) : List Nat → List (Option Nat)
  | [] => []
  | L :: ls =>
      if L = 0 then none :: assignCodes next ls
      else some (next.getD L 0) :: assignCodes (next.set L (next.getD L 0 + 1)) ls

/-- The low `L` bits of a code, most significant first (R124, R126 (a)). -/
def codeBits (L c : Nat) : List Bool := (List.range L).map (fun j => c.testBit (L - 1 - j))

/-- The walk of R124 from node `k`: creates children on demand and gives the terminal node and the arena. -/
def insertPath : List Bool → Nat → List Node → Nat × List Node
  | [], k, nodes => (k, nodes)
  | b :: bs, k, nodes =>
      let n := nodes.getD k emptyNode
      if childOf n b = 0 then
        insertPath bs nodes.length ((nodes ++ [emptyNode]).set k (linkChild n b nodes.length))
      else
        insertPath bs (childOf n b) nodes

/-- Inserts one code and stores its symbol at the terminal node (R124). -/
def insertCode (t : Tree) (sym L c : Nat) : Tree :=
  let r := insertPath (codeBits L c) 0 t.nodes
  { nodes := r.2.set r.1 { r.2.getD r.1 emptyNode with symbol := BitVec.ofNat 16 sym },
    ncodes := t.ncodes + 1 }

/-- The insertions of R124, in increasing symbol order from symbol `sym` on. -/
def insertAll (t : Tree) (sym : Nat) : List Nat → List (Option Nat) → Tree
  | L :: ls, some c :: cs => insertAll (insertCode t sym L c) (sym + 1) ls cs
  | _ :: ls, none :: cs => insertAll t (sym + 1) ls cs
  | _, _ => t

/-- The root alone (R124, R127). -/
def rootTree : Tree := { nodes := [emptyNode], ncodes := 0 }

/-- `build(lens)` (R120 to R124). It validates nothing and cannot fault (R126). -/
def build (lens : List Nat) : Tree := insertAll rootTree 0 lens (assignCodes (nextCodes lens) lens)

/-- What a walk of the tree finds in the bits ahead. -/
inductive Walk where
  /-- A leaf: its symbol and how many bits were read (R128). -/
  | found (sym used : Nat)
  /-- A fault after reading `used` bits (R129, R130). -/
  | bad (c : Cause) (used : Nat)
  /-- The bits end: one more than `used` is needed. -/
  | short (used : Nat)
  /-- An index with no node, which no tree of `build` holds. -/
  | noNode
  deriving DecidableEq, Repr

/-- The loop of R128 from node `k` after `used` bits, over the bits ahead in read order. -/
def walkFrom (t : Tree) (mb : MissingBranch) (k used : Nat) : List Bool → Walk
  | [] =>
      match t.nodes[k]? with
      | none => .noNode
      | some n => if isLeaf n then .found n.symbol.toNat used else .short used
  | b :: bs =>
      match t.nodes[k]? with
      | none => .noNode
      | some n =>
          if isLeaf n then .found n.symbol.toNat used
          else if childOf n b = 0 then
            match mb with
            | .fault => .bad .missingBranch (used + 1)
            | .restartRoot => walkFrom t mb 0 (used + 1) bs
          else walkFrom t mb (childOf n b) (used + 1) bs

/-- `decode(T)` over the bits ahead (R128): a tree with no codes faults before any bit is read (R130). -/
def walk (t : Tree) (mb : MissingBranch) (bits : List Bool) : Walk :=
  if t.ncodes = 0 then .bad .emptyTree 0 else walkFrom t mb 0 0 bits

/-- `FIXED_LIT` (R131). -/
def fixedLit : Tree := build fixedLitLens

/-- `FIXED_DIST` (R132). -/
def fixedDist : Tree := build fixedDistLens

/-- The path from node `k` to a leaf that holds `sym`, as bits in read order. -/
def findPath (t : Tree) (sym : Nat) : Nat → Nat → Option (List Bool)
  | 0, _ => none
  | fuel + 1, k =>
      match t.nodes[k]? with
      | none => none
      | some n =>
          if isLeaf n then (if n.symbol.toNat = sym then some [] else none)
          else
            match (if n.left = 0 then none else findPath t sym fuel n.left) with
            | some p => some (false :: p)
            | none =>
                match (if n.right = 0 then none else findPath t sym fuel n.right) with
                | some p => some (true :: p)
                | none => none

/-- The code of `sym` in the tree in force (R81, R90): the bits that lead from the root to its leaf. -/
def codeOf (t : Tree) (sym : Nat) : Option (List Bool) :=
  if t.ncodes = 0 then none else findPath t sym t.nodes.length 0

end Sys2Proof.Machine
end

