-- ==== Sys2Proof/Machine/Memory.lean ====
section
/-! DEFINITION. The named operations over one byte space (R12, R50): reading and writing one byte, appending, the length,
and the canonical form. There is no multi-byte primitive (R12). -/

namespace Sys2Proof.Machine

/-- `MemRead(S, a, 1)` (R12); none where the space holds no byte at `a`. -/
def Memory.read : Memory → Nat → Option Byte
  | [], _ => none
  | (k, v) :: rest, a => if k = a then some v else Memory.read rest a

/-- `len(S)`: one past the last offset that holds a byte (R12, R50). -/
def Memory.len : Memory → Nat
  | [] => 0
  | [(k, _)] => k + 1
  | _ :: c :: rest => Memory.len (c :: rest)

/-- `Append(S, v)`: writes `v` at offset `len(S)` (R12). -/
def Memory.append (m : Memory) (v : Byte) : Memory := m ++ [(Memory.len m, v)]

/-- Appends a list of bytes in order. -/
def Memory.appendAll (m : Memory) : List Byte → Memory
  | [] => m
  | v :: vs => Memory.appendAll (Memory.append m v) vs

/-- `MemWrite(S, a, 1, v)` (R12), keeping the addresses strictly rising. -/
def Memory.write : Memory → Nat → Byte → Memory
  | [], a, v => [(a, v)]
  | (k, w) :: rest, a, v =>
      if a < k then (a, v) :: (k, w) :: rest
      else if a = k then (a, v) :: rest
      else (k, w) :: Memory.write rest a v

/-- Writes a list of bytes at `a`, `a + 1`, … in order. -/
def Memory.writeAll (m : Memory) (a : Nat) : List Byte → Memory
  | [] => m
  | v :: vs => Memory.writeAll (Memory.write m a v) (a + 1) vs

/-- The bytes held at `a`, `a + 1`, … up to the first offset that holds none. -/
def Memory.bytesFrom (a : Nat) : Memory → List Byte
  | [] => []
  | (k, v) :: rest =>
      if k < a then Memory.bytesFrom a rest
      else if k = a then v :: Memory.bytesFrom (a + 1) rest
      else []

/-- The canonical form: strictly rising addresses. (An unlisted address holds no byte, so no entry can equal what one
reads as.) -/
def Memory.wf : Memory → Bool
  | [] => true
  | [_] => true
  | (a, _) :: (b, w) :: rest => a < b && Memory.wf ((b, w) :: rest)

/-- The space holds a byte at every offset below its length (R52, R53): its addresses are 0, 1, 2, …. -/
def Memory.dense (m : Memory) : Bool := m.map Prod.fst == List.range m.length

end Sys2Proof.Machine
end

