-- ==== Sys2Proof/Syntax.lean ====
section
/-! DEFINITION. The instruction set: one constructor per row of the opcode table, in the table's order. An element's
operands are the fields its format gives it (R70 to R90), under the names of the listing syntax (R90). -/

namespace Sys2Proof

/-- The stream elements (R3), one constructor per row of the opcode table. -/
inductive Instr where
  /-- `SIG`: the 8 signature bytes (R72, R231). -/
  | sig
  /-- `CHUNK IHDR`: the first chunk, length 13 (R73, R74, R233). -/
  | chunkIhdr (width height : Word) (depth ctype cmeth fmeth imeth : Byte) (crc : Word)
  /-- `CHUNK IDAT` (R73, R244). -/
  | chunkIdat (len : Word) (payload : List Byte) (crc : Word)
  /-- `CHUNK IEND` (R73, R245). -/
  | chunkIend (len : Word) (payload : List Byte) (crc : Word)
  /-- `CHUNK <other>`: every other chunk type, a second IHDR included (R73, R246). -/
  | chunkOther (type len : Word) (payload : List Byte) (crc : Word)
  /-- `ZHDR`: the two zlib header bytes (R76, R211). -/
  | zhdr (cmf flg : Byte)
  /-- `ZTRL`: the four trailer bytes (R77, R217). -/
  | ztrl (adler : Word)
  /-- `BLK type=STORED` (R78, R152). -/
  | blkStored (final : Bool)
  /-- `BLK type=FIXED` (R78, R153). -/
  | blkFixed (final : Bool)
  /-- `BLK type=DYNAMIC` (R78, R154). -/
  | blkDynamic (final : Bool)
  /-- `BLK type=RESERVED` (R78, R155). -/
  | blkReserved (final : Bool)
  /-- `STORED`: the stored-block header and payload (R79, R152). -/
  | stored (len nlen : Half) (payload : List Byte)
  /-- `DYN`: the dynamic header's counts and code-length code lengths, the latter in `CL_ORDER` (R80, R156, R157). -/
  | dyn (hlit hdist hclen : Nat) (cl : List Nat)
  /-- `CL 0` (R83, R160). -/
  | cl0
  /-- `CL 1` (R83, R160). -/
  | cl1
  /-- `CL 2` (R83, R160). -/
  | cl2
  /-- `CL 3` (R83, R160). -/
  | cl3
  /-- `CL 4` (R83, R160). -/
  | cl4
  /-- `CL 5` (R83, R160). -/
  | cl5
  /-- `CL 6` (R83, R160). -/
  | cl6
  /-- `CL 7` (R83, R160). -/
  | cl7
  /-- `CL 8` (R83, R160). -/
  | cl8
  /-- `CL 9` (R83, R160). -/
  | cl9
  /-- `CL 10` (R83, R160). -/
  | cl10
  /-- `CL 11` (R83, R160). -/
  | cl11
  /-- `CL 12` (R83, R160). -/
  | cl12
  /-- `CL 13` (R83, R160). -/
  | cl13
  /-- `CL 14` (R83, R160). -/
  | cl14
  /-- `CL 15` (R83, R160). -/
  | cl15
  /-- `CL16 rep=<3..6>` (R83, R161). -/
  | cl16 (rep : Nat)
  /-- `CL17 rep=<3..10>` (R83, R162). -/
  | cl17 (rep : Nat)
  /-- `CL18 rep=<11..138>` (R83, R163). -/
  | cl18 (rep : Nat)
  /-- `LIT <b>` (R84, R181). -/
  | lit (b : Byte)
  /-- `EOB` (R84, R182). -/
  | eob
  /-- `LEN 257` with 0 extra bits (R84, R183). -/
  | len257
  /-- `LEN 258` with 0 extra bits (R84, R183). -/
  | len258
  /-- `LEN 259` with 0 extra bits (R84, R183). -/
  | len259
  /-- `LEN 260` with 0 extra bits (R84, R183). -/
  | len260
  /-- `LEN 261` with 0 extra bits (R84, R183). -/
  | len261
  /-- `LEN 262` with 0 extra bits (R84, R183). -/
  | len262
  /-- `LEN 263` with 0 extra bits (R84, R183). -/
  | len263
  /-- `LEN 264` with 0 extra bits (R84, R183). -/
  | len264
  /-- `LEN 265` with 1 extra bits (R84, R183). -/
  | len265 (extra : BitVec 1)
  /-- `LEN 266` with 1 extra bits (R84, R183). -/
  | len266 (extra : BitVec 1)
  /-- `LEN 267` with 1 extra bits (R84, R183). -/
  | len267 (extra : BitVec 1)
  /-- `LEN 268` with 1 extra bits (R84, R183). -/
  | len268 (extra : BitVec 1)
  /-- `LEN 269` with 2 extra bits (R84, R183). -/
  | len269 (extra : BitVec 2)
  /-- `LEN 270` with 2 extra bits (R84, R183). -/
  | len270 (extra : BitVec 2)
  /-- `LEN 271` with 2 extra bits (R84, R183). -/
  | len271 (extra : BitVec 2)
  /-- `LEN 272` with 2 extra bits (R84, R183). -/
  | len272 (extra : BitVec 2)
  /-- `LEN 273` with 3 extra bits (R84, R183). -/
  | len273 (extra : BitVec 3)
  /-- `LEN 274` with 3 extra bits (R84, R183). -/
  | len274 (extra : BitVec 3)
  /-- `LEN 275` with 3 extra bits (R84, R183). -/
  | len275 (extra : BitVec 3)
  /-- `LEN 276` with 3 extra bits (R84, R183). -/
  | len276 (extra : BitVec 3)
  /-- `LEN 277` with 4 extra bits (R84, R183). -/
  | len277 (extra : BitVec 4)
  /-- `LEN 278` with 4 extra bits (R84, R183). -/
  | len278 (extra : BitVec 4)
  /-- `LEN 279` with 4 extra bits (R84, R183). -/
  | len279 (extra : BitVec 4)
  /-- `LEN 280` with 4 extra bits (R84, R183). -/
  | len280 (extra : BitVec 4)
  /-- `LEN 281` with 5 extra bits (R84, R183). -/
  | len281 (extra : BitVec 5)
  /-- `LEN 282` with 5 extra bits (R84, R183). -/
  | len282 (extra : BitVec 5)
  /-- `LEN 283` with 5 extra bits (R84, R183). -/
  | len283 (extra : BitVec 5)
  /-- `LEN 284` with 5 extra bits (R84, R183). -/
  | len284 (extra : BitVec 5)
  /-- `LEN 285` with 0 extra bits (R84, R183). -/
  | len285
  /-- `LEN 286`, invalid (R184). -/
  | len286Invalid
  /-- `LEN 287`, invalid (R184). -/
  | len287Invalid
  /-- `DIST 0` with 0 extra bits (R85, R185). -/
  | dist0
  /-- `DIST 1` with 0 extra bits (R85, R185). -/
  | dist1
  /-- `DIST 2` with 0 extra bits (R85, R185). -/
  | dist2
  /-- `DIST 3` with 0 extra bits (R85, R185). -/
  | dist3
  /-- `DIST 4` with 1 extra bits (R85, R185). -/
  | dist4 (extra : BitVec 1)
  /-- `DIST 5` with 1 extra bits (R85, R185). -/
  | dist5 (extra : BitVec 1)
  /-- `DIST 6` with 2 extra bits (R85, R185). -/
  | dist6 (extra : BitVec 2)
  /-- `DIST 7` with 2 extra bits (R85, R185). -/
  | dist7 (extra : BitVec 2)
  /-- `DIST 8` with 3 extra bits (R85, R185). -/
  | dist8 (extra : BitVec 3)
  /-- `DIST 9` with 3 extra bits (R85, R185). -/
  | dist9 (extra : BitVec 3)
  /-- `DIST 10` with 4 extra bits (R85, R185). -/
  | dist10 (extra : BitVec 4)
  /-- `DIST 11` with 4 extra bits (R85, R185). -/
  | dist11 (extra : BitVec 4)
  /-- `DIST 12` with 5 extra bits (R85, R185). -/
  | dist12 (extra : BitVec 5)
  /-- `DIST 13` with 5 extra bits (R85, R185). -/
  | dist13 (extra : BitVec 5)
  /-- `DIST 14` with 6 extra bits (R85, R185). -/
  | dist14 (extra : BitVec 6)
  /-- `DIST 15` with 6 extra bits (R85, R185). -/
  | dist15 (extra : BitVec 6)
  /-- `DIST 16` with 7 extra bits (R85, R185). -/
  | dist16 (extra : BitVec 7)
  /-- `DIST 17` with 7 extra bits (R85, R185). -/
  | dist17 (extra : BitVec 7)
  /-- `DIST 18` with 8 extra bits (R85, R185). -/
  | dist18 (extra : BitVec 8)
  /-- `DIST 19` with 8 extra bits (R85, R185). -/
  | dist19 (extra : BitVec 8)
  /-- `DIST 20` with 9 extra bits (R85, R185). -/
  | dist20 (extra : BitVec 9)
  /-- `DIST 21` with 9 extra bits (R85, R185). -/
  | dist21 (extra : BitVec 9)
  /-- `DIST 22` with 10 extra bits (R85, R185). -/
  | dist22 (extra : BitVec 10)
  /-- `DIST 23` with 10 extra bits (R85, R185). -/
  | dist23 (extra : BitVec 10)
  /-- `DIST 24` with 11 extra bits (R85, R185). -/
  | dist24 (extra : BitVec 11)
  /-- `DIST 25` with 11 extra bits (R85, R185). -/
  | dist25 (extra : BitVec 11)
  /-- `DIST 26` with 12 extra bits (R85, R185). -/
  | dist26 (extra : BitVec 12)
  /-- `DIST 27` with 12 extra bits (R85, R185). -/
  | dist27 (extra : BitVec 12)
  /-- `DIST 28` with 13 extra bits (R85, R185). -/
  | dist28 (extra : BitVec 13)
  /-- `DIST 29` with 13 extra bits (R85, R185). -/
  | dist29 (extra : BitVec 13)
  /-- `DIST 30`, invalid (R186). -/
  | dist30Invalid
  /-- `DIST 31`, invalid (R186). -/
  | dist31Invalid
  /-- `ROW 0`, None (R88, R263). -/
  | row0 (x : List Byte)
  /-- `ROW 1`, Sub (R88, R264). -/
  | row1 (x : List Byte)
  /-- `ROW 2`, Up (R88, R265). -/
  | row2 (x : List Byte)
  /-- `ROW 3`, Average (R88, R266). -/
  | row3 (x : List Byte)
  /-- `ROW 4`, Paeth (R88, R268). -/
  | row4 (x : List Byte)
  /-- `ROW <5..255>`, invalid (R88, R269). -/
  | rowInvalid (ft : Byte)
  /-- `MATCH <length>, <distance>`: a LEN and the DIST after it (R91). -/
  | matchPair (length distance : Nat)
  /-- `ZEROS <n>`: a CL17 or a CL18 (R91). -/
  | zeros (n : Nat)
  /-- `REPEAT <n>`: a CL16 (R91). -/
  | repeatPrev (n : Nat)
  /-- `PAD`: the bits a `read_byte` discards (R91, R102). -/
  | pad
  deriving DecidableEq, Repr

end Sys2Proof
end

