-- ==== Sys2Proof/WellFormed.lean ====
section
/-! DEFINITION. Well-formed instructions: the operand ranges the formats admit (R73 to R91). Operands whose type already
holds exactly the field's values (a byte, an extra field as a bit vector) need no check. -/

namespace Sys2Proof

/-- The code-length lengths of a `DYN` line: as many as HCLEN says, each a 3-bit value (R80). -/
def wfClList (hclen : Nat) (cl : List Nat) : Bool := cl.length == hclen && cl.all (· < 8)

/-- A payload is as long as its length field says (R73, R79). -/
def wfPayload (len : Nat) (payload : List Byte) : Bool := payload.length == len

/-- Is the instruction one its format can encode (R73 to R91)? -/
def WellFormed : Instr → Bool
  | .chunkIdat len payload _ => wfPayload len.toNat payload
  | .chunkIend len payload _ => wfPayload len.toNat payload
  | .chunkOther type len payload _ => type != typeIdat && type != typeIend && wfPayload len.toNat payload
  | .stored len _ payload => wfPayload len.toNat payload
  | .dyn hlit hdist hclen cl =>
      (257 ≤ hlit && hlit ≤ 288) && (1 ≤ hdist && hdist ≤ 32) && (4 ≤ hclen && hclen ≤ 19) && wfClList hclen cl
  | .cl16 rep => 3 ≤ rep && rep ≤ 6
  | .cl17 rep => 3 ≤ rep && rep ≤ 10
  | .cl18 rep => 11 ≤ rep && rep ≤ 138
  | .rowInvalid ft => 5 ≤ ft.toNat
  | .matchPair length distance => (3 ≤ length && length ≤ 258) && (1 ≤ distance && distance ≤ 32768)
  | .zeros n => 3 ≤ n && n ≤ 138
  | .repeatPrev n => 3 ≤ n && n ≤ 6
  | _ => true

end Sys2Proof
end

