-- ==== Sys2Proof/Decode.lean ====
section
/-! DEFINITION. The decoder and the encoder. Both work on the stream's bits in read order (R71): a byte is its eight bits,
least significant first, so a byte-granular element is the bits of its bytes. The decoder is total: it gives an element,
or the cause an illegal encoding raises (R89), or says that the bits end inside what selects the element. An operand
field the bits do not fill reads as if the missing bits were 0, and a list of payload bytes ends where the bits end; the
element's own rule then raises C_OUT_OF_DATA when it comes to read there (assumption 9). -/

namespace Sys2Proof

/-- The bits of a byte in read order (R71). -/
def byteBits (b : Byte) : List Bool := (List.range 8).map (fun k => b.getLsbD k)

/-- The bits of a list of bytes in read order (R71). -/
def bytesBits : List Byte → List Bool
  | [] => []
  | b :: bs => byteBits b ++ bytesBits bs

/-- The value of a field whose first bit read is bit 0 (R71, R101). -/
def bitsVal : List Bool → Nat
  | [] => 0
  | b :: bs => b.toNat + 2 * bitsVal bs

/-- The `n` bits of a field, least significant first (R71, R82). -/
def fieldBits (n v : Nat) : List Bool := (List.range n).map (fun k => v.testBit k)

/-- The next `n` bits as a field's value, and the bits after them. -/
def takeField (n : Nat) (bits : List Bool) : Nat × List Bool := (bitsVal (bits.take n), bits.drop n)

/-- The next byte, and the bits after it. -/
def takeByte (bits : List Bool) : Byte × List Bool := (BitVec.ofNat 8 (bitsVal (bits.take 8)), bits.drop 8)

/-- The next `n` whole bytes, as far as there are any, and the bits after them. -/
def takeBytes : Nat → List Bool → List Byte × List Bool
  | n + 1, b0 :: b1 :: b2 :: b3 :: b4 :: b5 :: b6 :: b7 :: bits =>
      let r := takeBytes n bits
      (BitVec.ofNat 8 (bitsVal [b0, b1, b2, b3, b4, b5, b6, b7]) :: r.1, r.2)
  | _, bits => ([], bits)

/-- Four bytes as a big-endian word (R13, R55). -/
def be32 (b0 b1 b2 b3 : Byte) : Word := b0 ++ b1 ++ b2 ++ b3

/-- Two bytes as a little-endian half word (R55, R103). -/
def le16 (b0 b1 : Byte) : Half := b1 ++ b0

/-- Four bytes as a little-endian word (R55, R103). -/
def le32 (b0 b1 b2 b3 : Byte) : Word := b3 ++ b2 ++ b1 ++ b0

/-- The next four bytes as a big-endian word. -/
def takeBe32 (bits : List Bool) : Word × List Bool :=
  let r0 := takeByte bits
  let r1 := takeByte r0.2
  let r2 := takeByte r1.2
  let r3 := takeByte r2.2
  (be32 r0.1 r1.1 r2.1 r3.1, r3.2)

/-- The next four bytes as a little-endian word. -/
def takeLe32 (bits : List Bool) : Word × List Bool :=
  let r0 := takeByte bits
  let r1 := takeByte r0.2
  let r2 := takeByte r1.2
  let r3 := takeByte r2.2
  (le32 r0.1 r1.1 r2.1 r3.1, r3.2)

/-- The next two bytes as a little-endian half word. -/
def takeLe16 (bits : List Bool) : Half × List Bool :=
  let r0 := takeByte bits
  let r1 := takeByte r0.2
  (le16 r0.1 r1.1, r1.2)

/-- What the decoder answers. -/
inductive Decoded where
  /-- The element at the head of the bits. -/
  | element (i : Instr)
  /-- An illegal encoding, which raises this cause (R89). -/
  | illegal (c : Cause)
  /-- The bits end inside what selects the element. -/
  | truncated
  /-- The tree in force leads to an index with no node. -/
  | noNode
  deriving DecidableEq, Repr

/-- What the engine expects next: the format at its stream position (R34), with what the format depends on. -/
inductive Expect where
  | signature
  | firstChunk
  | chunk
  | zlibHeader
  | blockHeader
  | storedBlock
  | dynHeader
  | codeLength (t : Tree)
  | symbol (t : Tree)
  | distance (t : Tree)
  | trailer
  | row (stride : Nat)
  deriving DecidableEq, Repr

/-- `F_SIG` (R72, R231). -/
def decodeSignature (bits : List Bool) : Decoded :=
  let r := takeBytes 8 bits
  if r.1.length < 8 then .truncated
  else if r.1 = signatureBytes then .element .sig
  else .illegal .pngSignature

/-- `F_IHDR`: the 13 payload bytes and the CRC (R74, R234). -/
def decodeIhdr (bits : List Bool) : Instr :=
  let w := takeBe32 bits
  let h := takeBe32 w.2
  let d := takeByte h.2
  let c := takeByte d.2
  let m := takeByte c.2
  let f := takeByte m.2
  let i := takeByte f.2
  let crc := takeBe32 i.2
  .chunkIhdr w.1 h.1 d.1 c.1 m.1 f.1 i.1 crc.1

/-- `F_CHUNK` as the first chunk: the type is checked before the length (R73, R233). -/
def decodeFirstChunk (bits : List Bool) : Decoded :=
  let len := takeBe32 bits
  let type := takeBe32 len.2
  if bits.length < 64 then .truncated
  else if type.1 ≠ typeIhdr then .illegal .firstNotIhdr
  else if len.1 ≠ 13 then .illegal .ihdrLength
  else .element (decodeIhdr type.2)

/-- `F_CHUNK` in the chunk loop: the type selects the element (R73, R75, R243). -/
def decodeChunk (bits : List Bool) : Decoded :=
  let len := takeBe32 bits
  let type := takeBe32 len.2
  let payload := takeBytes len.1.toNat type.2
  let crc := takeBe32 payload.2
  if bits.length < 64 then .truncated
  else if type.1 = typeIdat then .element (.chunkIdat len.1 payload.1 crc.1)
  else if type.1 = typeIend then .element (.chunkIend len.1 payload.1 crc.1)
  else .element (.chunkOther type.1 len.1 payload.1 crc.1)

/-- `F_ZHDR` (R76). -/
def decodeZhdr (bits : List Bool) : Instr :=
  let cmf := takeByte bits
  let flg := takeByte cmf.2
  .zhdr cmf.1 flg.1

/-- `F_BLKHDR`: BFINAL, then BTYPE's bit 0 and bit 1 (R78). -/
def decodeBlk : List Bool → Decoded
  | f :: false :: false :: _ => .element (.blkStored f)
  | f :: true :: false :: _ => .element (.blkFixed f)
  | f :: false :: true :: _ => .element (.blkDynamic f)
  | f :: true :: true :: _ => .element (.blkReserved f)
  | _ => .truncated

/-- `F_STORED` from the byte boundary on (R79). -/
def decodeStored (bits : List Bool) : Instr :=
  let len := takeLe16 bits
  let nlen := takeLe16 len.2
  .stored len.1 nlen.1 (takeBytes len.1.toNat nlen.2).1

/-- The 3-bit code-length lengths of a dynamic header (R80, R157). -/
def takeClList : Nat → List Bool → List Nat
  | 0, _ => []
  | n + 1, bits =>
      let r := takeField 3 bits
      r.1 :: takeClList n r.2

/-- `F_DYNHDR` (R80, R156). -/
def decodeDyn (bits : List Bool) : Instr :=
  let a := takeField 5 bits
  let b := takeField 5 a.2
  let c := takeField 4 b.2
  .dyn (a.1 + 257) (b.1 + 1) (c.1 + 4) (takeClList (c.1 + 4) c.2)

/-- `F_CLSYM`: the element of a code-length symbol, from the bits after its code (R83, R159). -/
def clElement (sym : Nat) (bits : List Bool) : Instr :=
  match sym with
  | 0 => .cl0
  | 1 => .cl1
  | 2 => .cl2
  | 3 => .cl3
  | 4 => .cl4
  | 5 => .cl5
  | 6 => .cl6
  | 7 => .cl7
  | 8 => .cl8
  | 9 => .cl9
  | 10 => .cl10
  | 11 => .cl11
  | 12 => .cl12
  | 13 => .cl13
  | 14 => .cl14
  | 15 => .cl15
  | 16 => .cl16 (3 + (takeField 2 bits).1)
  | 17 => .cl17 (3 + (takeField 3 bits).1)
  | _ => .cl18 (11 + (takeField 7 bits).1)

/-- `F_LLSYM`: the element of a literal/length symbol, from the bits after its code (R84, R180). -/
def llElement (sym : Nat) (bits : List Bool) : Decoded :=
  if sym ≤ 255 then .element (.lit (BitVec.ofNat 8 sym))
  else
    match sym with
    | 256 => .element .eob
    | 257 => .element .len257
    | 258 => .element .len258
    | 259 => .element .len259
    | 260 => .element .len260
    | 261 => .element .len261
    | 262 => .element .len262
    | 263 => .element .len263
    | 264 => .element .len264
    | 265 => .element (.len265 (BitVec.ofNat 1 (takeField 1 bits).1))
    | 266 => .element (.len266 (BitVec.ofNat 1 (takeField 1 bits).1))
    | 267 => .element (.len267 (BitVec.ofNat 1 (takeField 1 bits).1))
    | 268 => .element (.len268 (BitVec.ofNat 1 (takeField 1 bits).1))
    | 269 => .element (.len269 (BitVec.ofNat 2 (takeField 2 bits).1))
    | 270 => .element (.len270 (BitVec.ofNat 2 (takeField 2 bits).1))
    | 271 => .element (.len271 (BitVec.ofNat 2 (takeField 2 bits).1))
    | 272 => .element (.len272 (BitVec.ofNat 2 (takeField 2 bits).1))
    | 273 => .element (.len273 (BitVec.ofNat 3 (takeField 3 bits).1))
    | 274 => .element (.len274 (BitVec.ofNat 3 (takeField 3 bits).1))
    | 275 => .element (.len275 (BitVec.ofNat 3 (takeField 3 bits).1))
    | 276 => .element (.len276 (BitVec.ofNat 3 (takeField 3 bits).1))
    | 277 => .element (.len277 (BitVec.ofNat 4 (takeField 4 bits).1))
    | 278 => .element (.len278 (BitVec.ofNat 4 (takeField 4 bits).1))
    | 279 => .element (.len279 (BitVec.ofNat 4 (takeField 4 bits).1))
    | 280 => .element (.len280 (BitVec.ofNat 4 (takeField 4 bits).1))
    | 281 => .element (.len281 (BitVec.ofNat 5 (takeField 5 bits).1))
    | 282 => .element (.len282 (BitVec.ofNat 5 (takeField 5 bits).1))
    | 283 => .element (.len283 (BitVec.ofNat 5 (takeField 5 bits).1))
    | 284 => .element (.len284 (BitVec.ofNat 5 (takeField 5 bits).1))
    | 285 => .element .len285
    | 286 => .element .len286Invalid
    | 287 => .element .len287Invalid
    | _ => .illegal .lengthSymbol

/-- `F_DSYM`: the element of a distance symbol, from the bits after its code (R85, R183). -/
def distElement (sym : Nat) (bits : List Bool) : Decoded :=
  match sym with
  | 0 => .element .dist0
  | 1 => .element .dist1
  | 2 => .element .dist2
  | 3 => .element .dist3
  | 4 => .element (.dist4 (BitVec.ofNat 1 (takeField 1 bits).1))
  | 5 => .element (.dist5 (BitVec.ofNat 1 (takeField 1 bits).1))
  | 6 => .element (.dist6 (BitVec.ofNat 2 (takeField 2 bits).1))
  | 7 => .element (.dist7 (BitVec.ofNat 2 (takeField 2 bits).1))
  | 8 => .element (.dist8 (BitVec.ofNat 3 (takeField 3 bits).1))
  | 9 => .element (.dist9 (BitVec.ofNat 3 (takeField 3 bits).1))
  | 10 => .element (.dist10 (BitVec.ofNat 4 (takeField 4 bits).1))
  | 11 => .element (.dist11 (BitVec.ofNat 4 (takeField 4 bits).1))
  | 12 => .element (.dist12 (BitVec.ofNat 5 (takeField 5 bits).1))
  | 13 => .element (.dist13 (BitVec.ofNat 5 (takeField 5 bits).1))
  | 14 => .element (.dist14 (BitVec.ofNat 6 (takeField 6 bits).1))
  | 15 => .element (.dist15 (BitVec.ofNat 6 (takeField 6 bits).1))
  | 16 => .element (.dist16 (BitVec.ofNat 7 (takeField 7 bits).1))
  | 17 => .element (.dist17 (BitVec.ofNat 7 (takeField 7 bits).1))
  | 18 => .element (.dist18 (BitVec.ofNat 8 (takeField 8 bits).1))
  | 19 => .element (.dist19 (BitVec.ofNat 8 (takeField 8 bits).1))
  | 20 => .element (.dist20 (BitVec.ofNat 9 (takeField 9 bits).1))
  | 21 => .element (.dist21 (BitVec.ofNat 9 (takeField 9 bits).1))
  | 22 => .element (.dist22 (BitVec.ofNat 10 (takeField 10 bits).1))
  | 23 => .element (.dist23 (BitVec.ofNat 10 (takeField 10 bits).1))
  | 24 => .element (.dist24 (BitVec.ofNat 11 (takeField 11 bits).1))
  | 25 => .element (.dist25 (BitVec.ofNat 11 (takeField 11 bits).1))
  | 26 => .element (.dist26 (BitVec.ofNat 12 (takeField 12 bits).1))
  | 27 => .element (.dist27 (BitVec.ofNat 12 (takeField 12 bits).1))
  | 28 => .element (.dist28 (BitVec.ofNat 13 (takeField 13 bits).1))
  | 29 => .element (.dist29 (BitVec.ofNat 13 (takeField 13 bits).1))
  | 30 => .element .dist30Invalid
  | 31 => .element .dist31Invalid
  | _ => .illegal .distanceSymbol

/-- A Huffman-coded element: the walk gives the symbol, the symbol gives the element (R81, R128). -/
def decodeCoded (mb : MissingBranch) (t : Tree) (of : Nat → List Bool → Decoded) (bits : List Bool) : Decoded :=
  match Machine.walk t mb bits with
  | .found sym used => of sym (bits.drop used)
  | .bad c _ => .illegal c
  | .short _ => .truncated
  | .noNode => .noNode

/-- `F_ROW`: the filter type selects the element (R88, R261). -/
def decodeRow (stride : Nat) (bits : List Bool) : Decoded :=
  let ft := takeByte bits
  let x := (takeBytes stride ft.2).1
  if bits.length < 8 then .truncated
  else if ft.1 = 0 then .element (.row0 x)
  else if ft.1 = 1 then .element (.row1 x)
  else if ft.1 = 2 then .element (.row2 x)
  else if ft.1 = 3 then .element (.row3 x)
  else if ft.1 = 4 then .element (.row4 x)
  else .element (.rowInvalid ft.1)

/-- The decoder: the element the bits hold where the engine expects `e` (R34, R70). -/
def decode (mb : MissingBranch) (e : Expect) (bits : List Bool) : Decoded :=
  match e with
  | .signature => decodeSignature bits
  | .firstChunk => decodeFirstChunk bits
  | .chunk => decodeChunk bits
  | .zlibHeader => .element (decodeZhdr bits)
  | .blockHeader => decodeBlk bits
  | .storedBlock => .element (decodeStored bits)
  | .dynHeader => .element (decodeDyn bits)
  | .codeLength t => decodeCoded mb t (fun sym rest => .element (clElement sym rest)) bits
  | .symbol t => decodeCoded mb t llElement bits
  | .distance t => decodeCoded mb t distElement bits
  | .trailer => .element (.ztrl (takeLe32 bits).1)
  | .row stride => decodeRow stride bits

/-- The expectation under which a word of the opcode table is read, by the number of bits the table gives the row, and the
element's bits in read order (assumption 11). A row's filter-type byte (8 bits) stands before three filtered bytes of 0;
the zlib header (16 bits) is its two bytes; a chunk type (32 bits) stands in a chunk of length 0, an IHDR in one of length
13, with payload and CRC of zeros; the signature (64 bits) is written with its first byte most significant, as the table
writes it. -/
def tableStream (nbits w : Nat) : Expect × List Byte :=
  let byteAt (k : Nat) : Byte := BitVec.ofNat 8 (w >>> (8 * k))
  let type : List Byte := [byteAt 3, byteAt 2, byteAt 1, byteAt 0]
  if nbits = 64 then
    (.signature, [byteAt 7, byteAt 6, byteAt 5, byteAt 4, byteAt 3, byteAt 2, byteAt 1, byteAt 0])
  else if nbits = 32 then
    if w = typeIhdr.toNat then (.firstChunk, [0, 0, 0, 13] ++ type ++ List.replicate 17 0)
    else (.chunk, [0, 0, 0, 0] ++ type ++ List.replicate 4 0)
  else if nbits = 16 then (.zlibHeader, [byteAt 0, byteAt 1])
  else (.row 3, [byteAt 0, 0, 0, 0])

/-- The instruction the decoder reads from a table word (assumption 11). -/
def decodeTableWord (nbits w : Nat) : Option Instr :=
  let r := tableStream nbits w
  match decode .fault r.1 (bytesBits r.2) with
  | .element i => some i
  | _ => none

/-- What an encoding depends on: the trees in force, and how many bits a PAD fills (R90, R91). -/
structure Context where
  lit     : Tree
  dist    : Tree
  cl      : Tree
  pending : Nat
  deriving DecidableEq, Repr

/-- A word as four bytes, most significant first (R55). -/
def be32Bytes (x : Word) : List Byte :=
  [x.extractLsb' 24 8, x.extractLsb' 16 8, x.extractLsb' 8 8, x.extractLsb' 0 8]

/-- A word as four bytes, least significant first (R55). -/
def le32Bytes (x : Word) : List Byte :=
  [x.extractLsb' 0 8, x.extractLsb' 8 8, x.extractLsb' 16 8, x.extractLsb' 24 8]

/-- A half word as two bytes, least significant first (R55). -/
def le16Bytes (x : Half) : List Byte := [x.extractLsb' 0 8, x.extractLsb' 8 8]

/-- The bits of a chunk (R73). -/
def chunkBits (type len : Word) (payload : List Byte) (crc : Word) : List Bool :=
  bytesBits (be32Bytes len ++ be32Bytes type ++ payload ++ be32Bytes crc)

/-- A Huffman code of the tree in force, then an extra field of `n` bits (R81, R82). -/
def codedBits (t : Tree) (sym n extra : Nat) : Option (List Bool) :=
  (Machine.codeOf t sym).map (· ++ fieldBits n extra)

/-- The symbol and the extra value of a match length: the symbol of R84 whose range contains it, for 258 symbol 285 (R91). -/
def lenSymbol (length : Nat) : Nat × Nat :=
  if length = 258 then (285, 0)
  else
    let k := ((List.range 28).filter (fun j => lenBase.getD j 0 ≤ length)).length - 1
    (257 + k, length - lenBase.getD k 0)

/-- The symbol and the extra value of a distance: the symbol of R85 whose range contains it (R91). -/
def distSymbol (distance : Nat) : Nat × Nat :=
  let k := ((List.range 30).filter (fun j => distBase.getD j 0 ≤ distance)).length - 1
  (k, distance - distBase.getD k 0)

/-- The symbol and the extra value of a LEN element (R84). -/
def lenParts : Instr → Option (Nat × Nat)
  | .len257 => some (257, 0)
  | .len258 => some (258, 0)
  | .len259 => some (259, 0)
  | .len260 => some (260, 0)
  | .len261 => some (261, 0)
  | .len262 => some (262, 0)
  | .len263 => some (263, 0)
  | .len264 => some (264, 0)
  | .len265 x => some (265, x.toNat)
  | .len266 x => some (266, x.toNat)
  | .len267 x => some (267, x.toNat)
  | .len268 x => some (268, x.toNat)
  | .len269 x => some (269, x.toNat)
  | .len270 x => some (270, x.toNat)
  | .len271 x => some (271, x.toNat)
  | .len272 x => some (272, x.toNat)
  | .len273 x => some (273, x.toNat)
  | .len274 x => some (274, x.toNat)
  | .len275 x => some (275, x.toNat)
  | .len276 x => some (276, x.toNat)
  | .len277 x => some (277, x.toNat)
  | .len278 x => some (278, x.toNat)
  | .len279 x => some (279, x.toNat)
  | .len280 x => some (280, x.toNat)
  | .len281 x => some (281, x.toNat)
  | .len282 x => some (282, x.toNat)
  | .len283 x => some (283, x.toNat)
  | .len284 x => some (284, x.toNat)
  | .len285 => some (285, 0)
  | _ => none

/-- The symbol and the extra value of a DIST element (R85). -/
def distParts : Instr → Option (Nat × Nat)
  | .dist0 => some (0, 0)
  | .dist1 => some (1, 0)
  | .dist2 => some (2, 0)
  | .dist3 => some (3, 0)
  | .dist4 x => some (4, x.toNat)
  | .dist5 x => some (5, x.toNat)
  | .dist6 x => some (6, x.toNat)
  | .dist7 x => some (7, x.toNat)
  | .dist8 x => some (8, x.toNat)
  | .dist9 x => some (9, x.toNat)
  | .dist10 x => some (10, x.toNat)
  | .dist11 x => some (11, x.toNat)
  | .dist12 x => some (12, x.toNat)
  | .dist13 x => some (13, x.toNat)
  | .dist14 x => some (14, x.toNat)
  | .dist15 x => some (15, x.toNat)
  | .dist16 x => some (16, x.toNat)
  | .dist17 x => some (17, x.toNat)
  | .dist18 x => some (18, x.toNat)
  | .dist19 x => some (19, x.toNat)
  | .dist20 x => some (20, x.toNat)
  | .dist21 x => some (21, x.toNat)
  | .dist22 x => some (22, x.toNat)
  | .dist23 x => some (23, x.toNat)
  | .dist24 x => some (24, x.toNat)
  | .dist25 x => some (25, x.toNat)
  | .dist26 x => some (26, x.toNat)
  | .dist27 x => some (27, x.toNat)
  | .dist28 x => some (28, x.toNat)
  | .dist29 x => some (29, x.toNat)
  | _ => none

/-- The code length of a CL 0 to CL 15 element (R83). -/
def clParts : Instr → Option Nat
  | .cl0 => some 0
  | .cl1 => some 1
  | .cl2 => some 2
  | .cl3 => some 3
  | .cl4 => some 4
  | .cl5 => some 5
  | .cl6 => some 6
  | .cl7 => some 7
  | .cl8 => some 8
  | .cl9 => some 9
  | .cl10 => some 10
  | .cl11 => some 11
  | .cl12 => some 12
  | .cl13 => some 13
  | .cl14 => some 14
  | .cl15 => some 15
  | _ => none

/-- The bits of a literal/length code and its extra field. -/
def lenBits (c : Context) (p : Nat × Nat) : Option (List Bool) :=
  codedBits c.lit p.1 (lenExtra.getD (p.1 - 257) 0) p.2

/-- The bits of a distance code and its extra field. -/
def distBits (c : Context) (p : Nat × Nat) : Option (List Bool) :=
  codedBits c.dist p.1 (distExtra.getD p.1 0) p.2

/-- The bits of a LEN element after another; none if either has no code. -/
def bothBits (a b : Option (List Bool)) : Option (List Bool) :=
  match a, b with
  | some x, some y => some (x ++ y)
  | _, _ => none

/-- A CL17 or a CL18 (R83). -/
def zerosBits (c : Context) (n : Nat) : Option (List Bool) :=
  if n ≤ 10 then codedBits c.cl 17 3 (n - 3) else codedBits c.cl 18 7 (n - 11)

/-- The encoder: an element's bits in read order, written from the formats of R72 to R91. None where a symbol has no code
in the tree in force. -/
def encode (c : Context) (i : Instr) : Option (List Bool) :=
  match i with
  | .sig => some (bytesBits signatureBytes)
  | .chunkIhdr w h d ct m f im crc =>
      some (chunkBits typeIhdr 13 (be32Bytes w ++ be32Bytes h ++ [d, ct, m, f, im]) crc)
  | .chunkIdat len payload crc => some (chunkBits typeIdat len payload crc)
  | .chunkIend len payload crc => some (chunkBits typeIend len payload crc)
  | .chunkOther type len payload crc => some (chunkBits type len payload crc)
  | .zhdr cmf flg => some (bytesBits [cmf, flg])
  | .ztrl v => some (bytesBits (le32Bytes v))
  | .blkStored f => some [f, false, false]
  | .blkFixed f => some [f, true, false]
  | .blkDynamic f => some [f, false, true]
  | .blkReserved f => some [f, true, true]
  | .stored len nlen payload => some (bytesBits (le16Bytes len ++ le16Bytes nlen ++ payload))
  | .dyn hlit hdist hclen cl =>
      some (fieldBits 5 (hlit - 257) ++ fieldBits 5 (hdist - 1) ++ fieldBits 4 (hclen - 4) ++ cl.flatMap (fieldBits 3))
  | .cl16 rep => codedBits c.cl 16 2 (rep - 3)
  | .cl17 rep => codedBits c.cl 17 3 (rep - 3)
  | .cl18 rep => codedBits c.cl 18 7 (rep - 11)
  | .lit b => codedBits c.lit b.toNat 0 0
  | .eob => codedBits c.lit 256 0 0
  | .len286Invalid => codedBits c.lit 286 0 0
  | .len287Invalid => codedBits c.lit 287 0 0
  | .dist30Invalid => codedBits c.dist 30 0 0
  | .dist31Invalid => codedBits c.dist 31 0 0
  | .row0 x => some (bytesBits (0 :: x))
  | .row1 x => some (bytesBits (1 :: x))
  | .row2 x => some (bytesBits (2 :: x))
  | .row3 x => some (bytesBits (3 :: x))
  | .row4 x => some (bytesBits (4 :: x))
  | .rowInvalid ft => some (bytesBits [ft])
  | .matchPair length distance => bothBits (lenBits c (lenSymbol length)) (distBits c (distSymbol distance))
  | .zeros n => zerosBits c n
  | .repeatPrev n => codedBits c.cl 16 2 (n - 3)
  | .pad => some (List.replicate c.pending false)
  | .cl0 | .cl1 | .cl2 | .cl3 | .cl4 | .cl5 | .cl6 | .cl7 | .cl8 | .cl9 | .cl10 | .cl11 | .cl12 | .cl13 | .cl14 |
    .cl15 =>
      (clParts i).bind (fun v => codedBits c.cl v 0 0)
  | .len257 | .len258 | .len259 | .len260 | .len261 | .len262 | .len263 | .len264 | .len265 _ | .len266 _ |
    .len267 _ | .len268 _ | .len269 _ | .len270 _ | .len271 _ | .len272 _ | .len273 _ | .len274 _ | .len275 _ |
    .len276 _ | .len277 _ | .len278 _ | .len279 _ | .len280 _ | .len281 _ | .len282 _ | .len283 _ | .len284 _ |
    .len285 =>
      (lenParts i).bind (lenBits c)
  | .dist0 | .dist1 | .dist2 | .dist3 | .dist4 _ | .dist5 _ | .dist6 _ | .dist7 _ | .dist8 _ | .dist9 _ |
    .dist10 _ | .dist11 _ | .dist12 _ | .dist13 _ | .dist14 _ | .dist15 _ | .dist16 _ | .dist17 _ | .dist18 _ |
    .dist19 _ | .dist20 _ | .dist21 _ | .dist22 _ | .dist23 _ | .dist24 _ | .dist25 _ | .dist26 _ | .dist27 _ |
    .dist28 _ | .dist29 _ =>
      (distParts i).bind (distBits c)

/-- Where the engine expects an element's encoding (R34, R70); a pseudo-instruction stands where its expansion's first
element does (R91), and a PAD where no element does. -/
def expectOf (c : Context) (i : Instr) : Expect :=
  match i with
  | .sig => .signature
  | .chunkIhdr _ _ _ _ _ _ _ _ => .firstChunk
  | .chunkIdat _ _ _ | .chunkIend _ _ _ | .chunkOther _ _ _ _ => .chunk
  | .zhdr _ _ => .zlibHeader
  | .ztrl _ => .trailer
  | .blkStored _ | .blkFixed _ | .blkDynamic _ | .blkReserved _ => .blockHeader
  | .stored _ _ _ => .storedBlock
  | .dyn _ _ _ _ => .dynHeader
  | .cl16 _ | .cl17 _ | .cl18 _ | .zeros _ | .repeatPrev _ => .codeLength c.cl
  | .lit _ | .eob | .len286Invalid | .len287Invalid | .matchPair _ _ => .symbol c.lit
  | .dist30Invalid | .dist31Invalid => .distance c.dist
  | .row0 x | .row1 x | .row2 x | .row3 x | .row4 x => .row x.length
  | .rowInvalid _ => .row 0
  | .pad => .storedBlock
  | .cl0 | .cl1 | .cl2 | .cl3 | .cl4 | .cl5 | .cl6 | .cl7 | .cl8 | .cl9 | .cl10 | .cl11 | .cl12 | .cl13 | .cl14 |
    .cl15 => .codeLength c.cl
  | .len257 | .len258 | .len259 | .len260 | .len261 | .len262 | .len263 | .len264 | .len265 _ | .len266 _ |
    .len267 _ | .len268 _ | .len269 _ | .len270 _ | .len271 _ | .len272 _ | .len273 _ | .len274 _ | .len275 _ |
    .len276 _ | .len277 _ | .len278 _ | .len279 _ | .len280 _ | .len281 _ | .len282 _ | .len283 _ | .len284 _ |
    .len285 => .symbol c.lit
  | .dist0 | .dist1 | .dist2 | .dist3 | .dist4 _ | .dist5 _ | .dist6 _ | .dist7 _ | .dist8 _ | .dist9 _ |
    .dist10 _ | .dist11 _ | .dist12 _ | .dist13 _ | .dist14 _ | .dist15 _ | .dist16 _ | .dist17 _ | .dist18 _ |
    .dist19 _ | .dist20 _ | .dist21 _ | .dist22 _ | .dist23 _ | .dist24 _ | .dist25 _ | .dist26 _ | .dist27 _ |
    .dist28 _ | .dist29 _ => .distance c.dist

/-- The pseudo-instructions of R91: other names for the words of other elements, which the decoder never answers. -/
def isPseudo : Instr → Bool
  | .matchPair _ _ | .zeros _ | .repeatPrev _ | .pad => true
  | _ => false

end Sys2Proof
end

