-- ==== Sys2Proof/Machine/State.lean ====
section
/-! DEFINITION. The machine's whole state as plain data (R20 to R46, R50), what stops a step, and the state after reset
(R340). Sizes and offsets of `P_ADDR_BITS` bits are natural numbers (assumption 13). -/

namespace Sys2Proof.Machine

/-- `PHASE` (R30). -/
inductive Phase where
  | idle | png | zlibHdr | inflate | zlibTrl | defilter | done | error
  deriving DecidableEq, Repr

/-- Where phase PNG stands in its pseudocode (R290, R243): the model's own latch (assumption 8). -/
inductive PngPos where
  | signature | firstChunk | chunkLoop
  deriving DecidableEq, Repr

/-- Where phase INFLATE stands in its pseudocode (R150, R154, R159, R180, R183): the model's own latch (assumption 8). -/
inductive InfPos where
  | blockHeader | storedBlock | dynHeader | codeLengths | symbols | distance
  deriving DecidableEq, Repr

/-- The moves of the outside world (R297, R342), which a step takes one at a time (assumption 7). -/
inductive HostMove where
  /-- Load input: writes bytes of `IN` from an offset on. -/
  | load (offset : Nat) (bytes : List Byte)
  /-- Writes an interface register by its index (R21). -/
  | writeReg (index value : Nat)
  /-- Reads an interface register by its index (R21). -/
  | readReg (index : Nat)
  /-- Reads a byte of `PIX` (R297, collect result). -/
  | readPix (offset : Nat)
  /-- Lets the engine take one step. -/
  | tick
  /-- Waits until `STATUS.BUSY` is 0, the engine stepping meanwhile (R297, wait). -/
  | wait
  /-- Power-on reset (R340, R342). -/
  | powerOn
  deriving DecidableEq, Repr

/-- The state of the core. -/
structure State where
  /-- The parameters of R9; no step writes them (assumption 2). -/
  cfg : Params
  /-- The host's moves still to come (assumption 7). -/
  host : List HostMove
  /-- The value the last host read returned (assumption 7). -/
  hostRead : Nat
  /-- `STATUS` (R23). -/
  status : Word
  /-- `CAUSE` (R24). -/
  cause : Word
  /-- `IN_LEN` (R25). -/
  inLen : Nat
  /-- `IMG_WIDTH` (R26). -/
  imgWidth : Word
  /-- `IMG_HEIGHT` (R26). -/
  imgHeight : Word
  /-- `IMG_BPP` (R27). -/
  imgBpp : Word
  /-- `IMG_STRIDE` (R28). -/
  imgStride : Nat
  /-- `PIX_LEN` (R28). -/
  pixLen : Nat
  /-- `PHASE` (R30). -/
  phase : Phase
  /-- The position inside phase PNG (assumption 8). -/
  pngPos : PngPos
  /-- The position inside phase INFLATE (assumption 8). -/
  infPos : InfPos
  /-- `len(IN)`, latched at job start (R25, R291). -/
  lenIn : Nat
  /-- `PCUR` (R31). -/
  pcur : Nat
  /-- `W` (R32). -/
  w : Word
  /-- `H` (R32). -/
  h : Word
  /-- `DEPTH` (R32). -/
  depth : Byte
  /-- `CTYPE` (R32). -/
  ctype : Byte
  /-- `CMETH` (R32). -/
  cmeth : Byte
  /-- `FMETH` (R32). -/
  fmeth : Byte
  /-- `IMETH` (R32). -/
  imeth : Byte
  /-- `BPP` (R32). -/
  bpp : Nat
  /-- `BR_POS`, `BR_ACC`, `BR_CNT` (R33). -/
  br : BitReader
  /-- `CMF` (R35). -/
  cmf : Byte
  /-- `FLG` (R35). -/
  flg : Byte
  /-- `BFINAL` (R35). -/
  bfinal : Bool
  /-- `BTYPE` (R35). -/
  btype : BitVec 2
  /-- `SLEN` (R35). -/
  slen : Half
  /-- `SNLEN` (R35). -/
  snlen : Half
  /-- `HLIT` (R36). -/
  hlit : Nat
  /-- `HDIST` (R36). -/
  hdist : Nat
  /-- `HCLEN` (R36). -/
  hclen : Nat
  /-- `CL_LENS[0..18]` (R36). -/
  clLens : List Nat
  /-- `LENS` (R36). -/
  lens : List Nat
  /-- `LIT_TREE` (R38). -/
  litTree : Tree
  /-- `DIST_TREE` (R38). -/
  distTree : Tree
  /-- `CL_TREE` (R38). -/
  clTree : Tree
  /-- The local `length` of R183, held until its distance is decoded (assumption 8). -/
  matchLen : Nat
  /-- `ROW` (R40). -/
  row : Nat
  /-- `PREV` (R40). -/
  prev : List Byte
  /-- `CUR` (R40). -/
  cur : List Byte
  /-- `FAULT` (R41). -/
  faultCode : Byte
  /-- The space `IN` (R51). -/
  inSpace : Memory
  /-- How many power-on resets have been, which names the free values of the bytes of `IN` that nothing has written since
  (R340): the model's own counter (assumption 5). -/
  inDraw : Nat
  /-- The space `ZBUF` (R52). -/
  zbuf : Memory
  /-- The space `OUT` (R53). -/
  out : Memory
  /-- The space `PIX` (R54). -/
  pix : Memory
  deriving DecidableEq, Repr

/-- What stops a step because the machine reaches for something the spec says does not exist. A fault of the spec
(R310) is none of these: it is a next state. -/
inductive Fault where
  /-- A read of a byte that a space, a row register or an element's operand list does not hold, where the spec defines no
  read (R12). Raised by the BitReader, the copy and the defilter. Safe: no run reaches it (assumption 15). -/
  | absentByte
  /-- A walk that meets an index with no node. Raised by the Huffman decode. Safe: no arena of `build` holds such an index
  (R125, assumption 15). -/
  | absentNode
  /-- The host writes `IN` at an offset of `2^P_ADDR_BITS` or more, which does not exist (R50). Raised by the host's load.
  Safe (assumption 14). -/
  | addressOutsideIn
  /-- The host reads `PIX` at `PIX_LEN` or more, which does not exist (R297). Raised by the host's read. Safe
  (assumption 14). -/
  | addressOutsidePix
  deriving DecidableEq, Repr

/-- What the model gives no meaning to. -/
inductive Refusal where
  /-- An instruction that has no meaning yet, by its mnemonic. Raised by no arm of this model. Safe. -/
  | notModelled (mnemonic : String)
  /-- The host writes `IN` while `STATUS.BUSY = 1`, a move R297 does not give it. Raised by the host's load. Safe
  (assumption 14). -/
  | inputWrittenDuringJob
  /-- The host reads `PIX` while `STATUS.DONE = 0`: it has no such read (R297, R316, R346). Raised by the host's read. Safe
  (assumption 14). -/
  | pixReadWithoutImage
  deriving DecidableEq, Repr

/-- The outcome of running a part of an element. A raise keeps the effects before it (R315). -/
inductive Run (α : Type) where
  /-- The part has run to its end. -/
  | ok (a : α) (s : State)
  /-- The part has raised a cause of R311 in this state. -/
  | raised (c : Cause) (s : State)
  /-- The part has met something that does not exist. -/
  | stop (f : Fault)
  deriving DecidableEq, Repr

/-- The state right after power-on reset (R340). The engine registers hold the job-start values of R45 (assumption 3), and the number of resets is 0
(assumption 5). -/
def State.reset : State :=
  { cfg := Params.defaults, host := [], hostRead := 0,
    status := 0, cause := 0, inLen := 0, imgWidth := 0, imgHeight := 0, imgBpp := 0, imgStride := 0, pixLen := 0,
    phase := .idle, pngPos := .signature, infPos := .blockHeader, lenIn := 0, pcur := 0,
    w := 0, h := 0, depth := 0, ctype := 0, cmeth := 0, fmeth := 0, imeth := 0, bpp := 0,
    br := { pos := 0, acc := 0, cnt := 0 }, cmf := 0, flg := 0,
    bfinal := false, btype := 0, slen := 0, snlen := 0, hlit := 0, hdist := 0, hclen := 0,
    clLens := List.replicate 19 0, lens := [], litTree := noTree, distTree := noTree, clTree := noTree, matchLen := 0,
    row := 0, prev := [], cur := [], faultCode := 0, inSpace := [], inDraw := 0, zbuf := [], out := [], pix := [] }

end Sys2Proof.Machine
end

