-- ==== Sys2Proof/Machine/Flags.lean ====
section
/-! DEFINITION. The block has no condition codes (R42): its flags are the fields of `STATUS` (R23), and its cause codes
are the fields of `CAUSE` (R24, R311). -/

namespace Sys2Proof.Machine

/-- `STATUS` while a job runs (R23, R291). -/
def statusBusy : Word := 1
/-- `STATUS` after a result (R23, R296). -/
def statusDone : Word := 2
/-- `STATUS` after a fault (R23, R315). -/
def statusErr : Word := 4

/-- `STATUS.BUSY` (R23). -/
def isBusy (s : State) : Bool := s.status.getLsbD 0
/-- `STATUS.DONE` (R23). -/
def isDone (s : State) : Bool := s.status.getLsbD 1
/-- `STATUS.ERR` (R23). -/
def isErr (s : State) : Bool := s.status.getLsbD 2

/-- The cause codes (R311): the kind in bits 7:4, the cause within the kind in bits 3:0. -/
def causeCode : Cause → Byte
  | .pngSignature => 0x11
  | .firstNotIhdr => 0x12
  | .ihdrLength => 0x13
  | .zeroDimension => 0x14
  | .zlibFcheck => 0x15
  | .zlibCinfo => 0x16
  | .bitDepth => 0x21
  | .colorType => 0x22
  | .pngCompression => 0x23
  | .pngFilterMethod => 0x24
  | .pngInterlace => 0x25
  | .zlibCm => 0x26
  | .zlibFdict => 0x27
  | .outOfData => 0x31
  | .btypeReserved => 0x32
  | .filterType => 0x33
  | .distanceTooFar => 0x34
  | .emptyTree => 0x35
  | .missingBranch => 0x36
  | .repeatNoPrevious => 0x37
  | .repeatOverrun => 0x38
  | .lengthSymbol => 0x39
  | .distanceSymbol => 0x3A
  | .shortImageData => 0x3B
  | .ioSource => 0x41
  | .outputCapacity => 0x51
  | .sizeOverflow => 0x52

/-- `CAUSE` holding a code: bits 31:8 are 0 (R24). -/
def causeWord (c : Cause) : Word := (causeCode c).setWidth 32

/-- `CAUSE.KIND` (R24). -/
def causeKind (x : Word) : Nat := (x.extractLsb' 4 4).toNat
/-- `CAUSE.SUB` (R24). -/
def causeSub (x : Word) : Nat := (x.extractLsb' 0 4).toNat

end Sys2Proof.Machine
end

