-- ==== Sys2Proof/Machine/Ops.lean ====
section
/-! DEFINITION. The shared operations: sequencing a part after a part, taking a fault (R315), starting and finishing a job
(R291, R296), the moves from phase to phase (R290), emitting and copying output bytes (R188, R189). -/

namespace Sys2Proof.Machine

/-- Runs `k` after a part that has run to its end; a raise or a stop ends the element there (R14). -/
def Run.andThen {α β : Type} (r : Run α) (k : α → State → Run β) : Run β :=
  match r with
  | .ok a s => k a s
  | .raised c s => .raised c s
  | .stop f => .stop f

/-- Fault entry, `raise <Kind>(<cause>)` (R315). What it does not write keeps its value, after the end too, of which the spec
says nothing (R299, assumption 20). There is no return from a fault: the phase stays ERROR until the host starts a new job
(R317). -/
def raise (c : Cause) (s : State) : State :=
  { s with
    faultCode := causeCode c, cause := causeWord c,
    imgWidth := 0, imgHeight := 0, imgBpp := 0, imgStride := 0, pixLen := 0,
    phase := .error, status := statusErr }

/-- An element's outcome: a raise takes the fault entry of R315 and is a next state. -/
def Run.outcome (r : Run Unit) : Host.Outcome State Fault Refusal :=
  match r with
  | .ok _ s => .next s
  | .raised c s => .next (raise c s)
  | .stop f => .fault f

/-- `start()` (R291), with the job-start values of R45. -/
def startJob (s : State) : State :=
  { s with
    lenIn := s.inLen, status := statusBusy, cause := 0,
    imgWidth := 0, imgHeight := 0, imgBpp := 0, imgStride := 0, pixLen := 0,
    pngPos := .signature, infPos := .blockHeader, pcur := 0,
    w := 0, h := 0, depth := 0, ctype := 0, cmeth := 0, fmeth := 0, imeth := 0, bpp := 0,
    br := { pos := 0, acc := 0, cnt := 0 }, cmf := 0, flg := 0,
    bfinal := false, btype := 0, slen := 0, snlen := 0, hlit := 0, hdist := 0, hclen := 0,
    clLens := List.replicate 19 0, lens := [], litTree := noTree, distTree := noTree, clTree := noTree, matchLen := 0,
    row := 0, prev := [], cur := [], faultCode := 0, zbuf := [], out := [], pix := [],
    phase := .png }

/-- `stride = W × BPP` in unbounded integers (R10, R56). -/
def stride (s : State) : Nat := s.w.toNat * s.bpp

/-- `NEED = H × (stride + 1)` in unbounded integers (R56, R293). -/
def need (s : State) : Nat := s.h.toNat * (stride s + 1)

/-- `finish()` (R296). What the engine registers, `ZBUF` and `OUT` hold after the end the spec does not say (R299); they keep
their last values (assumption 20). -/
def finishJob (s : State) : State :=
  { s with
    imgWidth := s.w, imgHeight := s.h, imgBpp := BitVec.ofNat 32 s.bpp,
    imgStride := stride s, pixLen := stride s * s.h.toNat,
    cause := 0, phase := .done, status := statusDone }

/-- Between stage 1 and stage 2: the size check (R293), then phase ZLIB_HDR with a fresh BitReader (R105, R247). -/
def enterZlib (s : State) : Run Unit :=
  if 2 ^ s.cfg.addrBits ≤ need s then .raised .sizeOverflow s
  else .ok () { s with phase := .zlibHdr, br := { pos := 0, acc := 0, cnt := 0 } }

/-- The end of a block (R150): its trees are discarded (R38, assumption 10), and the next block header follows, or after
the final block phase ZLIB_TRL (R217). -/
def endBlock (s : State) : State :=
  let t := { s with litTree := noTree, distTree := noTree, clTree := noTree, infPos := .blockHeader }
  if s.bfinal then { t with phase := .zlibTrl } else t

/-- The start of stage 3 (R260): phase DEFILTER, the length check, a previous row of zeros. The BitReader has died with the
trailer (R105); that its registers keep their last values is the model's choice (assumption 20). An image of no rows would
be finished at once (assumption 18); R241 admits none. -/
def enterDefilter (s : State) : Run Unit :=
  let t := { s with phase := .defilter }
  if Memory.len t.out < need t then .raised .shortImageData t
  else
    let u := { t with row := 0, prev := List.replicate (stride t) 0 }
    if u.h.toNat = 0 then .ok () (finishJob u) else .ok () u

/-- The output buffer has room for `n` more bytes (R188, R189). -/
def hasRoom (s : State) (n : Nat) : Bool :=
  match s.cfg.outCap with
  | none => true
  | some cap => Memory.len s.out + n ≤ cap

/-- `emit(v)` (R189). -/
def emit (v : Byte) (s : State) : Run Unit :=
  if hasRoom s 1 then .ok () { s with out := Memory.append s.out v } else .raised .outputCapacity s

/-- The byte-serial loop of R188: each appended byte is visible to the next read (R61). -/
def copyBytes (distance : Nat) : Nat → Memory → Option Memory
  | 0, m => some m
  | n + 1, m =>
      match Memory.read m (Memory.len m - distance) with
      | none => none
      | some v => copyBytes distance n (Memory.append m v)

/-- `copy(length, distance)` (R188), for a distance of at most `len(OUT)` (R187). -/
def copyMatch (length distance : Nat) (s : State) : Run Unit :=
  if hasRoom s length then
    match copyBytes distance length s.out with
    | none => .stop .absentByte
    | some m => .ok () { s with out := m }
  else .raised .outputCapacity s

end Sys2Proof.Machine
end

