-- ==== Sys2Proof/Machine/Operands.lean ====
section
/-! DEFINITION. Reading operands: the byte reads of `IN` (R230), the BitReader over `ZBUF` (R100 to R106), the Huffman
decode (R128), and the streams ahead of each cursor (R34, R71). -/

namespace Sys2Proof.Machine

/-- `MemRead(IN, a, 1)` (R12): the byte the host has written at `a`, any value where it has written none (R340,
assumption 5). -/
def inByte (s : State) (a : Nat) : Byte := (Memory.read s.inSpace a).getD (unwrittenByte s.inDraw a)

/-- The `n` bytes of `IN` from offset `a` on. -/
def inBytes (s : State) (a : Nat) : Nat → List Byte
  | 0 => []
  | n + 1 => inByte s a :: inBytes s (a + 1) n

/-- `rd8()` (R230). -/
def rd8 (s : State) : Run Byte :=
  if s.lenIn ≤ s.pcur then .raised .outOfData s
  else .ok (inByte s s.pcur) { s with pcur := s.pcur + 1 }

/-- `rd32()`, big-endian (R230). -/
def rd32 (s : State) : Run Word :=
  (rd8 s).andThen fun b0 s =>
  (rd8 s).andThen fun b1 s =>
  (rd8 s).andThen fun b2 s =>
  (rd8 s).andThen fun b3 s =>
  .ok (be32 b0 b1 b2 b3) s

/-- `rdn(n)` (R230): the bound is checked before any byte is read. -/
def rdn (n : Nat) (s : State) : Run (List Byte) :=
  if s.lenIn < s.pcur + n then .raised .outOfData s
  else .ok (inBytes s s.pcur n) { s with pcur := s.pcur + n }

/-- `skip(n)` (R230): no byte is read. -/
def skip (n : Nat) (s : State) : Run Unit :=
  if s.lenIn < s.pcur + n then .raised .outOfData s else .ok () { s with pcur := s.pcur + n }

/-- `read_bit()` (R100). -/
def readBit (s : State) : Run Bool :=
  if s.br.cnt = 0 then
    if Memory.len s.zbuf ≤ s.br.pos then .raised .outOfData s
    else
      match Memory.read s.zbuf s.br.pos with
      | none => .stop .absentByte
      | some b => .ok (b.getLsbD 0) { s with br := { pos := s.br.pos + 1, acc := b >>> 1, cnt := 7 } }
  else
    .ok (s.br.acc.getLsbD 0) { s with br := { s.br with acc := s.br.acc >>> 1, cnt := s.br.cnt - 1 } }

/-- `read_bits(n)` (R101): the first bit read is bit 0 of the value. -/
def readBits : Nat → State → Run Nat
  | 0, s => .ok 0 s
  | n + 1, s =>
      (readBit s).andThen fun b s =>
      (readBits n s).andThen fun v s =>
      .ok (b.toNat + 2 * v) s

/-- The discarding of pending bits that begins a `read_byte()` (R102, R57). -/
def alignReader (s : State) : State := { s with br := { s.br with acc := 0, cnt := 0 } }

/-- `read_byte()` (R102). -/
def readByte (s : State) : Run Byte :=
  let t := alignReader s
  if Memory.len t.zbuf ≤ t.br.pos then .raised .outOfData t
  else
    match Memory.read t.zbuf t.br.pos with
    | none => .stop .absentByte
    | some b => .ok b { t with br := { t.br with pos := t.br.pos + 1 } }

/-- `read_bytes(n)` (R103): little-endian. -/
def readBytes : Nat → State → Run Nat
  | 0, s => .ok 0 s
  | n + 1, s =>
      (readByte s).andThen fun b s =>
      (readBytes n s).andThen fun v s =>
      .ok (b.toNat + 256 * v) s

/-- `bitpos` (R106): the number of `ZBUF` bits consumed or discarded. -/
def bitpos (s : State) : Nat := 8 * s.br.pos - s.br.cnt

/-- The pending bits of the accumulator, next bit first (R33). -/
def pendingBits (r : BitReader) : List Bool := (List.range r.cnt).map (fun k => r.acc.getLsbD k)

/-- The bits of `ZBUF` still to be read, in read order (R71, R106). -/
def bitsAhead (s : State) : List Bool :=
  pendingBits s.br ++ bytesBits (Memory.bytesFrom s.br.pos s.zbuf)

/-- The bits of `ZBUF` from the next byte boundary on, which a `read_byte` reads from (R102). -/
def alignedBitsAhead (s : State) : List Bool := bytesBits (Memory.bytesFrom s.br.pos s.zbuf)

/-- The bits of the bytes of `IN` from `PCUR` up to `len(IN)` (R34). -/
def inBitsAhead (s : State) : List Bool := bytesBits (inBytes s s.pcur (s.lenIn - s.pcur))

/-- The bits of row `ROW`: its filter-type byte and its filtered bytes (R261). -/
def rowBits (s : State) : List Bool :=
  bytesBits ((Memory.bytesFrom (s.row * (stride s + 1)) s.out).take (stride s + 1))

/-- `decode(T)` (R128): the walk over the bits ahead, and the `read_bit`s it makes, the one that finds no bit included. -/
def huffDecode (t : Tree) (s : State) : Run Nat :=
  match walk t s.cfg.missingBranch (bitsAhead s) with
  | .found sym used => (readBits used s).andThen fun _ s => .ok sym s
  | .bad c used => (readBits used s).andThen fun _ s => .raised c s
  | .short used => (readBits (used + 1) s).andThen fun _ s => .raised .outOfData s
  | .noNode => .stop .absentNode

end Sys2Proof.Machine
end

