-- ==== Sys2Proof/Machine/Blocks.lean ====
section
/-! DEFINITION. The meanings of the block headers, the stored block and the dynamic header (42_inflate_blocks.md). A BLK
element runs after its three header bits, which the block loop has read (R150, R151). -/

namespace Sys2Proof.Machine

/-- The block registers of a header (R151). -/
def setBlock (final : Bool) (type : BitVec 2) (s : State) : State := { s with bfinal := final, btype := type }

/-- `BLK type=STORED` (R150, R152): the stored block follows. -/
def execBlkStored (final : Bool) (s : State) : Host.Outcome State Fault Refusal :=
  .next { setBlock final 0 s with infPos := .storedBlock }

/-- `BLK type=FIXED` (R153): the fixed trees, then the symbol loop. -/
def execBlkFixed (final : Bool) (s : State) : Host.Outcome State Fault Refusal :=
  .next { setBlock final 1 s with litTree := fixedLit, distTree := fixedDist, infPos := .symbols }

/-- `BLK type=DYNAMIC` (R154): the dynamic header follows. -/
def execBlkDynamic (final : Bool) (s : State) : Host.Outcome State Fault Refusal :=
  .next { setBlock final 2 s with infPos := .dynHeader }

/-- `BLK type=RESERVED` (R155): whatever BFINAL is, it raises C_BTYPE_RESERVED. -/
def execBlkReserved (final : Bool) (s : State) : Host.Outcome State Fault Refusal :=
  .next (raise .btypeReserved (setBlock final 3 s))

/-- The payload loop of R152: each byte is read, then emitted. A payload that ends early is one that `ZBUF` does not hold
whole, and its next `read_byte` raises C_OUT_OF_DATA. -/
def storedLoop : Nat → List Byte → State → Run Unit
  | 0, _, s => .ok () s
  | _ + 1, [], s => (readByte s).andThen fun _ s => .raised .outOfData s
  | n + 1, v :: vs, s =>
      (readByte s).andThen fun _ s =>
      (emit v s).andThen fun _ s =>
      storedLoop n vs s

/-- `STORED` (R152): NLEN is never compared with LEN. -/
def execStored (len nlen : Half) (payload : List Byte) (s : State) : Host.Outcome State Fault Refusal :=
  Run.outcome <|
  (readBytes 2 s).andThen fun _ s =>
  (readBytes 2 { s with slen := len }).andThen fun _ s =>
  (storedLoop len.toNat payload { s with snlen := nlen }).andThen fun _ s =>
  .ok () (endBlock s)

/-- The code-length code lengths of R157: field `k` goes to symbol `CL_ORDER[k]`. -/
def readClLens : List Nat → List Nat → State → Run Unit
  | sym :: syms, v :: vs, s =>
      (readBits 3 s).andThen fun _ s =>
      readClLens syms vs { s with clLens := s.clLens.set sym v }
  | _, _, s => .ok () s

/-- `DYN` (R156, R157, R158): the counts, the code-length code lengths, the code-length tree; the length sequence of R159
follows. -/
def execDyn (hlit hdist hclen : Nat) (cl : List Nat) (s : State) : Host.Outcome State Fault Refusal :=
  Run.outcome <|
  (readBits 5 s).andThen fun _ s =>
  (readBits 5 { s with hlit := hlit }).andThen fun _ s =>
  (readBits 4 { s with hdist := hdist }).andThen fun _ s =>
  (readClLens clOrder cl { s with hclen := hclen, clLens := List.replicate nsymCl 0 }).andThen fun _ s =>
  .ok () { s with clTree := build s.clLens, lens := [], infPos := .codeLengths }

end Sys2Proof.Machine
end

