-- ==== Sys2Proof/Machine/CodeLengths.lean ====
section
/-! DEFINITION. The meanings of the code-length symbols (42_inflate_blocks.md, R159 to R164). A CL element runs after its
code, which the loop of R159 has decoded. -/

namespace Sys2Proof.Machine

/-- The loop test of R159, and at its end the split of R164: the two trees, then the symbol loop (R154). -/
def afterLengths (s : State) : State :=
  if s.lens.length < s.hlit + s.hdist then s
  else
    { s with
      litTree := build (s.lens.take s.hlit), distTree := build ((s.lens.drop s.hlit).take s.hdist),
      infPos := .symbols }

/-- `CL <v>` (R160): appends one length. -/
def runCl (v : Nat) (s : State) : Run Unit := .ok () (afterLengths { s with lens := s.lens ++ [v] })

/-- The overrun check and the appends that end a repeat (R161, R162). -/
def appendRepeat (rep v : Nat) (s : State) : Run Unit :=
  if s.hlit + s.hdist < s.lens.length + rep then .raised .repeatOverrun s
  else .ok () (afterLengths { s with lens := s.lens ++ List.replicate rep v })

/-- `cl_repeat_prev()` (R161): the check for a previous length comes before the extra bits. -/
def runRepeatPrev (rep : Nat) (s : State) : Run Unit :=
  match s.lens.getLast? with
  | none => .raised .repeatNoPrevious s
  | some v => (readBits 2 s).andThen fun _ s => appendRepeat rep v s

/-- `cl_zeros(nbits, base)` (R162, R163). -/
def runZeros (nbits rep : Nat) (s : State) : Run Unit :=
  (readBits nbits s).andThen fun _ s => appendRepeat rep 0 s

/-- `CL 0` (R160). -/
def execCl0 (s : State) : Host.Outcome State Fault Refusal := Run.outcome (runCl 0 s)

/-- `CL 1` (R160). -/
def execCl1 (s : State) : Host.Outcome State Fault Refusal := Run.outcome (runCl 1 s)

/-- `CL 2` (R160). -/
def execCl2 (s : State) : Host.Outcome State Fault Refusal := Run.outcome (runCl 2 s)

/-- `CL 3` (R160). -/
def execCl3 (s : State) : Host.Outcome State Fault Refusal := Run.outcome (runCl 3 s)

/-- `CL 4` (R160). -/
def execCl4 (s : State) : Host.Outcome State Fault Refusal := Run.outcome (runCl 4 s)

/-- `CL 5` (R160). -/
def execCl5 (s : State) : Host.Outcome State Fault Refusal := Run.outcome (runCl 5 s)

/-- `CL 6` (R160). -/
def execCl6 (s : State) : Host.Outcome State Fault Refusal := Run.outcome (runCl 6 s)

/-- `CL 7` (R160). -/
def execCl7 (s : State) : Host.Outcome State Fault Refusal := Run.outcome (runCl 7 s)

/-- `CL 8` (R160). -/
def execCl8 (s : State) : Host.Outcome State Fault Refusal := Run.outcome (runCl 8 s)

/-- `CL 9` (R160). -/
def execCl9 (s : State) : Host.Outcome State Fault Refusal := Run.outcome (runCl 9 s)

/-- `CL 10` (R160). -/
def execCl10 (s : State) : Host.Outcome State Fault Refusal := Run.outcome (runCl 10 s)

/-- `CL 11` (R160). -/
def execCl11 (s : State) : Host.Outcome State Fault Refusal := Run.outcome (runCl 11 s)

/-- `CL 12` (R160). -/
def execCl12 (s : State) : Host.Outcome State Fault Refusal := Run.outcome (runCl 12 s)

/-- `CL 13` (R160). -/
def execCl13 (s : State) : Host.Outcome State Fault Refusal := Run.outcome (runCl 13 s)

/-- `CL 14` (R160). -/
def execCl14 (s : State) : Host.Outcome State Fault Refusal := Run.outcome (runCl 14 s)

/-- `CL 15` (R160). -/
def execCl15 (s : State) : Host.Outcome State Fault Refusal := Run.outcome (runCl 15 s)

/-- `CL16` (R161). -/
def execCl16 (rep : Nat) (s : State) : Host.Outcome State Fault Refusal := Run.outcome (runRepeatPrev rep s)

/-- `CL17` (R162). -/
def execCl17 (rep : Nat) (s : State) : Host.Outcome State Fault Refusal := Run.outcome (runZeros 3 rep s)

/-- `CL18` (R163). -/
def execCl18 (rep : Nat) (s : State) : Host.Outcome State Fault Refusal := Run.outcome (runZeros 7 rep s)

end Sys2Proof.Machine
end

