-- ==== Sys2Proof/Machine/Png.lean ====
section
/-! DEFINITION. The meanings of the PNG elements (45_png.md). A chunk element runs from the end of its header, which the
chunk loop has read (R232, R243); no CRC is verified (R248). -/

namespace Sys2Proof.Machine

/-- `SIG` (R231). -/
def execSig (s : State) : Host.Outcome State Fault Refusal :=
  Run.outcome <|
  (rdn 8 s).andThen fun _ s =>
  .ok () { s with pngPos := .firstChunk }

/-- The IHDR checks, the first failure reported (R235 to R241), and `BPP` (R242). -/
def ihdrChecks (s : State) : Run Unit :=
  if s.depth ≠ 8 then .raised .bitDepth s
  else if s.ctype ≠ 2 ∧ s.ctype ≠ 6 then .raised .colorType s
  else if s.cmeth ≠ 0 then .raised .pngCompression s
  else if s.fmeth ≠ 0 then .raised .pngFilterMethod s
  else if s.imeth ≠ 0 then .raised .pngInterlace s
  else if s.w = 0 ∨ s.h = 0 then .raised .zeroDimension s
  else .ok () { s with bpp := if s.ctype = 2 then 3 else 4 }

/-- `CHUNK IHDR` (R233, R234, R235): the fields are latched as they are read, the CRC is skipped, then the checks run. -/
def execChunkIhdr (width height : Word) (depth ctype cmeth fmeth imeth : Byte) (_crc : Word) (s : State) :
    Host.Outcome State Fault Refusal :=
  Run.outcome <|
  (rd32 s).andThen fun _ s =>
  (rd32 { s with w := width }).andThen fun _ s =>
  (rd8 { s with h := height }).andThen fun _ s =>
  (rd8 { s with depth := depth }).andThen fun _ s =>
  (rd8 { s with ctype := ctype }).andThen fun _ s =>
  (rd8 { s with cmeth := cmeth }).andThen fun _ s =>
  (rd8 { s with fmeth := fmeth }).andThen fun _ s =>
  (skip 4 { s with imeth := imeth }).andThen fun _ s =>
  (ihdrChecks s).andThen fun _ s =>
  .ok () { s with pngPos := .chunkLoop }

/-- `CHUNK IDAT` (R244). -/
def execChunkIdat (len : Word) (payload : List Byte) (_crc : Word) (s : State) : Host.Outcome State Fault Refusal :=
  Run.outcome <|
  (rdn len.toNat s).andThen fun _ s =>
  skip 4 { s with zbuf := Memory.appendAll s.zbuf payload }

/-- A chunk's payload and CRC skipped without inspection (R245, R246). -/
def skipChunk (len : Word) (s : State) : Run Unit :=
  (skip len.toNat s).andThen fun _ s => skip 4 s

/-- `CHUNK IEND` (R245): it ends the chunk stream; the size check and phase ZLIB_HDR follow (R247, R293). -/
def execChunkIend (len : Word) (_payload : List Byte) (_crc : Word) (s : State) : Host.Outcome State Fault Refusal :=
  Run.outcome <| (skipChunk len s).andThen fun _ s => enterZlib s

/-- `CHUNK <other>` (R246). -/
def execChunkOther (_type len : Word) (_payload : List Byte) (_crc : Word) (s : State) :
    Host.Outcome State Fault Refusal :=
  Run.outcome (skipChunk len s)

end Sys2Proof.Machine
end

