-- ==== Sys2Proof/Machine/Symbols.lean ====
section
/-! DEFINITION. The meanings of the literal, length and distance symbols (43_inflate_symbols.md). An element runs after its
code, which the symbol loop or the match has decoded (R180, R183). -/

namespace Sys2Proof.Machine

/-- `LIT <b>` (R181). -/
def execLit (b : Byte) (s : State) : Host.Outcome State Fault Refusal := Run.outcome (emit b s)

/-- `EOB` (R182): the block ends, and the block loop tests BFINAL (R150). -/
def execEob (s : State) : Host.Outcome State Fault Refusal := .next (endBlock s)

/-- The `length` line of R183 for symbol `sym` with extra value `extra`; the distance symbol follows. -/
def runLen (sym extra : Nat) (s : State) : Run Unit :=
  (readBits (lenExtra.getD (sym - 257) 0) s).andThen fun _ s =>
  .ok () { s with matchLen := lenBase.getD (sym - 257) 0 + extra, infPos := .distance }

/-- The `distance` line of R183 for symbol `sym` with extra value `extra`, the check of R187 and the copy of R188; the
symbol loop goes on. -/
def runDist (sym extra : Nat) (s : State) : Run Unit :=
  (readBits (distExtra.getD sym 0) s).andThen fun _ s =>
  let distance := distBase.getD sym 0 + extra
  if Memory.len s.out < distance then .raised .distanceTooFar s
  else
    (copyMatch s.matchLen distance s).andThen fun _ s =>
    .ok () { s with infPos := .symbols }

/-- `LEN 257` (R183). -/
def execLen257 (s : State) : Host.Outcome State Fault Refusal := Run.outcome (runLen 257 0 s)

/-- `LEN 258` (R183). -/
def execLen258 (s : State) : Host.Outcome State Fault Refusal := Run.outcome (runLen 258 0 s)

/-- `LEN 259` (R183). -/
def execLen259 (s : State) : Host.Outcome State Fault Refusal := Run.outcome (runLen 259 0 s)

/-- `LEN 260` (R183). -/
def execLen260 (s : State) : Host.Outcome State Fault Refusal := Run.outcome (runLen 260 0 s)

/-- `LEN 261` (R183). -/
def execLen261 (s : State) : Host.Outcome State Fault Refusal := Run.outcome (runLen 261 0 s)

/-- `LEN 262` (R183). -/
def execLen262 (s : State) : Host.Outcome State Fault Refusal := Run.outcome (runLen 262 0 s)

/-- `LEN 263` (R183). -/
def execLen263 (s : State) : Host.Outcome State Fault Refusal := Run.outcome (runLen 263 0 s)

/-- `LEN 264` (R183). -/
def execLen264 (s : State) : Host.Outcome State Fault Refusal := Run.outcome (runLen 264 0 s)

/-- `LEN 265` (R183). -/
def execLen265 (extra : BitVec 1) (s : State) : Host.Outcome State Fault Refusal := Run.outcome (runLen 265 extra.toNat s)

/-- `LEN 266` (R183). -/
def execLen266 (extra : BitVec 1) (s : State) : Host.Outcome State Fault Refusal := Run.outcome (runLen 266 extra.toNat s)

/-- `LEN 267` (R183). -/
def execLen267 (extra : BitVec 1) (s : State) : Host.Outcome State Fault Refusal := Run.outcome (runLen 267 extra.toNat s)

/-- `LEN 268` (R183). -/
def execLen268 (extra : BitVec 1) (s : State) : Host.Outcome State Fault Refusal := Run.outcome (runLen 268 extra.toNat s)

/-- `LEN 269` (R183). -/
def execLen269 (extra : BitVec 2) (s : State) : Host.Outcome State Fault Refusal := Run.outcome (runLen 269 extra.toNat s)

/-- `LEN 270` (R183). -/
def execLen270 (extra : BitVec 2) (s : State) : Host.Outcome State Fault Refusal := Run.outcome (runLen 270 extra.toNat s)

/-- `LEN 271` (R183). -/
def execLen271 (extra : BitVec 2) (s : State) : Host.Outcome State Fault Refusal := Run.outcome (runLen 271 extra.toNat s)

/-- `LEN 272` (R183). -/
def execLen272 (extra : BitVec 2) (s : State) : Host.Outcome State Fault Refusal := Run.outcome (runLen 272 extra.toNat s)

/-- `LEN 273` (R183). -/
def execLen273 (extra : BitVec 3) (s : State) : Host.Outcome State Fault Refusal := Run.outcome (runLen 273 extra.toNat s)

/-- `LEN 274` (R183). -/
def execLen274 (extra : BitVec 3) (s : State) : Host.Outcome State Fault Refusal := Run.outcome (runLen 274 extra.toNat s)

/-- `LEN 275` (R183). -/
def execLen275 (extra : BitVec 3) (s : State) : Host.Outcome State Fault Refusal := Run.outcome (runLen 275 extra.toNat s)

/-- `LEN 276` (R183). -/
def execLen276 (extra : BitVec 3) (s : State) : Host.Outcome State Fault Refusal := Run.outcome (runLen 276 extra.toNat s)

/-- `LEN 277` (R183). -/
def execLen277 (extra : BitVec 4) (s : State) : Host.Outcome State Fault Refusal := Run.outcome (runLen 277 extra.toNat s)

/-- `LEN 278` (R183). -/
def execLen278 (extra : BitVec 4) (s : State) : Host.Outcome State Fault Refusal := Run.outcome (runLen 278 extra.toNat s)

/-- `LEN 279` (R183). -/
def execLen279 (extra : BitVec 4) (s : State) : Host.Outcome State Fault Refusal := Run.outcome (runLen 279 extra.toNat s)

/-- `LEN 280` (R183). -/
def execLen280 (extra : BitVec 4) (s : State) : Host.Outcome State Fault Refusal := Run.outcome (runLen 280 extra.toNat s)

/-- `LEN 281` (R183). -/
def execLen281 (extra : BitVec 5) (s : State) : Host.Outcome State Fault Refusal := Run.outcome (runLen 281 extra.toNat s)

/-- `LEN 282` (R183). -/
def execLen282 (extra : BitVec 5) (s : State) : Host.Outcome State Fault Refusal := Run.outcome (runLen 282 extra.toNat s)

/-- `LEN 283` (R183). -/
def execLen283 (extra : BitVec 5) (s : State) : Host.Outcome State Fault Refusal := Run.outcome (runLen 283 extra.toNat s)

/-- `LEN 284` (R183). -/
def execLen284 (extra : BitVec 5) (s : State) : Host.Outcome State Fault Refusal := Run.outcome (runLen 284 extra.toNat s)

/-- `LEN 285` (R183). -/
def execLen285 (s : State) : Host.Outcome State Fault Refusal := Run.outcome (runLen 285 0 s)

/-- `LEN 286`, invalid: it raises before any extra bit (R184). -/
def execLen286Invalid (s : State) : Host.Outcome State Fault Refusal := .next (raise .lengthSymbol s)

/-- `LEN 287`, invalid: it raises before any extra bit (R184). -/
def execLen287Invalid (s : State) : Host.Outcome State Fault Refusal := .next (raise .lengthSymbol s)

/-- `DIST 0` (R185). -/
def execDist0 (s : State) : Host.Outcome State Fault Refusal := Run.outcome (runDist 0 0 s)

/-- `DIST 1` (R185). -/
def execDist1 (s : State) : Host.Outcome State Fault Refusal := Run.outcome (runDist 1 0 s)

/-- `DIST 2` (R185). -/
def execDist2 (s : State) : Host.Outcome State Fault Refusal := Run.outcome (runDist 2 0 s)

/-- `DIST 3` (R185). -/
def execDist3 (s : State) : Host.Outcome State Fault Refusal := Run.outcome (runDist 3 0 s)

/-- `DIST 4` (R185). -/
def execDist4 (extra : BitVec 1) (s : State) : Host.Outcome State Fault Refusal := Run.outcome (runDist 4 extra.toNat s)

/-- `DIST 5` (R185). -/
def execDist5 (extra : BitVec 1) (s : State) : Host.Outcome State Fault Refusal := Run.outcome (runDist 5 extra.toNat s)

/-- `DIST 6` (R185). -/
def execDist6 (extra : BitVec 2) (s : State) : Host.Outcome State Fault Refusal := Run.outcome (runDist 6 extra.toNat s)

/-- `DIST 7` (R185). -/
def execDist7 (extra : BitVec 2) (s : State) : Host.Outcome State Fault Refusal := Run.outcome (runDist 7 extra.toNat s)

/-- `DIST 8` (R185). -/
def execDist8 (extra : BitVec 3) (s : State) : Host.Outcome State Fault Refusal := Run.outcome (runDist 8 extra.toNat s)

/-- `DIST 9` (R185). -/
def execDist9 (extra : BitVec 3) (s : State) : Host.Outcome State Fault Refusal := Run.outcome (runDist 9 extra.toNat s)

/-- `DIST 10` (R185). -/
def execDist10 (extra : BitVec 4) (s : State) : Host.Outcome State Fault Refusal := Run.outcome (runDist 10 extra.toNat s)

/-- `DIST 11` (R185). -/
def execDist11 (extra : BitVec 4) (s : State) : Host.Outcome State Fault Refusal := Run.outcome (runDist 11 extra.toNat s)

/-- `DIST 12` (R185). -/
def execDist12 (extra : BitVec 5) (s : State) : Host.Outcome State Fault Refusal := Run.outcome (runDist 12 extra.toNat s)

/-- `DIST 13` (R185). -/
def execDist13 (extra : BitVec 5) (s : State) : Host.Outcome State Fault Refusal := Run.outcome (runDist 13 extra.toNat s)

/-- `DIST 14` (R185). -/
def execDist14 (extra : BitVec 6) (s : State) : Host.Outcome State Fault Refusal := Run.outcome (runDist 14 extra.toNat s)

/-- `DIST 15` (R185). -/
def execDist15 (extra : BitVec 6) (s : State) : Host.Outcome State Fault Refusal := Run.outcome (runDist 15 extra.toNat s)

/-- `DIST 16` (R185). -/
def execDist16 (extra : BitVec 7) (s : State) : Host.Outcome State Fault Refusal := Run.outcome (runDist 16 extra.toNat s)

/-- `DIST 17` (R185). -/
def execDist17 (extra : BitVec 7) (s : State) : Host.Outcome State Fault Refusal := Run.outcome (runDist 17 extra.toNat s)

/-- `DIST 18` (R185). -/
def execDist18 (extra : BitVec 8) (s : State) : Host.Outcome State Fault Refusal := Run.outcome (runDist 18 extra.toNat s)

/-- `DIST 19` (R185). -/
def execDist19 (extra : BitVec 8) (s : State) : Host.Outcome State Fault Refusal := Run.outcome (runDist 19 extra.toNat s)

/-- `DIST 20` (R185). -/
def execDist20 (extra : BitVec 9) (s : State) : Host.Outcome State Fault Refusal := Run.outcome (runDist 20 extra.toNat s)

/-- `DIST 21` (R185). -/
def execDist21 (extra : BitVec 9) (s : State) : Host.Outcome State Fault Refusal := Run.outcome (runDist 21 extra.toNat s)

/-- `DIST 22` (R185). -/
def execDist22 (extra : BitVec 10) (s : State) : Host.Outcome State Fault Refusal := Run.outcome (runDist 22 extra.toNat s)

/-- `DIST 23` (R185). -/
def execDist23 (extra : BitVec 10) (s : State) : Host.Outcome State Fault Refusal := Run.outcome (runDist 23 extra.toNat s)

/-- `DIST 24` (R185). -/
def execDist24 (extra : BitVec 11) (s : State) : Host.Outcome State Fault Refusal := Run.outcome (runDist 24 extra.toNat s)

/-- `DIST 25` (R185). -/
def execDist25 (extra : BitVec 11) (s : State) : Host.Outcome State Fault Refusal := Run.outcome (runDist 25 extra.toNat s)

/-- `DIST 26` (R185). -/
def execDist26 (extra : BitVec 12) (s : State) : Host.Outcome State Fault Refusal := Run.outcome (runDist 26 extra.toNat s)

/-- `DIST 27` (R185). -/
def execDist27 (extra : BitVec 12) (s : State) : Host.Outcome State Fault Refusal := Run.outcome (runDist 27 extra.toNat s)

/-- `DIST 28` (R185). -/
def execDist28 (extra : BitVec 13) (s : State) : Host.Outcome State Fault Refusal := Run.outcome (runDist 28 extra.toNat s)

/-- `DIST 29` (R185). -/
def execDist29 (extra : BitVec 13) (s : State) : Host.Outcome State Fault Refusal := Run.outcome (runDist 29 extra.toNat s)

/-- `DIST 30`, invalid: it raises before any extra bit (R186). -/
def execDist30Invalid (s : State) : Host.Outcome State Fault Refusal := .next (raise .distanceSymbol s)

/-- `DIST 31`, invalid: it raises before any extra bit (R186). -/
def execDist31Invalid (s : State) : Host.Outcome State Fault Refusal := .next (raise .distanceSymbol s)

end Sys2Proof.Machine
end

