-- ==== Sys2Proof/Machine/Pseudo.lean ====
section
/-! DEFINITION. The meanings of the pseudo-instructions (R91): those of their expansions. -/

namespace Sys2Proof.Machine

/-- `MATCH <length>, <distance>` (R91): the LEN element, the decode of the distance code (R183), the DIST element. -/
def execMatchPair (length distance : Nat) (s : State) : Host.Outcome State Fault Refusal :=
  Run.outcome <|
  (runLen (lenSymbol length).1 (lenSymbol length).2 s).andThen fun _ s =>
  (huffDecode s.distTree s).andThen fun _ s =>
  runDist (distSymbol distance).1 (distSymbol distance).2 s

/-- `ZEROS <n>` (R91): a CL17 for at most 10 zeros, otherwise a CL18. -/
def execZeros (n : Nat) (s : State) : Host.Outcome State Fault Refusal :=
  if n ≤ 10 then Run.outcome (runZeros 3 n s) else Run.outcome (runZeros 7 n s)

/-- `REPEAT <n>` (R91): a CL16. -/
def execRepeatPrev (n : Nat) (s : State) : Host.Outcome State Fault Refusal := Run.outcome (runRepeatPrev n s)

/-- `PAD` (R91): the bits that a `read_byte` discards (R102). -/
def execPad (s : State) : Host.Outcome State Fault Refusal := .next (alignReader s)

end Sys2Proof.Machine
end

