-- ==== Sys2Proof/Machine/Rows.lean ====
section
/-! DEFINITION. The meanings of the scanlines (46_defilter.md). -/

namespace Sys2Proof.Machine

/-- `pred(0, a, b, c)`, None (R263). -/
def predNone (_a _b _c : Byte) : Byte := 0

/-- `pred(1, a, b, c)`, Sub (R264). -/
def predSub (a _b _c : Byte) : Byte := a

/-- `pred(2, a, b, c)`, Up (R265). -/
def predUp (_a b _c : Byte) : Byte := b

/-- `pred(3, a, b, c)`, Average, the sum in unbounded integers (R266). -/
def predAverage (a b _c : Byte) : Byte := BitVec.ofNat 8 ((a.toNat + b.toNat) / 2)

/-- `paeth(a, b, c)`, in signed arithmetic, ties to `a`, then `b`, then `c` (R267). -/
def predPaeth (a b c : Byte) : Byte :=
  let p : Int := (a.toNat : Int) + b.toNat - c.toNat
  let pa := (p - a.toNat).natAbs
  let pb := (p - b.toNat).natAbs
  let pc := (p - c.toNat).natAbs
  if pa ≤ pb ∧ pa ≤ pc then a
  else if pb ≤ pc then b
  else c

/-- The byte `bpp` positions before byte `i` of a row, 0 in the first pixel (R262). -/
def leftOf (bpp i : Nat) (bytes : List Byte) : Option Byte := if bpp ≤ i then bytes[i - bpp]? else some 0

/-- The loop of R261 over the filtered bytes, after the reconstructed bytes `cur`: the neighbours are those of R262, all
reconstructed, and the sum is modulo 256. -/
def reconstruct (pred : Byte → Byte → Byte → Byte) (bpp : Nat) (prev : List Byte) :
    List Byte → List Byte → Option (List Byte)
  | cur, [] => some cur
  | cur, x :: xs =>
      match leftOf bpp cur.length cur, prev[cur.length]?, leftOf bpp cur.length prev with
      | some a, some b, some c => reconstruct pred bpp prev (cur ++ [x + pred a b c]) xs
      | _, _, _ => none

/-- The end of a pass of the loop of R260: the row becomes the previous row; after the last row the job finishes (R296). -/
def nextRow (s : State) : State :=
  let t := { s with prev := s.cur, row := s.row + 1 }
  if s.h.toNat ≤ t.row then finishJob t else t

/-- `row()` for a filter type with predictor `pred` (R261): the row is reconstructed, and written to `PIX` (R271). -/
def runRow (pred : Byte → Byte → Byte → Byte) (x : List Byte) (s : State) : Run Unit :=
  if x.length < stride s then .stop .absentByte
  else
    match reconstruct pred s.bpp s.prev [] (x.take (stride s)) with
    | none => .stop .absentByte
    | some cur =>
        .ok () (nextRow { s with cur := cur, pix := Memory.writeAll s.pix (s.row * stride s) cur })

/-- `ROW 0`, None (R263). -/
def execRow0 (x : List Byte) (s : State) : Host.Outcome State Fault Refusal := Run.outcome (runRow predNone x s)

/-- `ROW 1`, Sub (R264). -/
def execRow1 (x : List Byte) (s : State) : Host.Outcome State Fault Refusal := Run.outcome (runRow predSub x s)

/-- `ROW 2`, Up (R265). -/
def execRow2 (x : List Byte) (s : State) : Host.Outcome State Fault Refusal := Run.outcome (runRow predUp x s)

/-- `ROW 3`, Average (R266). -/
def execRow3 (x : List Byte) (s : State) : Host.Outcome State Fault Refusal := Run.outcome (runRow predAverage x s)

/-- `ROW 4`, Paeth (R268). -/
def execRow4 (x : List Byte) (s : State) : Host.Outcome State Fault Refusal := Run.outcome (runRow predPaeth x s)

/-- `ROW <5..255>`, invalid: it raises before any byte of the row is written (R269). -/
def execRowInvalid (_ft : Byte) (s : State) : Host.Outcome State Fault Refusal := .next (raise .filterType s)

end Sys2Proof.Machine
end

