-- ==== Sys2Proof/Machine/Zlib.lean ====
section
/-! DEFINITION. The meanings of the zlib elements (44_zlib.md). -/

namespace Sys2Proof.Machine

/-- The four header checks in the source's order (R211 to R215, R219). -/
def zlibChecks (s : State) : Run Unit :=
  if s.cmf.extractLsb' 0 4 ≠ 8#4 then .raised .zlibCm s
  else if 7 < (s.cmf.extractLsb' 4 4).toNat then .raised .zlibCinfo s
  else if (s.cmf.toNat * 256 + s.flg.toNat) % 31 ≠ 0 then .raised .zlibFcheck s
  else if s.flg.getLsbD 5 then .raised .zlibFdict s
  else .ok () s

/-- `ZHDR` (R211): both bytes are read before any check; phase INFLATE follows (R216). -/
def execZhdr (cmf flg : Byte) (s : State) : Host.Outcome State Fault Refusal :=
  Run.outcome <|
  (readByte s).andThen fun _ s =>
  (readByte { s with cmf := cmf }).andThen fun _ s =>
  (zlibChecks { s with flg := flg }).andThen fun _ s =>
  .ok () { s with phase := .inflate, infPos := .blockHeader }

/-- `ZTRL` (R217): four bytes read and not verified; stage 3 follows (R290, R294). -/
def execZtrl (_adler : Word) (s : State) : Host.Outcome State Fault Refusal :=
  Run.outcome <|
  (readBytes 4 { s with phase := .zlibTrl }).andThen fun _ s =>
  enterDefilter s

end Sys2Proof.Machine
end

