-- ==== Sys2Proof/Machine/Fetch.lean ====
section
/-! DEFINITION. Fetching an element. The element to execute next is fixed by `PHASE` and the cursor of that phase (R34). The
fetch runs what the loop around the elements reads (the chunk header R232, the block header R151, a Huffman code R128),
decodes the element from the stream ahead, and raises what an illegal encoding raises (R89, R231, R233). -/

namespace Sys2Proof.Machine

/-- What a fetch answers. -/
inductive Fetched where
  /-- An element, and the state it runs in. -/
  | element (i : Instr) (s : State)
  /-- A cause of R311 raised before any element could be run. -/
  | raised (c : Cause) (s : State)
  /-- No job runs (R341). -/
  | idle
  /-- Something that does not exist was read. -/
  | stop (f : Fault)
  deriving DecidableEq, Repr

/-- `chunk_header()` (R232). -/
def chunkHeader (s : State) : Run Unit :=
  (rd32 s).andThen fun _ s =>
  (rd32 s).andThen fun _ s =>
  .ok () s

/-- `blk_header()` (R151). -/
def blkHeader (s : State) : Run Unit :=
  (readBit s).andThen fun f s =>
  (readBits 2 { s with bfinal := f }).andThen fun v s =>
  .ok () { s with btype := BitVec.ofNat 2 v }

/-- The answer after the loop's own reads have run: the element decoded from the stream they began at. -/
def fetchAfter (r : Run Unit) (d : Decoded) : Fetched :=
  match r with
  | .raised c s => .raised c s
  | .stop f => .stop f
  | .ok _ s =>
      match d with
      | .element i => .element i s
      | .illegal c => .raised c s
      | .truncated => .raised .outOfData s
      | .noNode => .stop .absentNode

/-- The signature (R231): its eight bytes are read before the comparison. SIG itself reads them again from `PCUR`. -/
def fetchSignature (s : State) : Fetched :=
  match rdn 8 s, decode s.cfg.missingBranch .signature (inBitsAhead s) with
  | .ok _ _, .element i => .element i s
  | .ok _ t, .illegal c => .raised c t
  | .ok _ t, _ => .raised .outOfData t
  | .raised c t, _ => .raised c t
  | .stop f, _ => .stop f

/-- A chunk: its header is read, then the element runs from its payload on (R233, R243). -/
def fetchChunk (e : Expect) (s : State) : Fetched :=
  fetchAfter (chunkHeader s) (decode s.cfg.missingBranch e (inBitsAhead s))

/-- A Huffman-coded element: its code is read, then the element runs from its extra bits on (R159, R180, R183). -/
def fetchCoded (t : Tree) (e : Expect) (s : State) : Fetched :=
  fetchAfter ((huffDecode t s).andThen fun _ s => .ok () s) (decode s.cfg.missingBranch e (bitsAhead s))

/-- A scanline (R261). `OUT` holds it, by the check of R260. -/
def fetchRow (s : State) : Fetched :=
  match decode s.cfg.missingBranch (.row (stride s)) (rowBits s) with
  | .element i => .element i s
  | _ => .stop .absentByte

/-- The element at the stream position (R34). -/
def fetch (s : State) : Fetched :=
  match s.phase with
  | .idle | .done | .error => .idle
  | .png =>
      match s.pngPos with
      | .signature => fetchSignature s
      | .firstChunk => fetchChunk .firstChunk s
      | .chunkLoop => fetchChunk .chunk s
  | .zlibHdr => fetchAfter (.ok () s) (decode s.cfg.missingBranch .zlibHeader (alignedBitsAhead s))
  | .inflate =>
      match s.infPos with
      | .blockHeader => fetchAfter (blkHeader s) (decode s.cfg.missingBranch .blockHeader (bitsAhead s))
      | .storedBlock => fetchAfter (.ok () s) (decode s.cfg.missingBranch .storedBlock (alignedBitsAhead s))
      | .dynHeader => fetchAfter (.ok () s) (decode s.cfg.missingBranch .dynHeader (bitsAhead s))
      | .codeLengths => fetchCoded s.clTree (.codeLength s.clTree) s
      | .symbols => fetchCoded s.litTree (.symbol s.litTree) s
      | .distance => fetchCoded s.distTree (.distance s.distTree) s
  | .zlibTrl => fetchAfter (.ok () s) (decode s.cfg.missingBranch .trailer (alignedBitsAhead s))
  | .defilter => fetchRow s

/-- The state with a table word stored where the next fetch reads it (assumption 11): the space, the cursor and the phase
that the word's format takes, and for a row an image of one RGB pixel and one row. -/
def placeWord (s : State) (nbits word : Nat) : State :=
  let r := tableStream nbits word
  let m := Memory.appendAll [] r.2
  let t := { s with host := [] }
  match r.1 with
  | .signature => { t with phase := .png, pngPos := .signature, pcur := 0, lenIn := r.2.length, inSpace := m }
  | .firstChunk => { t with phase := .png, pngPos := .firstChunk, pcur := 0, lenIn := r.2.length, inSpace := m }
  | .chunk => { t with phase := .png, pngPos := .chunkLoop, pcur := 0, lenIn := r.2.length, inSpace := m }
  | .zlibHeader => { t with phase := .zlibHdr, zbuf := m, br := { pos := 0, acc := 0, cnt := 0 } }
  | _ => { t with phase := .defilter, out := m, row := 0, w := 1, h := 1, bpp := 3, prev := [0, 0, 0] }

end Sys2Proof.Machine
end

