-- ==== Sys2Proof/Machine/HostPort.lean ====
section
/-! DEFINITION. The host's side of the interface (R21 to R28, R297, R342). -/

namespace Sys2Proof.Machine

/-- A host read of an interface register (R21): `CTRL` and every index above 8 read 0. -/
def hostReadReg (s : State) (index : Nat) : Nat :=
  match index with
  | 1 => s.status.toNat
  | 2 => s.cause.toNat
  | 3 => s.inLen
  | 4 => s.imgWidth.toNat
  | 5 => s.imgHeight.toNat
  | 6 => s.imgBpp.toNat
  | 7 => s.imgStride
  | 8 => s.pixLen
  | _ => 0

/-- A host write of an interface register (R21, R22): `CTRL.START` starts a job unless one runs, `IN_LEN` is written unless
a job runs, every other write is ignored. -/
def hostWriteReg (s : State) (index value : Nat) : State :=
  match index with
  | 0 => if value.testBit 0 && !isBusy s then startJob s else s
  | 3 => if isBusy s then s else { s with inLen := value % 2 ^ s.cfg.addrBits }
  | _ => s

/-- Load input (R297): bytes of `IN` from an offset on, while no job runs. -/
def hostLoad (s : State) (offset : Nat) (bytes : List Byte) : Host.Outcome State Fault Refusal :=
  if isBusy s then .refused .inputWrittenDuringJob
  else if 2 ^ s.cfg.addrBits < offset + bytes.length then .fault .addressOutsideIn
  else .next { s with inSpace := Memory.writeAll s.inSpace offset bytes }

/-- A host read of `PIX` (R297), which has a value only after DONE (R316, R346). -/
def hostReadPix (s : State) (offset : Nat) : Host.Outcome State Fault Refusal :=
  if !isDone s then .refused .pixReadWithoutImage
  else if s.pixLen ≤ offset then .fault .addressOutsidePix
  else
    match Memory.read s.pix offset with
    | none => .fault .absentByte
    | some v => .next { s with hostRead := v.toNat }

/-- Power-on reset (R340, R342): the parameters stay, what the host will do stays (assumption 17), and `IN` holds nothing but
unspecified bytes, drawn anew (assumption 5). -/
def powerOn (s : State) : State := { State.reset with cfg := s.cfg, host := s.host, inDraw := s.inDraw + 1 }

end Sys2Proof.Machine
end

