-- ==== Sys2Proof/Machine/Engine.lean ====
section
/-! DEFINITION. One step of the engine and one step of the machine: the next move of the host, or the engine's next
element (R20, R297). -/

namespace Sys2Proof.Machine

/-- One step of the engine: fetch an element and run it; with no job running, nothing (R341). -/
def engineStep (s : State) : Host.Outcome State Fault Refusal :=
  match fetch s with
  | .element i t => exec i t
  | .raised c t => .next (raise c t)
  | .idle => .next s
  | .stop f => .fault f

/-- One step: the host's next move, or the engine's when the host has none or waits (assumption 7). -/
def agentStep (s : State) : Host.Outcome State Fault Refusal :=
  match s.host with
  | [] => engineStep s
  | m :: rest =>
      let t := { s with host := rest }
      match m with
      | .load offset bytes => hostLoad t offset bytes
      | .writeReg index value => .next (hostWriteReg t index value)
      | .readReg index => .next { t with hostRead := hostReadReg t index }
      | .readPix offset => hostReadPix t offset
      | .tick => engineStep t
      | .wait => if isBusy s then engineStep s else .next t
      | .powerOn => .next (powerOn t)

end Sys2Proof.Machine
end

