-- ==== Sys2Proof/Safety.lean ====
section
/-! DEFINITION. What claims are stated in: the canonical form of the spaces, the invariants of a state, the decode of R128
one `read_bit` at a time, and how much of a job is left. -/

namespace Sys2Proof.Machine

/-- Every space is in its canonical form. -/
def State.memoryWf (s : State) : Bool :=
  Memory.wf s.inSpace && Memory.wf s.zbuf && Memory.wf s.out && Memory.wf s.pix

/-- The phases of a running job (R30). -/
def isRunning : Phase → Bool
  | .png | .zlibHdr | .inflate | .zlibTrl | .defilter => true
  | .idle | .done | .error => false

/-- The result registers read 0 (R26 to R28). -/
def noResult (s : State) : Prop :=
  s.imgWidth = 0 ∧ s.imgHeight = 0 ∧ s.imgBpp = 0 ∧ s.imgStride = 0 ∧ s.pixLen = 0

/-- The interface registers agree with the phase (R23, R24, R26 to R28, R296, R315): before a job, while one runs, after a
result, after a fault. -/
def InterfaceInv (s : State) : Prop :=
  match s.phase with
  | .idle => s.status = 0 ∧ s.cause = 0 ∧ noResult s
  | .png | .zlibHdr | .inflate | .zlibTrl | .defilter => s.status = statusBusy ∧ s.cause = 0 ∧ noResult s
  | .done =>
      s.status = statusDone ∧ s.cause = 0 ∧ s.imgWidth = s.w ∧ s.imgHeight = s.h ∧
      s.imgBpp = BitVec.ofNat 32 s.bpp ∧ s.imgStride = stride s ∧ s.pixLen = stride s * s.h.toNat
  | .error =>
      s.status = statusErr ∧ noResult s ∧
      ∃ c : Cause, c ≠ .ioSource ∧ s.cause = causeWord c ∧ s.faultCode = causeCode c

/-- The sizes and offsets fit `P_ADDR_BITS` bits (R21, R56, R293): the latched and the written input length, and from phase
ZLIB_HDR on the bytes the defilter needs. -/
def SizesFit (s : State) : Prop :=
  s.inLen < 2 ^ s.cfg.addrBits ∧ s.lenIn < 2 ^ s.cfg.addrBits ∧
  match s.phase with
  | .zlibHdr | .inflate | .zlibTrl | .defilter | .done => need s < 2 ^ s.cfg.addrBits
  | .idle | .png | .error => True

/-- The BitReader's registers (R33): fewer than 8 pending bits between operations, no bit at or above `BR_CNT`, the pending
bits loaded from `ZBUF`. -/
def ReaderOk (s : State) : Prop :=
  s.br.cnt ≤ 7 ∧ s.br.cnt ≤ 8 * s.br.pos ∧ s.br.acc.toNat < 2 ^ s.br.cnt ∧ s.br.pos ≤ Memory.len s.zbuf

/-- The bits of `ZBUF` can be read: every byte below its length is there, and the reader's registers are in order. -/
def StreamOk (s : State) : Prop := Memory.dense s.zbuf = true ∧ ReaderOk s

/-- `t` is `s` with the next `n` bits of `ZBUF` consumed and nothing else changed (R100, R101, R106). -/
structure BitsRead (n : Nat) (s t : State) : Prop where
  only : t = { s with br := t.br }
  ahead : bitsAhead t = (bitsAhead s).drop n
  bitpos : bitpos t = bitpos s + n
  reader : ReaderOk t

/-- `s` with `n` aligned bytes of `ZBUF` consumed, the pending bits discarded (R102, R103). -/
def afterBytes (n : Nat) (s : State) : State := { s with br := { pos := s.br.pos + n, acc := 0, cnt := 0 } }

/-- The bytes `vs` appended, read through the byte read: `m` reads as `m₀` below its length, then as `vs`, and holds nothing
beyond (R12, R53). -/
def Appended (m₀ m : Memory) (vs : List Byte) : Prop :=
  Memory.len m = Memory.len m₀ + vs.length ∧
  ∀ a, Memory.read m a = if a < Memory.len m₀ then Memory.read m₀ a else vs[a - Memory.len m₀]?

/-- The predictor and the filtered bytes of a ROW element with a valid filter type (R263 to R268). -/
def rowParts : Instr → Option ((Byte → Byte → Byte → Byte) × List Byte)
  | .row0 x => some (predNone, x)
  | .row1 x => some (predSub, x)
  | .row2 x => some (predUp, x)
  | .row3 x => some (predAverage, x)
  | .row4 x => some (predPaeth, x)
  | _ => none

/-- The neighbours of byte `i` of a row (R262). -/
def neighbours (s : State) (cur : List Byte) (i : Nat) : Byte × Byte × Byte :=
  (if s.bpp ≤ i then cur.getD (i - s.bpp) 0 else 0, s.prev.getD i 0, if s.bpp ≤ i then s.prev.getD (i - s.bpp) 0 else 0)

/-- A child field is 0 or links a later node (R124, R125). -/
def linkOk (size k c : Nat) : Bool := c == 0 || (k < c && c < size)

/-- An arena as `build` makes them (R125): links lead to later nodes, and a tree with a code has a root with a child. -/
def arenaOk (t : Tree) : Bool :=
  (List.range t.nodes.length).all (fun k =>
    linkOk t.nodes.length k (t.nodes.getD k emptyNode).left && linkOk t.nodes.length k (t.nodes.getD k emptyNode).right) &&
  (t.ncodes == 0 || (t.nodes.length != 0 && !isLeaf (t.nodes.getD 0 emptyNode)))

/-- The IHDR has been read and accepted. -/
def headerAccepted (s : State) : Bool :=
  match s.phase with
  | .png => s.pngPos == .chunkLoop
  | .zlibHdr | .inflate | .zlibTrl | .defilter => true
  | .idle | .done | .error => false

/-- How much of `PIX` has been written (R54, R271, R296): nothing before the defilter, the rows done in it, all of the image
after a result. -/
def pixelsWritten (s : State) : Prop :=
  match s.phase with
  | .png | .zlibHdr | .inflate | .zlibTrl => s.pix = []
  | .defilter => Memory.len s.pix = s.row * stride s
  | .done => Memory.len s.pix = s.pixLen
  | .idle | .error => True

/-- What holds of a running engine. -/
structure EngineInv (s : State) : Prop where
  zbufDense : Memory.dense s.zbuf = true
  outDense : Memory.dense s.out = true
  reader : ReaderOk s
  pcurInside : s.pcur ≤ s.lenIn
  litArena : arenaOk s.litTree = true
  distArena : arenaOk s.distTree = true
  clArena : arenaOk s.clTree = true
  image : headerAccepted s = true → (s.bpp = 3 ∨ s.bpp = 4) ∧ 0 < s.w.toNat ∧ 0 < s.h.toNat
  rows : s.phase = .defilter → s.row < s.h.toNat ∧ s.prev.length = stride s ∧ need s ≤ Memory.len s.out
  pixels : Memory.dense s.pix = true ∧ pixelsWritten s

/-- The node a path leads to from node `k`, over nodes that are no leaves and links that are present (R128). -/
def follow (t : Tree) (k : Nat) : List Bool → Option Nat
  | [] => some k
  | b :: bs =>
      match t.nodes[k]? with
      | none => none
      | some n => if isLeaf n || childOf n b == 0 then none else follow t (childOf n b) bs

/-- The child links of an arena, the absent ones left out (R125). -/
def childLinks (nodes : List Node) : List Nat := nodes.flatMap fun n => [n.left, n.right].filter (· ≠ 0)

/-- The code space a list of lengths up to `MAXBITS` takes, in units of `2^-MAXBITS` (R126, R131). -/
def codeSpace (lens : List Nat) : Nat := (lens.map fun L => if L = 0 then 0 else 2 ^ (maxBits - L)).sum

/-- The output buffer has room for `n` more bytes, said of the parameter (R9, R53). -/
def roomFor (s : State) (n : Nat) : Prop := ∀ cap, s.cfg.outCap = some cap → Memory.len s.out + n ≤ cap

/-- The phases in their order (R30), and the start of the next job (R291). -/
def phaseMoves : List (Phase × Phase) :=
  [(.idle, .png), (.png, .zlibHdr), (.zlibHdr, .inflate), (.inflate, .zlibTrl), (.zlibTrl, .defilter), (.defilter, .done),
   (.done, .png), (.error, .png)]

/-- The loop of R128, one `read_bit` at a time, with fuel for its passes. -/
def decodeLoop (t : Tree) : Nat → Nat → State → Run Nat
  | 0, _, _ => .stop .absentNode
  | fuel + 1, k, s =>
      match t.nodes[k]? with
      | none => .stop .absentNode
      | some n =>
          if isLeaf n then .ok n.symbol.toNat s
          else
            (readBit s).andThen fun b s =>
            if childOf n b = 0 then
              match s.cfg.missingBranch with
              | .fault => .raised .missingBranch s
              | .restartRoot => decodeLoop t fuel 0 s
            else decodeLoop t fuel (childOf n b) s

/-- `decode(T)` as R128 writes it; a pass more than there are bits ahead is fuel enough. -/
def decodeByBits (t : Tree) (s : State) : Run Nat :=
  if t.ncodes = 0 then .raised .emptyTree s else decodeLoop t ((bitsAhead s).length + 1) 0 s

/-- How many stages of a job are still to come (R290). -/
def stagesLeft : Phase → Nat
  | .png => 5
  | .zlibHdr => 4
  | .inflate => 3
  | .zlibTrl => 2
  | .defilter => 1
  | .idle | .done | .error => 0

/-- What is left to consume in a stage: input bytes, stream bits, rows (R299). -/
def stageWork (s : State) : Nat :=
  match s.phase with
  | .png => s.lenIn - s.pcur
  | .inflate => (bitsAhead s).length
  | .defilter => s.h.toNat - s.row
  | .zlibHdr | .zlibTrl | .idle | .done | .error => 0

end Sys2Proof.Machine
end

