-- ==== Sys2Proof/Certificates/Slice0/Obligations.lean ====
section
/-! DEFINITION. The statements for the provers: the host's interface, faults, the BitReader, the Huffman trees, encoding and
decoding, each element's effect, and the machine as a whole. -/

section

open Sys2Proof Sys2Proof.Machine

/-! ### Reset, the host and the interface registers -/

/-- R340, R342: the values the spec gives for power-on reset (registers R340 gives no value for are not named here), and
power-on reset in any state. That the parameters and the host's moves stay is the model's own choice (assumption 17), and so
is the counter that draws the unspecified bytes of `IN` anew (assumption 5), and the canonical form of the spaces
(assumption 6). -/
def Obligations.ResetState : Prop :=
  (∀ (s : State) (rest : List HostMove), s.host = .powerOn :: rest →
    step s = .next { State.reset with cfg := s.cfg, host := rest, inDraw := s.inDraw + 1 }) ∧
  State.reset.phase = .idle ∧ State.reset.status = 0 ∧ State.reset.cause = 0 ∧ State.reset.inLen = 0 ∧
  State.reset.imgWidth = 0 ∧ State.reset.imgHeight = 0 ∧ State.reset.imgBpp = 0 ∧ State.reset.imgStride = 0 ∧
  State.reset.pixLen = 0 ∧ State.reset.zbuf = [] ∧ State.reset.out = [] ∧ State.reset.pix = [] ∧
  (∀ k, hostReadReg State.reset k = 0) ∧
  State.reset.memoryWf = true ∧ InterfaceInv State.reset ∧ SizesFit State.reset

/-- R21: a host read of each register, and a host write of every register but `CTRL`. That a write of `IN_LEN` keeps the low
bits of a wider value is the model's own choice (assumption 13). -/
def Obligations.RegisterFile : Prop :=
  (∀ (s : State) (rest : List HostMove) (k : Nat), s.host = .readReg k :: rest →
    step s = .next { s with
      host := rest,
      hostRead :=
        if k = 1 then s.status.toNat else if k = 2 then s.cause.toNat else if k = 3 then s.inLen
        else if k = 4 then s.imgWidth.toNat else if k = 5 then s.imgHeight.toNat else if k = 6 then s.imgBpp.toNat
        else if k = 7 then s.imgStride else if k = 8 then s.pixLen else 0 }) ∧
  (∀ (s : State) (rest : List HostMove) (k v : Nat), s.host = .writeReg k v :: rest → k ≠ 0 →
    step s = .next (if k = 3 ∧ isBusy s = false then { s with host := rest, inLen := v % 2 ^ s.cfg.addrBits }
      else { s with host := rest }))

/-- R22: `CTRL`. -/
def Obligations.ControlRegister : Prop :=
  (∀ (s : State) (rest : List HostMove) (v : Nat), s.host = .writeReg 0 v :: rest →
    (isBusy s = false → v.testBit 0 = true → step s = .next (startJob { s with host := rest })) ∧
    (isBusy s = true → step s = .next { s with host := rest }) ∧
    (v.testBit 0 = false → step s = .next { s with host := rest })) ∧
  (∀ (s : State) (rest : List HostMove), s.host = .readReg 0 :: rest →
    step s = .next { s with host := rest, hostRead := 0 })

/-- R291, with the job-start values of R45; starting is the only way into a job. -/
def Obligations.JobStart : Prop :=
  (∀ s t : State, isRunning s.phase = false → step s = .next t → isRunning t.phase = true →
    ∃ rest v, s.host = .writeReg 0 v :: rest ∧ v.testBit 0 = true ∧ isBusy s = false) ∧
  ∀ (s : State) (rest : List HostMove) (v : Nat), s.host = .writeReg 0 v :: rest → v.testBit 0 = true →
    isBusy s = false →
    ∃ t, step s = .next t ∧ t.lenIn = s.inLen ∧ t.status = 1 ∧ t.cause = 0 ∧
      t.imgWidth = 0 ∧ t.imgHeight = 0 ∧ t.imgBpp = 0 ∧ t.imgStride = 0 ∧ t.pixLen = 0 ∧
      t.pcur = 0 ∧ t.w = 0 ∧ t.h = 0 ∧ t.depth = 0 ∧ t.ctype = 0 ∧ t.cmeth = 0 ∧ t.fmeth = 0 ∧ t.imeth = 0 ∧
      t.bpp = 0 ∧ t.br.pos = 0 ∧ t.br.acc = 0 ∧ t.br.cnt = 0 ∧ t.cmf = 0 ∧ t.flg = 0 ∧
      t.bfinal = false ∧ t.btype = 0 ∧ t.slen = 0 ∧ t.snlen = 0 ∧ t.hlit = 0 ∧ t.hdist = 0 ∧ t.hclen = 0 ∧
      t.clLens.length = 19 ∧ (∀ L ∈ t.clLens, L = 0) ∧ t.lens = [] ∧
      t.litTree.nodes = [] ∧ t.distTree.nodes = [] ∧ t.clTree.nodes = [] ∧
      t.zbuf = [] ∧ t.out = [] ∧ t.pix = [] ∧ t.row = 0 ∧ (∀ b ∈ t.prev, b = 0) ∧ t.faultCode = 0 ∧
      t.phase = .png ∧ t.inSpace = s.inSpace ∧ t.inDraw = s.inDraw ∧ t.inLen = s.inLen ∧ t.cfg = s.cfg ∧
      t.host = rest

/-- R298, R343: what a job does depends on nothing an earlier job left. -/
def Obligations.NextJobForgets : Prop :=
  ∀ (s₁ s₂ : State) (rest : List HostMove) (v n : Nat),
    s₁.host = .writeReg 0 v :: rest → s₂.host = .writeReg 0 v :: rest → v.testBit 0 = true →
    isBusy s₁ = false → isBusy s₂ = false → s₁.cfg = s₂.cfg → s₁.hostRead = s₂.hostRead →
    s₁.inLen = s₂.inLen → s₁.inSpace = s₂.inSpace → s₁.inDraw = s₂.inDraw →
    core.run (n + 1) s₁ = core.run (n + 1) s₂

/-- R297: loading input, collecting pixels, waiting. A load during a job, a load past the end of the address space, and a
read of `PIX` with no image are moves the spec does not give the host; that they stop the machine is the model's own choice
(assumption 14), and so is the queue of moves (assumption 7). -/
def Obligations.HostMoves : Prop :=
  (∀ (s : State) (rest : List HostMove) (offset : Nat) (bytes : List Byte), s.host = .load offset bytes :: rest →
    (isBusy s = true → step s = .refused .inputWrittenDuringJob) ∧
    (isBusy s = false → 2 ^ s.cfg.addrBits < offset + bytes.length → step s = .fault .addressOutsideIn) ∧
    (isBusy s = false → offset + bytes.length ≤ 2 ^ s.cfg.addrBits → Memory.wf s.inSpace = true →
      ∃ m, step s = .next { s with host := rest, inSpace := m } ∧
        (∀ a, Memory.read m a =
          if offset ≤ a ∧ a < offset + bytes.length then bytes[a - offset]? else Memory.read s.inSpace a) ∧
        ∀ a, some (inByte { s with host := rest, inSpace := m } a) =
          if offset ≤ a ∧ a < offset + bytes.length then bytes[a - offset]? else some (inByte s a))) ∧
  (∀ (s : State) (rest : List HostMove) (offset : Nat), s.host = .readPix offset :: rest →
    (isDone s = false → step s = .refused .pixReadWithoutImage) ∧
    (isDone s = true → s.pixLen ≤ offset → step s = .fault .addressOutsidePix) ∧
    (isDone s = true → offset < s.pixLen → ∀ v, Memory.read s.pix offset = some v →
      step s = .next { s with host := rest, hostRead := v.toNat })) ∧
  (∀ (s : State) (rest : List HostMove), s.host = .wait :: rest →
    (isBusy s = true → step s = engineStep s) ∧ (isBusy s = false → step s = .next { s with host := rest })) ∧
  (∀ (s : State) (rest : List HostMove), s.host = .tick :: rest → step s = engineStep { s with host := rest })

/-- R341, R317: with no job running the engine does nothing; a faulted job stays in phase ERROR until the host starts a job or
resets the block. That the engine registers, FAULT among them, keep their values after the end of a job, in DONE and in
ERROR, is the model's own choice (assumption 20): R299 says nothing of them. -/
def Obligations.NoJobNoEffect : Prop :=
  (∀ s : State, s.host = [] → isRunning s.phase = false → step s = .next s) ∧
  (∀ s t : State, s.phase = .error → InterfaceInv s → step s = .next t →
    s.host.head? ≠ some .powerOn → (∀ v, s.host.head? = some (.writeReg 0 v) → v.testBit 0 = false) →
    t.phase = .error ∧ t.status = 4 ∧ t.cause = s.cause ∧ t.faultCode = s.faultCode ∧ noResult t)

/-! ### Faults -/

/-- R311: the cause codes, one for each cause, and the fields of `CAUSE` (R24). -/
def Obligations.CauseCodes : Prop :=
  (∀ p ∈ [(Cause.pngSignature, 0x11), (.firstNotIhdr, 0x12), (.ihdrLength, 0x13), (.zeroDimension, 0x14),
      (.zlibFcheck, 0x15), (.zlibCinfo, 0x16), (.bitDepth, 0x21), (.colorType, 0x22), (.pngCompression, 0x23),
      (.pngFilterMethod, 0x24), (.pngInterlace, 0x25), (.zlibCm, 0x26), (.zlibFdict, 0x27), (.outOfData, 0x31),
      (.btypeReserved, 0x32), (.filterType, 0x33), (.distanceTooFar, 0x34), (.emptyTree, 0x35), (.missingBranch, 0x36),
      (.repeatNoPrevious, 0x37), (.repeatOverrun, 0x38), (.lengthSymbol, 0x39), (.distanceSymbol, 0x3A),
      (.shortImageData, 0x3B), (.ioSource, 0x41), (.outputCapacity, 0x51), (.sizeOverflow, 0x52)],
    (causeCode p.1).toNat = p.2 ∧ (causeWord p.1).toNat = p.2 ∧
    causeKind (causeWord p.1) = p.2 / 16 ∧ causeSub (causeWord p.1) = p.2 % 16) ∧
  (∀ c d : Cause, causeCode c = causeCode d → c = d)

/-- R315: fault entry, and no rule of the job after it. That what it does not write keeps its value after the end too is the
model's own (assumption 20). -/
def Obligations.FaultEntry : Prop :=
  ∀ (c : Cause) (s : State),
    raise c s = { s with
      faultCode := causeCode c, cause := (causeCode c).setWidth 32,
      imgWidth := 0, imgHeight := 0, imgBpp := 0, imgStride := 0, pixLen := 0, phase := .error, status := 4 } ∧
    (s.host = [] → step (raise c s) = .next (raise c s))

/-- R155, R184, R186, R269: the invalid elements take the fault entry at once, in every state; nothing else changes but the
block registers of a reserved block, which R151 writes. -/
def Obligations.InvalidElements : Prop :=
  ∀ s : State,
    (∀ f, exec (.blkReserved f) s = .next (raise .btypeReserved { s with bfinal := f, btype := 3 })) ∧
    exec .len286Invalid s = .next (raise .lengthSymbol s) ∧
    exec .len287Invalid s = .next (raise .lengthSymbol s) ∧
    exec .dist30Invalid s = .next (raise .distanceSymbol s) ∧
    exec .dist31Invalid s = .next (raise .distanceSymbol s) ∧
    (∀ ft, exec (.rowInvalid ft) s = .next (raise .filterType s))

/-! ### The BitReader -/

/-- R100: `read_bit`, its three cases and its example. -/
def Obligations.ReadBit : Prop :=
  (∀ s : State, s.br.cnt = 0 → Memory.len s.zbuf ≤ s.br.pos → readBit s = .raised .outOfData s) ∧
  (∀ (s : State) (b : Byte), s.br.cnt = 0 → s.br.pos < Memory.len s.zbuf → Memory.read s.zbuf s.br.pos = some b →
    readBit s = .ok (b.getLsbD 0) { s with br := { pos := s.br.pos + 1, acc := b >>> 1, cnt := 7 } }) ∧
  (∀ s : State, 0 < s.br.cnt →
    readBit s = .ok (s.br.acc.getLsbD 0) { s with br := { pos := s.br.pos, acc := s.br.acc >>> 1, cnt := s.br.cnt - 1 } }) ∧
  (∀ s : State, s.zbuf = [(0, 0xB5)] → s.br = { pos := 0, acc := 0, cnt := 0 } →
    readBit s = .ok true { s with br := { pos := 1, acc := 0x5A, cnt := 7 } })

/-- R101, R71: a field of `n` bits has stream bit `k` as its bit `k`, consumes exactly `n` bits, and raises when they are
not all there. -/
def Obligations.ReadBits : Prop :=
  ∀ (s : State) (n : Nat), StreamOk s →
    (n ≤ (bitsAhead s).length →
      ∃ t v, readBits n s = .ok v t ∧ BitsRead n s t ∧ v < 2 ^ n ∧ ∀ k < n, (bitsAhead s)[k]? = some (v.testBit k)) ∧
    ((bitsAhead s).length < n → ∃ t, readBits n s = .raised .outOfData t ∧ BitsRead (bitsAhead s).length s t)

/-- R102, R103: `read_bytes` of at least one byte starts at the next byte boundary, assembles little-endian, and raises when
the bytes are not all there; one byte is `read_byte`. -/
def Obligations.AlignedReads : Prop :=
  ∀ (s : State) (bytes : List Byte) (n : Nat), Memory.dense s.zbuf = true → 0 < n →
    (bytes.length = n → (∀ k < n, Memory.read s.zbuf (s.br.pos + k) = bytes[k]?) →
      ∃ v, readBytes n s = .ok v (afterBytes n s) ∧ v < 256 ^ n ∧ ∀ k < n, bytes[k]? = some (BitVec.ofNat 8 (v / 256 ^ k))) ∧
    (Memory.len s.zbuf < s.br.pos + n → ∃ t, readBytes n s = .raised .outOfData t ∧ t = { s with br := t.br }) ∧
    (∀ b, bytes = [b] → Memory.read s.zbuf s.br.pos = some b → readByte s = .ok b (afterBytes 1 s)) ∧
    (Memory.len s.zbuf ≤ s.br.pos →
      readByte s = .raised .outOfData { s with br := { pos := s.br.pos, acc := 0, cnt := 0 } })

/-- R106: how each operation moves the bit position. -/
def Obligations.BitPosition : Prop :=
  ∀ s : State, ReaderOk s →
    (∀ b t, readBit s = .ok b t → bitpos t = bitpos s + 1) ∧
    (∀ b t, readByte s = .ok b t → bitpos t = 8 * ((bitpos s + 7) / 8 + 1)) ∧
    (∀ n v t, readBits n s = .ok v t → bitpos s ≤ bitpos t) ∧
    (∀ n v t, readBytes n s = .ok v t → bitpos s ≤ bitpos t) ∧
    (∀ n c t, readBits n s = .raised c t → bitpos s ≤ bitpos t) ∧
    (∀ n c t, readBytes n s = .raised c t → bitpos s ≤ bitpos t)

/-- R43: the pending bits that a byte read discards are never seen. -/
def Obligations.PaddingUnseen : Prop :=
  ∀ (s : State) (acc : Byte) (cnt : Nat), s.host = [] →
    (s.phase = .zlibHdr ∨ s.phase = .zlibTrl ∨ (s.phase = .inflate ∧ s.infPos = .storedBlock)) →
    step { s with br := { pos := s.br.pos, acc := acc, cnt := cnt } } = step s

/-! ### Huffman trees -/

/-- R134: the worked example, its counts, first codes, codes and arena. -/
def Obligations.WorkedExample : Prop :=
  lengthCount [2, 1, 3, 3] 1 = 1 ∧ lengthCount [2, 1, 3, 3] 2 = 1 ∧ lengthCount [2, 1, 3, 3] 3 = 2 ∧
  firstCode [2, 1, 3, 3] 1 = 0 ∧ firstCode [2, 1, 3, 3] 2 = 2 ∧ firstCode [2, 1, 3, 3] 3 = 6 ∧
  assignCodes (nextCodes [2, 1, 3, 3]) [2, 1, 3, 3] = [some 0b10, some 0b0, some 0b110, some 0b111] ∧
  build [2, 1, 3, 3] =
    { nodes :=
        [{ symbol := 0, left := 3, right := 1 }, { symbol := 0, left := 2, right := 4 },
         { symbol := 0, left := 0, right := 0 }, { symbol := 1, left := 0, right := 0 },
         { symbol := 0, left := 5, right := 6 }, { symbol := 2, left := 0, right := 0 },
         { symbol := 3, left := 0, right := 0 }],
      ncodes := 4 } ∧
  ∀ mb rest, walk (build [2, 1, 3, 3]) mb (true :: true :: false :: rest) = .found 2 3

/-- R121, R122, R123: the histogram, the first codes, and the code of each symbol of nonzero length. -/
def Obligations.CanonicalAssignment : Prop :=
  ∀ lens : List Nat,
    lengthCount lens 0 = 0 ∧ (∀ L, 0 < L → lengthCount lens L = lens.count L) ∧
    firstCode lens 1 = 0 ∧
    (∀ L, 0 < L → firstCode lens (L + 1) = 2 * (firstCode lens L + lengthCount lens L)) ∧
    (∀ sym L : Nat, lens[sym]? = some L → 0 < L → L ≤ maxBits →
      (assignCodes (nextCodes lens) lens)[sym]? = some (some (firstCode lens L + (lens.take sym).count L))) ∧
    (∀ sym : Nat, lens[sym]? = some 0 → (assignCodes (nextCodes lens) lens)[sym]? = some none)

/-- R125, R124: in every arena that `build` makes, index 0 is a node, every child link leads to a node, every node but the
root is the child of exactly one node, and the root of none; `ncodes` counts the symbols of nonzero length. -/
def Obligations.ArenaInvariants : Prop :=
  ∀ lens : List Nat,
    0 < (build lens).nodes.length ∧
    (childLinks (build lens).nodes).Perm (List.range' 1 ((build lens).nodes.length - 1)) ∧
    (∀ n, n ∈ (build lens).nodes → (isLeaf n = true ↔ n.left = 0 ∧ n.right = 0)) ∧
    (build lens).ncodes = (lens.filter (· ≠ 0)).length ∧
    arenaOk (build lens) = true

/-- R128: the decode over the bits ahead is the loop of R128, which reads a bit at a time. -/
def Obligations.DecodeIsTheLoop : Prop :=
  ∀ (t : Tree) (s : State), StreamOk s → huffDecode t s = decodeByBits t s

/-- R120 to R128: where the lengths do not over-fill the code space, every symbol of nonzero length is decoded from its
canonical code, most significant bit first, whatever follows. -/
def Obligations.CanonicalCodesDecode : Prop :=
  ∀ (lens : List Nat) (sym L c : Nat) (mb : MissingBranch) (rest : List Bool),
    lens.length ≤ 2 ^ 16 → (∀ l ∈ lens, l ≤ maxBits) → codeSpace lens ≤ 2 ^ maxBits →
    lens[sym]? = some L → (assignCodes (nextCodes lens) lens)[sym]? = some (some c) →
    walk (build lens) mb (codeBits L c ++ rest) = .found sym L

/-- R86, R87: the fixed codes, and the two absent patterns of the fixed distance tree. -/
def Obligations.FixedCodes : Prop :=
  (∀ (sym : Nat) (mb : MissingBranch) (rest : List Bool),
    (sym ≤ 143 → walk fixedLit mb (codeBits 8 (0x30 + sym) ++ rest) = .found sym 8) ∧
    (144 ≤ sym → sym ≤ 255 → walk fixedLit mb (codeBits 9 (0x190 + (sym - 144)) ++ rest) = .found sym 9) ∧
    (256 ≤ sym → sym ≤ 279 → walk fixedLit mb (codeBits 7 (sym - 256) ++ rest) = .found sym 7) ∧
    (280 ≤ sym → sym ≤ 287 → walk fixedLit mb (codeBits 8 (0xC0 + (sym - 280)) ++ rest) = .found sym 8) ∧
    (sym ≤ 29 → walk fixedDist mb (codeBits 5 sym ++ rest) = .found sym 5)) ∧
  (∀ rest, walk fixedDist .fault (true :: true :: true :: true :: rest) = .bad .missingBranch 4)

/-- R127, R130: a tree with no codes is the root alone, and a decode from it raises before any bit is read. -/
def Obligations.EmptyTree : Prop :=
  (∀ lens : List Nat, (∀ L ∈ lens, L = 0) →
    build lens = { nodes := [{ symbol := 0, left := 0, right := 0 }], ncodes := 0 }) ∧
  (∀ (t : Tree) (s : State), t.ncodes = 0 → huffDecode t s = .raised .emptyTree s)

/-- R129: at a node that is no leaf, reached from the root, the bit that selects an absent child faults or restarts at the
root with the next bit, as `P_MISSING_BRANCH` says. -/
def Obligations.AbsentBranch : Prop :=
  ∀ (t : Tree) (path rest : List Bool) (b : Bool) (k : Nat) (n : Node),
    t.ncodes ≠ 0 → follow t 0 path = some k → t.nodes[k]? = some n → isLeaf n = false → childOf n b = 0 →
    walk t .fault (path ++ b :: rest) = .bad .missingBranch (path.length + 1) ∧
    (∀ sym used, walk t .restartRoot rest = .found sym used →
      walk t .restartRoot (path ++ b :: rest) = .found sym (path.length + 1 + used)) ∧
    (∀ used, walk t .restartRoot rest = .short used →
      walk t .restartRoot (path ++ b :: rest) = .short (path.length + 1 + used))

/-! ### Encoding and decoding -/

/-- R70 to R90: every well-formed element that is no pseudo-instruction decodes from its encoding, under any trees in force
in which its symbol has a code, whatever follows. -/
def Obligations.DecodeEncode : Prop :=
  ∀ (c : Context) (i : Instr) (mb : MissingBranch) (bits rest : List Bool),
    WellFormed i = true → isPseudo i = false → encode c i = some bits →
    decode mb (expectOf c i) (bits ++ rest) = .element i

/-- R91: the pseudo-instructions are other names for the words of other elements. -/
def Obligations.PseudoEncodings : Prop :=
  ∀ c : Context,
    (∀ length distance : Nat, 3 ≤ length → length ≤ 258 → 1 ≤ distance → distance ≤ 32768 →
      ∃ i j, lenParts i = some (lenSymbol length) ∧ distParts j = some (distSymbol distance) ∧
        lenBase.getD ((lenSymbol length).1 - 257) 0 + (lenSymbol length).2 = length ∧
        distBase.getD (distSymbol distance).1 0 + (distSymbol distance).2 = distance ∧
        (length = 258 → (lenSymbol length).1 = 285) ∧
        encode c (.matchPair length distance) = bothBits (encode c i) (encode c j)) ∧
    (∀ n, 3 ≤ n → n ≤ 10 → encode c (.zeros n) = encode c (.cl17 n)) ∧
    (∀ n, 11 ≤ n → n ≤ 138 → encode c (.zeros n) = encode c (.cl18 n)) ∧
    (∀ n, 3 ≤ n → n ≤ 6 → encode c (.repeatPrev n) = encode c (.cl16 n)) ∧
    encode c .pad = some (List.replicate c.pending false)

/-- R72, R73, R76, R78, R80, R87, R88: a few words written out from their formats. -/
def Obligations.SampleWords : Prop :=
  decode .fault .signature (bytesBits [0x89, 0x50, 0x4E, 0x47, 0x0D, 0x0A, 0x1A, 0x0A]) = .element .sig ∧
  decode .fault .chunk (bytesBits [0, 0, 0, 2, 0x49, 0x44, 0x41, 0x54, 0x78, 0x9C, 1, 2, 3, 4]) =
    .element (.chunkIdat 2 [0x78, 0x9C] 0x01020304) ∧
  decode .fault .zlibHeader
      [false, false, false, true, true, true, true, false, false, false, true, true, true, false, false, true] =
    .element (.zhdr 0x78 0x9C) ∧
  decode .fault .blockHeader [true, true, false] = .element (.blkFixed true) ∧
  decode .fault .blockHeader [false, false, true] = .element (.blkDynamic false) ∧
  decode .fault .dynHeader
      ([true, false, false, false, false] ++ [false, true, false, false, false] ++ [false, false, false, false] ++
       [true, false, false] ++ [false, true, false] ++ [false, false, true] ++ [true, true, true]) =
    .element (.dyn 258 3 4 [1, 2, 4, 7]) ∧
  decode .fault (.distance fixedDist) [false, false, true, false, false, true] = .element (.dist4 1) ∧
  decode .fault (.row 3) (bytesBits [4, 1, 2, 3]) = .element (.row4 [1, 2, 3])

/-- R83, R84, R85: each symbol's operand is its base plus its extra field, read least significant bit first. -/
def Obligations.SymbolMaps : Prop :=
  ∀ bits : List Bool,
    (∀ sym, sym ≤ 15 → clParts (clElement sym bits) = some sym) ∧
    clElement 16 bits = .cl16 (3 + bitsVal (bits.take 2)) ∧
    clElement 17 bits = .cl17 (3 + bitsVal (bits.take 3)) ∧
    clElement 18 bits = .cl18 (11 + bitsVal (bits.take 7)) ∧
    (∀ b : Byte, llElement b.toNat bits = .element (.lit b)) ∧
    llElement 256 bits = .element .eob ∧
    (∀ sym, 257 ≤ sym → sym ≤ 285 →
      ∃ i, llElement sym bits = .element i ∧ lenParts i = some (sym, bitsVal (bits.take (lenExtra.getD (sym - 257) 0)))) ∧
    llElement 286 bits = .element .len286Invalid ∧ llElement 287 bits = .element .len287Invalid ∧
    (∀ sym, sym ≤ 29 →
      ∃ i, distElement sym bits = .element i ∧ distParts i = some (sym, bitsVal (bits.take (distExtra.getD sym 0)))) ∧
    distElement 30 bits = .element .dist30Invalid ∧ distElement 31 bits = .element .dist31Invalid

/-- R34, R290: a step runs the element decoded at the stream position, in the state the loop's own reads leave: a chunk
after its 8 header bytes, a block after its 3 header bits, a coded element after its code. Where those reads raise, the step
takes the fault entry in the state they leave (R14, R315): the cut-short header of R151, and the faults of a Huffman decode
(R128 to R130) in their order (R313 (d)). That a step is one element with the loop's reads is the model's inference
(assumption 1), and so is that the decoder peeks at the operands (assumption 9). -/
def Obligations.StepRunsTheElement : Prop :=
  (∀ (s u : State) (c : Cause), s.host = [] →
    (s.phase = .png → s.pngPos = .signature → rdn 8 s = .raised c u → step s = .next (raise c u)) ∧
    (s.phase = .png → s.pngPos ≠ .signature → chunkHeader s = .raised c u → step s = .next (raise c u)) ∧
    (s.phase = .inflate → s.infPos = .blockHeader → blkHeader s = .raised c u → step s = .next (raise c u)) ∧
    (s.phase = .inflate → s.infPos = .codeLengths → huffDecode s.clTree s = .raised c u → step s = .next (raise c u)) ∧
    (s.phase = .inflate → s.infPos = .symbols → huffDecode s.litTree s = .raised c u → step s = .next (raise c u)) ∧
    (s.phase = .inflate → s.infPos = .distance → huffDecode s.distTree s = .raised c u → step s = .next (raise c u))) ∧
  ∀ (s u : State) (i : Instr) (v : List Byte) (sym : Nat), s.host = [] →
    (s.phase = .png → s.pngPos = .signature → rdn 8 s = .ok v u →
      decode s.cfg.missingBranch .signature (inBitsAhead s) = .element i → step s = exec i s) ∧
    (s.phase = .png → s.pngPos = .firstChunk → chunkHeader s = .ok () u →
      decode s.cfg.missingBranch .firstChunk (inBitsAhead s) = .element i → step s = exec i u) ∧
    (s.phase = .png → s.pngPos = .chunkLoop → chunkHeader s = .ok () u →
      decode s.cfg.missingBranch .chunk (inBitsAhead s) = .element i → step s = exec i u) ∧
    (s.phase = .zlibHdr → decode s.cfg.missingBranch .zlibHeader (alignedBitsAhead s) = .element i → step s = exec i s) ∧
    (s.phase = .inflate → s.infPos = .blockHeader → blkHeader s = .ok () u →
      decode s.cfg.missingBranch .blockHeader (bitsAhead s) = .element i → step s = exec i u) ∧
    (s.phase = .inflate → s.infPos = .storedBlock →
      decode s.cfg.missingBranch .storedBlock (alignedBitsAhead s) = .element i → step s = exec i s) ∧
    (s.phase = .inflate → s.infPos = .dynHeader →
      decode s.cfg.missingBranch .dynHeader (bitsAhead s) = .element i → step s = exec i s) ∧
    (s.phase = .inflate → s.infPos = .codeLengths → huffDecode s.clTree s = .ok sym u →
      decode s.cfg.missingBranch (.codeLength s.clTree) (bitsAhead s) = .element i → step s = exec i u) ∧
    (s.phase = .inflate → s.infPos = .symbols → huffDecode s.litTree s = .ok sym u →
      decode s.cfg.missingBranch (.symbol s.litTree) (bitsAhead s) = .element i → step s = exec i u) ∧
    (s.phase = .inflate → s.infPos = .distance → huffDecode s.distTree s = .ok sym u →
      decode s.cfg.missingBranch (.distance s.distTree) (bitsAhead s) = .element i → step s = exec i u) ∧
    (s.phase = .zlibTrl → decode s.cfg.missingBranch .trailer (alignedBitsAhead s) = .element i → step s = exec i s) ∧
    (s.phase = .defilter → decode s.cfg.missingBranch (.row (stride s)) (rowBits s) = .element i → step s = exec i s)

/-- R76, R79, R77, R88, R103, R261: the operands of the byte-granular elements are the bytes of the stream, from the next
byte boundary of `ZBUF` on, and from the row's first byte in `OUT`. -/
def Obligations.StreamOperands : Prop :=
  (∀ (s : State) (cmf flg : Byte), s.host = [] → s.phase = .zlibHdr → Memory.wf s.zbuf = true →
    Memory.read s.zbuf s.br.pos = some cmf → Memory.read s.zbuf (s.br.pos + 1) = some flg →
    step s = exec (.zhdr cmf flg) s) ∧
  (∀ (s : State) (b0 b1 b2 b3 : Byte) (payload : List Byte), s.host = [] → s.phase = .inflate →
    s.infPos = .storedBlock → Memory.wf s.zbuf = true → payload.length = (le16 b0 b1).toNat →
    (∀ k < 4 + payload.length, Memory.read s.zbuf (s.br.pos + k) = (b0 :: b1 :: b2 :: b3 :: payload)[k]?) →
    step s = exec (.stored (le16 b0 b1) (le16 b2 b3) payload) s) ∧
  (∀ (s : State) (b0 b1 b2 b3 : Byte), s.host = [] → s.phase = .zlibTrl → Memory.wf s.zbuf = true →
    (∀ k < 4, Memory.read s.zbuf (s.br.pos + k) = [b0, b1, b2, b3][k]?) →
    step s = exec (.ztrl (le32 b0 b1 b2 b3)) s) ∧
  (∀ (s : State) (ft : Byte) (x : List Byte), s.host = [] → s.phase = .defilter → Memory.wf s.out = true →
    x.length = stride s →
    (∀ k < 1 + stride s, Memory.read s.out (s.row * (stride s + 1) + k) = (ft :: x)[k]?) →
    step s = exec (if ft = 0 then .row0 x else if ft = 1 then .row1 x else if ft = 2 then .row2 x
      else if ft = 3 then .row3 x else if ft = 4 then .row4 x else .rowInvalid ft) s)

/-! ### The PNG elements -/

/-- R231: the signature, from the stream: fewer than 8 bytes, 8 other bytes, the 8 bytes; and `SIG` itself. -/
def Obligations.Signature : Prop :=
  (∀ (s : State) (v : List Byte), s.host = [] → s.phase = .png → s.pngPos = .signature →
    (s.lenIn < s.pcur + 8 → step s = .next (raise .outOfData s)) ∧
    (s.pcur + 8 ≤ s.lenIn → v.length = 8 → (∀ k < 8, v[k]? = some (inByte s (s.pcur + k))) →
      step s =
        if v = [0x89, 0x50, 0x4E, 0x47, 0x0D, 0x0A, 0x1A, 0x0A]
        then .next { s with pcur := s.pcur + 8, pngPos := .firstChunk }
        else .next (raise .pngSignature { s with pcur := s.pcur + 8 }))) ∧
  (∀ s : State, s.pcur + 8 ≤ s.lenIn →
    exec .sig s = .next { s with pcur := s.pcur + 8, pngPos := .firstChunk })

/-- R232, R233, R74, R234: the first chunk, from the stream; an IHDR that may run has its operands from the payload bytes, in
the order of F_IHDR, and its CRC from the four bytes after them. -/
def Obligations.FirstChunk : Prop :=
  ∀ (s : State) (v : List Byte), s.host = [] → s.phase = .png → s.pngPos = .firstChunk →
    (s.lenIn < s.pcur + 8 →
      ∃ t, step s = .next (raise .outOfData t) ∧ t = { s with pcur := t.pcur }) ∧
    (s.pcur + 8 ≤ s.lenIn → v.length = 8 → (∀ k < 8, v[k]? = some (inByte s (s.pcur + k))) →
      (be32 (v.getD 4 0) (v.getD 5 0) (v.getD 6 0) (v.getD 7 0) ≠ 0x49484452 →
        step s = .next (raise .firstNotIhdr { s with pcur := s.pcur + 8 })) ∧
      (be32 (v.getD 4 0) (v.getD 5 0) (v.getD 6 0) (v.getD 7 0) = 0x49484452 →
        be32 (v.getD 0 0) (v.getD 1 0) (v.getD 2 0) (v.getD 3 0) ≠ 13 →
        step s = .next (raise .ihdrLength { s with pcur := s.pcur + 8 })) ∧
      (be32 (v.getD 4 0) (v.getD 5 0) (v.getD 6 0) (v.getD 7 0) = 0x49484452 →
        be32 (v.getD 0 0) (v.getD 1 0) (v.getD 2 0) (v.getD 3 0) = 13 →
        ∃ width height depth ctype cmeth fmeth imeth crc,
          step s = exec (.chunkIhdr width height depth ctype cmeth fmeth imeth crc) { s with pcur := s.pcur + 8 } ∧
          (s.pcur + 21 ≤ s.lenIn →
            width = be32 (inByte s (s.pcur + 8)) (inByte s (s.pcur + 9)) (inByte s (s.pcur + 10)) (inByte s (s.pcur + 11)) ∧
            height =
              be32 (inByte s (s.pcur + 12)) (inByte s (s.pcur + 13)) (inByte s (s.pcur + 14)) (inByte s (s.pcur + 15)) ∧
            depth = inByte s (s.pcur + 16) ∧ ctype = inByte s (s.pcur + 17) ∧ cmeth = inByte s (s.pcur + 18) ∧
            fmeth = inByte s (s.pcur + 19) ∧ imeth = inByte s (s.pcur + 20)) ∧
          (s.pcur + 25 ≤ s.lenIn →
            crc = be32 (inByte s (s.pcur + 21)) (inByte s (s.pcur + 22)) (inByte s (s.pcur + 23)) (inByte s (s.pcur + 24)))))

/-- R243, R73: a chunk of the chunk loop, from the stream: its length and type are the 8 header bytes, its payload the bytes
after them, its CRC the four bytes after these, and its type selects the element. A stream that ends inside a header faults. -/
def Obligations.ChunkLoop : Prop :=
  ∀ (s : State) (v payload : List Byte), s.host = [] → s.phase = .png → s.pngPos = .chunkLoop →
    (s.lenIn < s.pcur + 8 →
      ∃ t, step s = .next (raise .outOfData t) ∧ t = { s with pcur := t.pcur }) ∧
    (∀ len type : Word, v.length = 8 → len = be32 (v.getD 0 0) (v.getD 1 0) (v.getD 2 0) (v.getD 3 0) →
      type = be32 (v.getD 4 0) (v.getD 5 0) (v.getD 6 0) (v.getD 7 0) → payload.length = len.toNat →
      s.pcur + 8 + len.toNat ≤ s.lenIn →
      (∀ k < 8 + len.toNat, (v ++ payload)[k]? = some (inByte s (s.pcur + k))) →
      ∃ crc, step s = exec (
        if type = 0x49444154 then .chunkIdat len payload crc
        else if type = 0x49454E44 then .chunkIend len payload crc
        else .chunkOther type len payload crc) { s with pcur := s.pcur + 8 } ∧
        (s.pcur + 12 + len.toNat ≤ s.lenIn →
          crc = be32 (inByte s (s.pcur + 8 + len.toNat)) (inByte s (s.pcur + 9 + len.toNat))
            (inByte s (s.pcur + 10 + len.toNat)) (inByte s (s.pcur + 11 + len.toNat))))

/-- R234 to R242: the IHDR: its latches, the checks in the source's order, the bytes per pixel. -/
def Obligations.Ihdr : Prop :=
  ∀ (width height : Word) (depth ctype cmeth fmeth imeth : Byte) (crc : Word) (s : State),
    (s.pcur + 17 ≤ s.lenIn →
      ∃ u, u = { s with
          w := width, h := height, depth := depth, ctype := ctype, cmeth := cmeth, fmeth := fmeth, imeth := imeth,
          pcur := s.pcur + 17 } ∧
        exec (.chunkIhdr width height depth ctype cmeth fmeth imeth crc) s = .next (
          if depth ≠ 8 then raise .bitDepth u
          else if ctype ≠ 2 ∧ ctype ≠ 6 then raise .colorType u
          else if cmeth ≠ 0 then raise .pngCompression u
          else if fmeth ≠ 0 then raise .pngFilterMethod u
          else if imeth ≠ 0 then raise .pngInterlace u
          else if width = 0 ∨ height = 0 then raise .zeroDimension u
          else { u with bpp := if ctype = 2 then 3 else 4, pngPos := .chunkLoop })) ∧
    (s.lenIn < s.pcur + 17 →
      ∃ t, exec (.chunkIhdr width height depth ctype cmeth fmeth imeth crc) s = .next (raise .outOfData t) ∧
        t = { s with
          w := t.w, h := t.h, depth := t.depth, ctype := t.ctype, cmeth := t.cmeth, fmeth := t.fmeth, imeth := t.imeth,
          pcur := t.pcur })

/-- R244: an IDAT appends its payload to `ZBUF` and skips its CRC; every byte of `ZBUF` below its old length stays. -/
def Obligations.Idat : Prop :=
  ∀ (len : Word) (payload : List Byte) (crc : Word) (s : State), Memory.wf s.zbuf = true →
    (s.pcur + len.toNat + 4 ≤ s.lenIn →
      ∃ m, Appended s.zbuf m payload ∧
        exec (.chunkIdat len payload crc) s = .next { s with pcur := s.pcur + len.toNat + 4, zbuf := m }) ∧
    (s.lenIn < s.pcur + len.toNat → exec (.chunkIdat len payload crc) s = .next (raise .outOfData s)) ∧
    (s.pcur + len.toNat ≤ s.lenIn → s.lenIn < s.pcur + len.toNat + 4 →
      ∃ m, Appended s.zbuf m payload ∧
        exec (.chunkIdat len payload crc) s =
          .next (raise .outOfData { s with pcur := s.pcur + len.toNat, zbuf := m }))

/-- R245, R293, R246: a chunk whose payload and CRC are skipped unread. An IEND ends the chunk stream, and the size check
decides between phase ZLIB_HDR and a fault; after any other chunk the loop goes on. -/
def Obligations.SkippedChunks : Prop :=
  ∀ (type len : Word) (payload : List Byte) (crc : Word) (s : State),
    (s.pcur + len.toNat + 4 ≤ s.lenIn →
      exec (.chunkIend len payload crc) s = .next (
        if 2 ^ s.cfg.addrBits ≤ s.h.toNat * (s.w.toNat * s.bpp + 1)
        then raise .sizeOverflow { s with pcur := s.pcur + len.toNat + 4 }
        else { s with
          pcur := s.pcur + len.toNat + 4, phase := .zlibHdr, br := { pos := 0, acc := 0, cnt := 0 } }) ∧
      exec (.chunkOther type len payload crc) s = .next { s with pcur := s.pcur + len.toNat + 4 }) ∧
    (s.lenIn < s.pcur + len.toNat + 4 → ∀ i ∈ [Instr.chunkIend len payload crc, .chunkOther type len payload crc],
      ∃ t, exec i s = .next (raise .outOfData t) ∧ t = { s with pcur := t.pcur })

/-! ### The zlib elements -/

/-- R211 to R216, R219: the zlib header, its checks in order. -/
def Obligations.ZlibHeader : Prop :=
  ∀ (cmf flg : Byte) (s : State), Memory.dense s.zbuf = true →
    (s.br.pos + 2 ≤ Memory.len s.zbuf →
      ∃ u, u = { afterBytes 2 s with cmf := cmf, flg := flg } ∧
        exec (.zhdr cmf flg) s = .next (
          if cmf.toNat % 16 ≠ 8 then raise .zlibCm u
          else if 7 < cmf.toNat / 16 then raise .zlibCinfo u
          else if (cmf.toNat * 256 + flg.toNat) % 31 ≠ 0 then raise .zlibFcheck u
          else if flg.getLsbD 5 = true then raise .zlibFdict u
          else { u with phase := .inflate, infPos := .blockHeader })) ∧
    (Memory.len s.zbuf < s.br.pos + 2 →
      ∃ t, exec (.zhdr cmf flg) s = .next (raise .outOfData t) ∧ t = { s with br := t.br, cmf := t.cmf })

/-- R217, R260: the trailer is read and not verified; the length check decides between the defilter and a fault. The clause
for an image of no rows is the model's own (assumption 18): R241 admits none. So are the reader's registers after the trailer
(assumption 20): R105 has the reader die there. -/
def Obligations.Trailer : Prop :=
  ∀ (adler : Word) (s : State), Memory.dense s.zbuf = true →
    (s.br.pos + 4 ≤ Memory.len s.zbuf →
      ∃ u, u = { afterBytes 4 s with phase := .defilter } ∧
        exec (.ztrl adler) s = .next (
          if Memory.len s.out < s.h.toNat * (s.w.toNat * s.bpp + 1) then raise .shortImageData u
          else if s.h.toNat = 0 then finishJob { u with row := 0, prev := List.replicate (s.w.toNat * s.bpp) 0 }
          else { u with row := 0, prev := List.replicate (s.w.toNat * s.bpp) 0 })) ∧
    (Memory.len s.zbuf < s.br.pos + 4 →
      ∃ t, exec (.ztrl adler) s = .next (raise .outOfData t) ∧ t = { s with phase := .zlibTrl, br := t.br })

/-! ### Blocks -/

/-- R151 to R154, R150, R182, R38: the block headers, which read no bit more than their three, and the end of a block: its
trees are discarded (R38; R182 does not list them, assumption 10), and BFINAL decides what follows. -/
def Obligations.Blocks : Prop :=
  ∀ (f : Bool) (s : State),
    exec (.blkStored f) s = .next { s with bfinal := f, btype := 0, infPos := .storedBlock } ∧
    exec (.blkFixed f) s =
      .next { s with bfinal := f, btype := 1, litTree := build fixedLitLens, distTree := build fixedDistLens, infPos := .symbols } ∧
    exec (.blkDynamic f) s = .next { s with bfinal := f, btype := 2, infPos := .dynHeader } ∧
    exec .eob s = .next (endBlock s) ∧
    endBlock s =
      { s with
        litTree := { nodes := [], ncodes := 0 }, distTree := { nodes := [], ncodes := 0 },
        clTree := { nodes := [], ncodes := 0 }, infPos := .blockHeader,
        phase := if s.bfinal = true then .zlibTrl else s.phase }

/-- R152, R189: a stored block: its payload is appended to `OUT` and the block ends; a full buffer, an early end of `ZBUF`
in the payload and in the header. NLEN takes part in nothing but its latch. -/
def Obligations.StoredBlock : Prop :=
  ∀ (len nlen : Half) (payload : List Byte) (s : State), Memory.dense s.zbuf = true → Memory.wf s.out = true →
    (payload.length = len.toNat → s.br.pos + 4 + len.toNat ≤ Memory.len s.zbuf →
      (len.toNat = 0 ∨ roomFor s len.toNat) →
      ∃ m, Appended s.out m payload ∧
        exec (.stored len nlen payload) s =
          .next (endBlock { afterBytes (4 + len.toNat) s with slen := len, snlen := nlen, out := m })) ∧
    (∀ cap, payload.length = len.toNat → s.br.pos + 4 + len.toNat ≤ Memory.len s.zbuf →
      s.cfg.outCap = some cap → 0 < len.toNat → cap < Memory.len s.out + len.toNat →
      ∃ m, Appended s.out m (payload.take (cap - Memory.len s.out)) ∧
        exec (.stored len nlen payload) s =
          .next (raise .outputCapacity
            { afterBytes (4 + (cap - Memory.len s.out) + 1) s with slen := len, snlen := nlen, out := m })) ∧
    (payload.length < len.toNat → s.br.pos + 4 + payload.length = Memory.len s.zbuf →
      (payload.length = 0 ∨ roomFor s payload.length) →
      ∃ m, Appended s.out m payload ∧
        exec (.stored len nlen payload) s =
          .next (raise .outOfData { afterBytes (4 + payload.length) s with slen := len, snlen := nlen, out := m })) ∧
    (Memory.len s.zbuf < s.br.pos + 4 →
      ∃ t, exec (.stored len nlen payload) s = .next (raise .outOfData t) ∧ t = { s with br := t.br, slen := t.slen })

/-- R156, R157, R158: the dynamic header: the counts, the code-length code lengths in `CL_ORDER`, the code-length tree. -/
def Obligations.DynamicHeader : Prop :=
  ∀ (hlit hdist hclen : Nat) (cl : List Nat) (s : State), StreamOk s →
    WellFormed (.dyn hlit hdist hclen cl) = true →
    (14 + 3 * hclen ≤ (bitsAhead s).length →
      ∃ u L, BitsRead (14 + 3 * hclen) s u ∧ L.length = 19 ∧
        (∀ k < 19, L.getD ([16, 17, 18, 0, 8, 7, 9, 6, 10, 5, 11, 4, 12, 3, 13, 2, 14, 1, 15].getD k 0) 0 = cl.getD k 0) ∧
        exec (.dyn hlit hdist hclen cl) s =
          .next { u with
            hlit := hlit, hdist := hdist, hclen := hclen, clLens := L, clTree := build L, lens := [],
            infPos := .codeLengths }) ∧
    ((bitsAhead s).length < 14 + 3 * hclen →
      ∃ t, exec (.dyn hlit hdist hclen cl) s = .next (raise .outOfData t) ∧ t.clTree = s.clTree ∧ t.out = s.out)

/-! ### Code-length symbols -/

/-- R160, R159, R164: a code length is appended; when the sequence is full the two trees are built and the symbols follow. -/
def Obligations.CodeLength : Prop :=
  ∀ (i : Instr) (v : Nat) (s : State), clParts i = some v →
    v ≤ 15 ∧
    exec i s = .next (
      if s.lens.length + 1 < s.hlit + s.hdist then { s with lens := s.lens ++ [v] }
      else { s with
        lens := s.lens ++ [v],
        litTree := build ((s.lens ++ [v]).take s.hlit),
        distTree := build (((s.lens ++ [v]).drop s.hlit).take s.hdist),
        infPos := .symbols })

/-- R161, R162, R163, R313 (e): the repeats: which length, how often, and the faults in their order; `REPEAT` and `ZEROS`
(R91) run as the repeats they stand for. -/
def Obligations.CodeLengthRepeats : Prop :=
  ∀ (rep : Nat) (s : State), StreamOk s →
    (s.lens = [] → ∀ i ∈ [Instr.cl16 rep, .repeatPrev rep], exec i s = .next (raise .repeatNoPrevious s)) ∧
    (∀ p ∈ [((2 : Nat), Instr.cl16 rep, s.lens.getLast?), (2, .repeatPrev rep, s.lens.getLast?), (3, .cl17 rep, some 0),
        (7, .cl18 rep, some 0), (if rep ≤ 10 then 3 else 7, .zeros rep, some 0)],
      ∀ v, p.2.2 = some v →
      (p.1 ≤ (bitsAhead s).length →
        ∃ u, BitsRead p.1 s u ∧
          exec p.2.1 s = .next (
            if s.hlit + s.hdist < s.lens.length + rep then raise .repeatOverrun u
            else afterLengths { u with lens := s.lens ++ List.replicate rep v })) ∧
      ((bitsAhead s).length < p.1 →
        ∃ u, BitsRead (bitsAhead s).length s u ∧ exec p.2.1 s = .next (raise .outOfData u)))

/-! ### Literal, length and distance symbols -/

/-- R181, R189: a literal is appended to `OUT`, or the buffer is full. -/
def Obligations.Literal : Prop :=
  ∀ (b : Byte) (s : State),
    (roomFor s 1 → Memory.wf s.out = true →
      ∃ m, Appended s.out m [b] ∧ exec (.lit b) s = .next { s with out := m }) ∧
    (∀ cap, s.cfg.outCap = some cap → cap < Memory.len s.out + 1 →
      exec (.lit b) s = .next (raise .outputCapacity s))

/-- R183: a length symbol reads its extra field and fixes the length of the match, 3 to 258; its distance follows. -/
def Obligations.LengthSymbol : Prop :=
  ∀ (i : Instr) (sym extra : Nat) (s : State), lenParts i = some (sym, extra) → StreamOk s →
    257 ≤ sym ∧ sym ≤ 285 ∧ extra < 2 ^ lenExtra.getD (sym - 257) 0 ∧
    3 ≤ lenBase.getD (sym - 257) 0 + extra ∧ lenBase.getD (sym - 257) 0 + extra ≤ 258 ∧
    (lenExtra.getD (sym - 257) 0 ≤ (bitsAhead s).length →
      ∃ u, BitsRead (lenExtra.getD (sym - 257) 0) s u ∧
        exec i s = .next { u with matchLen := lenBase.getD (sym - 257) 0 + extra, infPos := .distance }) ∧
    ((bitsAhead s).length < lenExtra.getD (sym - 257) 0 →
      ∃ u, BitsRead (bitsAhead s).length s u ∧ exec i s = .next (raise .outOfData u))

/-- R183, R185, R187, R188: a distance symbol reads its extra field, and the match is copied: every byte of `OUT` below its
old length stays, each new byte equals the one the distance behind it, and the symbols go on. -/
def Obligations.DistanceSymbol : Prop :=
  ∀ (j : Instr) (sym extra : Nat) (s : State), distParts j = some (sym, extra) → StreamOk s →
    Memory.dense s.out = true →
    1 ≤ distBase.getD sym 0 + extra ∧ distBase.getD sym 0 + extra ≤ 32768 ∧
    (distExtra.getD sym 0 ≤ (bitsAhead s).length → distBase.getD sym 0 + extra ≤ Memory.len s.out →
      roomFor s s.matchLen →
      ∃ u m, BitsRead (distExtra.getD sym 0) s u ∧
        Memory.dense m = true ∧ Memory.len m = Memory.len s.out + s.matchLen ∧
        (∀ a < Memory.len s.out, Memory.read m a = Memory.read s.out a) ∧
        (∀ k < s.matchLen, Memory.read m (Memory.len s.out + k) =
          Memory.read m (Memory.len s.out + k - (distBase.getD sym 0 + extra))) ∧
        exec j s = .next { u with out := m, infPos := .symbols })

/-- R187, R188, R313 (f): the faults of a distance symbol in their order; none of them copies a byte. -/
def Obligations.DistanceFaults : Prop :=
  ∀ (j : Instr) (sym extra : Nat) (s : State), distParts j = some (sym, extra) → StreamOk s →
    ((bitsAhead s).length < distExtra.getD sym 0 →
      ∃ u, BitsRead (bitsAhead s).length s u ∧ exec j s = .next (raise .outOfData u)) ∧
    (distExtra.getD sym 0 ≤ (bitsAhead s).length → Memory.len s.out < distBase.getD sym 0 + extra →
      ∃ u, BitsRead (distExtra.getD sym 0) s u ∧ exec j s = .next (raise .distanceTooFar u)) ∧
    (∀ cap, distExtra.getD sym 0 ≤ (bitsAhead s).length → distBase.getD sym 0 + extra ≤ Memory.len s.out →
      s.cfg.outCap = some cap → cap < Memory.len s.out + s.matchLen →
      ∃ u, BitsRead (distExtra.getD sym 0) s u ∧ exec j s = .next (raise .outputCapacity u))

/-- R188, R61: a copy of `n` bytes from distance `d` tiles the last `d` bytes. -/
def Obligations.CopyTiles : Prop :=
  ∀ (m : Memory) (d n : Nat), Memory.dense m = true → 0 < d → d ≤ Memory.len m →
    ∃ m', copyBytes d n m = some m' ∧ Memory.dense m' = true ∧ Memory.len m' = Memory.len m + n ∧
      (∀ a < Memory.len m, Memory.read m' a = Memory.read m a) ∧
      ∀ k < n, Memory.read m' (Memory.len m + k) = Memory.read m (Memory.len m - d + k % d)

/-- R91, R183 to R188: `PAD` discards the pending bits; `MATCH` reads what its `LEN` and its `DIST` read and copies
the match. `ZEROS` and `REPEAT` are in `CodeLengthRepeats`. -/
def Obligations.PseudoMeanings : Prop :=
  (∀ s : State, exec .pad s = .next { s with br := { pos := s.br.pos, acc := 0, cnt := 0 } }) ∧
  (∀ (length distance used : Nat) (s : State), StreamOk s → Memory.dense s.out = true →
    3 ≤ length → length ≤ 258 → 1 ≤ distance → distance ≤ Memory.len s.out → distance ≤ 32768 → roomFor s length →
    walk s.distTree s.cfg.missingBranch ((bitsAhead s).drop (lenExtra.getD ((lenSymbol length).1 - 257) 0)) =
      .found (distSymbol distance).1 used →
    lenExtra.getD ((lenSymbol length).1 - 257) 0 + used + distExtra.getD (distSymbol distance).1 0 ≤ (bitsAhead s).length →
    ∃ u m, BitsRead (lenExtra.getD ((lenSymbol length).1 - 257) 0 + used + distExtra.getD (distSymbol distance).1 0) s u ∧
      copyBytes distance length s.out = some m ∧
      exec (.matchPair length distance) s = .next { u with matchLen := length, out := m, infPos := .symbols })

/-! ### Scanlines -/

/-- R261 to R266, R268, R271, R260, R296: a scanline: each byte is its filtered byte plus its predictor over reconstructed
neighbours, the row is written to its place in `PIX` and to no other, and the next row or the end of the job follows, which
writes the result registers and nothing else (that the engine registers keep their values after the end is the model's own,
assumption 20). -/
def Obligations.Rows : Prop :=
  (∀ s : State, finishJob s = { s with
    imgWidth := s.w, imgHeight := s.h, imgBpp := BitVec.ofNat 32 s.bpp, imgStride := s.w.toNat * s.bpp,
    pixLen := s.w.toNat * s.bpp * s.h.toNat, cause := 0, phase := .done, status := 2 }) ∧
  ∀ (i : Instr) (pred : Byte → Byte → Byte → Byte) (x : List Byte) (s : State), rowParts i = some (pred, x) →
    stride s ≤ x.length → stride s ≤ s.prev.length → Memory.wf s.pix = true →
    ∃ (cur : List Byte) (m : Memory), cur.length = stride s ∧
      (∀ k < stride s, cur[k]? = some (x.getD k 0 +
        pred (neighbours s cur k).1 (neighbours s cur k).2.1 (neighbours s cur k).2.2)) ∧
      (∀ a, Memory.read m a =
        if s.row * stride s ≤ a ∧ a < s.row * stride s + stride s then cur[a - s.row * stride s]?
        else Memory.read s.pix a) ∧
      exec i s = .next (
        if s.h.toNat ≤ s.row + 1 then finishJob { s with cur := cur, pix := m, prev := cur, row := s.row + 1 }
        else { s with cur := cur, pix := m, prev := cur, row := s.row + 1 })

/-- R263 to R268: the predictors. Paeth takes the neighbour nearest to `a + b − c` in signed arithmetic, ties to `a`, then
`b`, then `c`; on row 0 it is Sub, in the first pixel Up. -/
def Obligations.Predictors : Prop :=
  ∀ a b c : Byte,
    predNone a b c = 0 ∧ predSub a b c = a ∧ predUp a b c = b ∧
    (predAverage a b c).toNat = (a.toNat + b.toNat) / 2 ∧
    (((b.toNat : Int) - c.toNat).natAbs ≤ ((a.toNat : Int) - c.toNat).natAbs →
      ((b.toNat : Int) - c.toNat).natAbs ≤ ((a.toNat : Int) + b.toNat - 2 * c.toNat).natAbs → predPaeth a b c = a) ∧
    ((((a.toNat : Int) - c.toNat).natAbs < ((b.toNat : Int) - c.toNat).natAbs ∨
        ((a.toNat : Int) + b.toNat - 2 * c.toNat).natAbs < ((b.toNat : Int) - c.toNat).natAbs) →
      ((a.toNat : Int) - c.toNat).natAbs ≤ ((a.toNat : Int) + b.toNat - 2 * c.toNat).natAbs → predPaeth a b c = b) ∧
    ((((a.toNat : Int) - c.toNat).natAbs < ((b.toNat : Int) - c.toNat).natAbs ∨
        ((a.toNat : Int) + b.toNat - 2 * c.toNat).natAbs < ((b.toNat : Int) - c.toNat).natAbs) →
      ((a.toNat : Int) + b.toNat - 2 * c.toNat).natAbs < ((a.toNat : Int) - c.toNat).natAbs → predPaeth a b c = c) ∧
    predPaeth a 0 0 = a ∧ predPaeth 0 b 0 = b ∧
    predPaeth 4 1 2 = 4 ∧ predPaeth 2 8 4 = 8 ∧ predPaeth 10 20 15 = 15

/-! ### The machine as a whole -/

/-- R51, R230, R12: the reads of `IN`: at an offset below its length the byte the host has written, any value where it has
written none; past the length, out of data. No step of the engine changes the input, its length, the parameters (R9), or
anything of the host's. -/
def Obligations.InputUntouched : Prop :=
  (∀ s t : State, s.host = [] → step s = .next t →
    t.inSpace = s.inSpace ∧ t.inDraw = s.inDraw ∧ t.inLen = s.inLen ∧ t.lenIn = s.lenIn ∧ t.cfg = s.cfg ∧ t.host = [] ∧
    t.hostRead = s.hostRead) ∧
  ∀ (s : State) (n : Nat),
    (∀ a v, Memory.read s.inSpace a = some v → inByte s a = v) ∧
    (s.pcur < s.lenIn → rd8 s = .ok (inByte s s.pcur) { s with pcur := s.pcur + 1 }) ∧
    (s.lenIn ≤ s.pcur → rd8 s = .raised .outOfData s) ∧
    (s.pcur + 4 ≤ s.lenIn →
      rd32 s = .ok (be32 (inByte s s.pcur) (inByte s (s.pcur + 1)) (inByte s (s.pcur + 2)) (inByte s (s.pcur + 3)))
        { s with pcur := s.pcur + 4 }) ∧
    (s.lenIn < s.pcur + 4 → rd32 s = .raised .outOfData { s with pcur := max s.pcur s.lenIn }) ∧
    (s.pcur + n ≤ s.lenIn →
      skip n s = .ok () { s with pcur := s.pcur + n } ∧
      ∃ v, rdn n s = .ok v { s with pcur := s.pcur + n } ∧ v.length = n ∧
        ∀ k < n, v[k]? = some (inByte s (s.pcur + k))) ∧
    (s.lenIn < s.pcur + n → rdn n s = .raised .outOfData s ∧ skip n s = .raised .outOfData s)

/-- R50, R52, R53, R44: which phase writes which space: `ZBUF` grows in phase PNG alone, `OUT` grows in phase INFLATE alone,
`PIX` is written in phase DEFILTER alone; the IHDR latches are written in phase PNG alone. -/
def Obligations.SpacesWritten : Prop :=
  ∀ s t : State, s.host = [] → step s = .next t →
    (∃ vs, t.zbuf = Memory.appendAll s.zbuf vs) ∧ (s.phase ≠ .png → t.zbuf = s.zbuf) ∧
    (∃ vs, t.out = Memory.appendAll s.out vs) ∧ (s.phase ≠ .inflate → t.out = s.out) ∧
    (s.phase ≠ .defilter → t.pix = s.pix) ∧
    s.pcur ≤ t.pcur ∧ (s.phase ≠ .png → t.pcur = s.pcur ∧ t.w = s.w ∧ t.h = s.h ∧ t.bpp = s.bpp)

/-- R30: the phase moves forward one phase at a time, to ERROR on a fault, to PNG at a start, to IDLE by power-on reset
(R342). The premise on `H` holds of every accepted header (R241); `EngineKeepsGoing` states that it is kept. -/
def Obligations.PhaseForward : Prop :=
  ∀ s t : State, InterfaceInv s → (headerAccepted s = true → 0 < s.h.toNat) → step s = .next t →
    t.phase = s.phase ∨ (s.phase, t.phase) ∈ phaseMoves ∨ (isRunning s.phase = true ∧ t.phase = .error) ∨
    (s.host.head? = some .powerOn ∧ t.phase = .idle)

/-- Every step, the host's included, keeps every space in its canonical form. That form, strictly rising addresses, is the
model's own representation of a space (assumption 6): the spec gives the spaces of R50 none. -/
def Obligations.MemoryFormKept : Prop :=
  ∀ s t : State, s.memoryWf = true → step s = .next t → t.memoryWf = true

/-- R23, R24, R26 to R28, R296, R316: every step, the host's included, keeps the interface registers in agreement with the
phase. -/
def Obligations.InterfaceKept : Prop :=
  ∀ s t : State, InterfaceInv s → step s = .next t → InterfaceInv t

/-- R21, R56, R293: every step keeps the lengths within `P_ADDR_BITS` bits, and from phase ZLIB_HDR on the bytes the
defilter needs. -/
def Obligations.SizesKept : Prop :=
  ∀ s t : State, SizesFit s → step s = .next t → SizesFit t

/-- R298, R299, R125, R33: a running engine never stops, and keeps its invariant; a start establishes it. That the reader's
registers stay in order once the reader is dead (R105) is the model's own (assumption 20). -/
def Obligations.EngineKeepsGoing : Prop :=
  (∀ (s : State) (rest : List HostMove) (v : Nat), s.host = .writeReg 0 v :: rest → v.testBit 0 = true →
    isBusy s = false →
    ∃ t, step s = .next t ∧ EngineInv t ∧ t.host = rest) ∧
  (∀ s : State, EngineInv s → s.host = [] → ∃ t, step s = .next t ∧ EngineInv t ∧ t.host = [])

/-- R299: every step of a running job ends a stage or consumes of what the stage has left. -/
def Obligations.Progress : Prop :=
  ∀ s t : State, EngineInv s → s.host = [] → isRunning s.phase = true → step s = .next t →
    stagesLeft t.phase < stagesLeft s.phase ∨ (t.phase = s.phase ∧ stageWork t < stageWork s)

/-- R299, R316, R296: every job ends, with a result or with a fault, whatever `IN` holds. -/
def Obligations.EveryJobEnds : Prop :=
  ∀ (s : State) (v : Nat), s.host = [.writeReg 0 v] → v.testBit 0 = true → isBusy s = false →
    ∃ n t, core.run n s = .next t ∧
      ((t.phase = .done ∧ t.status = 2 ∧ t.cause = 0 ∧ ∀ a, (Memory.read t.pix a).isSome = true ↔ a < t.pixLen) ∨
       (t.phase = .error ∧ t.status = 4 ∧ noResult t ∧ ∃ c, c ≠ Cause.ioSource ∧ t.cause = causeWord c))

/-- R298, R245: the engine never sees a byte of `IN` at or beyond `len(IN)`, and of the others nothing but their values. -/
def Obligations.BeyondInputUnseen : Prop :=
  ∀ (s : State) (m : Memory) (d : Nat), s.host = [] →
    (∀ a < s.lenIn, inByte { s with inSpace := m, inDraw := d } a = inByte s a) →
    (∀ t, step s = .next t → step { s with inSpace := m, inDraw := d } = .next { t with inSpace := m, inDraw := d }) ∧
    (∀ f, step s = .fault f → step { s with inSpace := m, inDraw := d } = .fault f)

end
end

