-- ==== Sys2Proof/Laws/Bits.lean ====
section
/-! SUPPORT. The laws of bit fields and byte lists as bits in read order: what the decoder's readers take of what the
encoder's writers put. -/

namespace Sys2Proof

theorem bitsVal_lt (bits : List Bool) : bitsVal bits < 2 ^ bits.length := by
  induction bits with
  | nil => simp [bitsVal]
  | cons b bs ih =>
    have : b.toNat ≤ 1 := Bool.toNat_le b
    simp only [bitsVal, List.length_cons, pow_succ]
    omega

theorem bitsVal_append (xs ys : List Bool) : bitsVal (xs ++ ys) = bitsVal xs + 2 ^ xs.length * bitsVal ys := by
  induction xs with
  | nil => simp [bitsVal]
  | cons b bs ih =>
    simp only [List.cons_append, bitsVal, ih, List.length_cons, pow_succ]
    ring

theorem testBit_bitsVal (bits : List Bool) (k : Nat) : (bitsVal bits).testBit k = bits.getD k false := by
  induction bits generalizing k with
  | nil => simp [bitsVal]
  | cons b bs ih =>
    cases k with
    | zero => cases b <;> simp [bitsVal, Nat.testBit_zero]
    | succ k =>
      rw [Nat.testBit_succ, show bitsVal (b :: bs) / 2 = bitsVal bs by
        cases b <;> simp [bitsVal]; omega, ih]
      simp

@[simp] theorem length_fieldBits (n v : Nat) : (fieldBits n v).length = n := by simp [fieldBits]

/-- A field's bits have the field's value. -/
theorem bitsVal_fieldBits {n v : Nat} (h : v < 2 ^ n) : bitsVal (fieldBits n v) = v := by
  refine Nat.eq_of_testBit_eq fun k => ?_
  rw [testBit_bitsVal]
  by_cases hk : k < n
  · simp [fieldBits, List.getD_eq_getElem?_getD, hk]
  · have : v.testBit k = false :=
      Nat.testBit_lt_two_pow (lt_of_lt_of_le h (Nat.pow_le_pow_right (by omega) (by omega)))
    simp [fieldBits, List.getD_eq_getElem?_getD, hk, this]

theorem takeField_append {n : Nat} {xs : List Bool} (h : xs.length = n) (rest : List Bool) :
    takeField n (xs ++ rest) = (bitsVal xs, rest) := by
  subst h; simp [takeField]

/-- Reading a field back (R82). -/
theorem takeField_fieldBits {n v : Nat} (h : v < 2 ^ n) (rest : List Bool) :
    takeField n (fieldBits n v ++ rest) = (v, rest) := by
  rw [takeField_append (length_fieldBits n v), bitsVal_fieldBits h]

@[simp] theorem length_byteBits (b : Byte) : (byteBits b).length = 8 := by simp [byteBits]

@[simp] theorem length_bytesBits (bs : List Byte) : (bytesBits bs).length = 8 * bs.length := by
  induction bs with
  | nil => rfl
  | cons b bs ih => simp [bytesBits, ih]; omega

theorem bytesBits_append (xs ys : List Byte) : bytesBits (xs ++ ys) = bytesBits xs ++ bytesBits ys := by
  induction xs with
  | nil => rfl
  | cons x xs ih => simp [bytesBits, ih]

/-- The bits of a byte have its value. -/
theorem ofNat_bitsVal_byteBits (b : Byte) : BitVec.ofNat 8 (bitsVal (byteBits b)) = b := by
  refine BitVec.eq_of_getLsbD_eq fun k hk => ?_
  rw [BitVec.getLsbD_ofNat, testBit_bitsVal]
  simp [byteBits, List.getD_eq_getElem?_getD, hk]

theorem bitsVal_byteBits (b : Byte) : bitsVal (byteBits b) = b.toNat := by
  have h := congrArg BitVec.toNat (ofNat_bitsVal_byteBits b)
  have hlt := bitsVal_lt (byteBits b)
  simp at hlt
  rwa [BitVec.toNat_ofNat, Nat.mod_eq_of_lt (by simpa using hlt)] at h

/-- Reading a byte back. -/
@[simp] theorem takeByte_byteBits (b : Byte) (rest : List Bool) : takeByte (byteBits b ++ rest) = (b, rest) := by
  have : (byteBits b ++ rest).take 8 = byteBits b := by simp
  simp [takeByte, ofNat_bitsVal_byteBits]

theorem takeBytes_byteBits (n : Nat) (b : Byte) (rest : List Bool) :
    takeBytes (n + 1) (byteBits b ++ rest) = (b :: (takeBytes n rest).1, (takeBytes n rest).2) := by
  have h : byteBits b = [b.getLsbD 0, b.getLsbD 1, b.getLsbD 2, b.getLsbD 3, b.getLsbD 4, b.getLsbD 5, b.getLsbD 6,
    b.getLsbD 7] := rfl
  have h8 := ofNat_bitsVal_byteBits b
  rw [h] at h8
  rw [h]
  simp only [List.cons_append, List.nil_append, takeBytes, h8]

/-- Reading a list of bytes back. -/
theorem takeBytes_bytesBits {n : Nat} (xs : List Byte) (h : xs.length = n) (rest : List Bool) :
    takeBytes n (bytesBits xs ++ rest) = (xs, rest) := by
  induction xs generalizing n with
  | nil => subst h; simp [bytesBits, takeBytes]
  | cons x xs ih =>
    subst h
    rw [bytesBits, List.append_assoc, List.length_cons, takeBytes_byteBits, ih rfl]

theorem be32_be32Bytes (x : Word) :
    be32 (x.extractLsb' 24 8) (x.extractLsb' 16 8) (x.extractLsb' 8 8) (x.extractLsb' 0 8) = x := by
  unfold be32
  simp only [BitVec.extractLsb'_append_extractLsb'_eq_extractLsb' (show 24 = 16 + 8 from rfl),
    BitVec.extractLsb'_append_extractLsb'_eq_extractLsb' (show 16 = 8 + 8 from rfl),
    BitVec.extractLsb'_append_extractLsb'_eq_extractLsb' (show 8 = 0 + 8 from rfl)]
  simp

theorem le32_le32Bytes (x : Word) :
    le32 (x.extractLsb' 0 8) (x.extractLsb' 8 8) (x.extractLsb' 16 8) (x.extractLsb' 24 8) = x := be32_be32Bytes x

theorem le16_le16Bytes (x : Half) : le16 (x.extractLsb' 0 8) (x.extractLsb' 8 8) = x := by
  unfold le16
  rw [BitVec.extractLsb'_append_extractLsb'_eq_extractLsb' (show 8 = 0 + 8 from rfl)]
  simp

/-- Reading a big-endian word back. -/
theorem takeBe32_be32Bytes (x : Word) (rest : List Bool) : takeBe32 (bytesBits (be32Bytes x) ++ rest) = (x, rest) := by
  simp [takeBe32, be32Bytes, bytesBits, be32_be32Bytes]

/-- Reading a little-endian word back. -/
theorem takeLe32_le32Bytes (x : Word) (rest : List Bool) : takeLe32 (bytesBits (le32Bytes x) ++ rest) = (x, rest) := by
  simp [takeLe32, le32Bytes, bytesBits, le32_le32Bytes]

/-- Reading a little-endian half word back. -/
theorem takeLe16_le16Bytes (x : Half) (rest : List Bool) : takeLe16 (bytesBits (le16Bytes x) ++ rest) = (x, rest) := by
  simp [takeLe16, le16Bytes, bytesBits, le16_le16Bytes]

/-- The next byte of a list of bytes. -/
@[simp] theorem takeByte_bytesBits (b : Byte) (bs : List Byte) : takeByte (bytesBits (b :: bs)) = (b, bytesBits bs) :=
  takeByte_byteBits b (bytesBits bs)

/-- The next word of a list of bytes, its first byte the most significant (R55). -/
@[simp] theorem takeBe32_bytesBits (b0 b1 b2 b3 : Byte) (bs : List Byte) :
    takeBe32 (bytesBits (b0 :: b1 :: b2 :: b3 :: bs)) = (be32 b0 b1 b2 b3, bytesBits bs) := by
  simp only [takeBe32, takeByte_bytesBits]

@[simp] theorem takeField_zero (bits : List Bool) : takeField 0 bits = (0, bits) := by simp [takeField, bitsVal]

theorem takeField_lt (n : Nat) (bits : List Bool) : (takeField n bits).1 < 2 ^ n :=
  lt_of_lt_of_le (bitsVal_lt _) (Nat.pow_le_pow_right (by omega) (by simp))

end Sys2Proof
end

