-- ==== Sys2Proof/Laws/Memory.lean ====
section
/-! SUPPORT. The laws of the byte spaces: read after write and append, lengths, the canonical form kept by every
operation, and dense spaces as lists of bytes. -/

namespace Sys2Proof.Machine

theorem Memory.len_cons_cons (c d : Host.Cell) (m : Memory) :
    Memory.len (c :: d :: m) = Memory.len (d :: m) := by
  obtain ⟨k, v⟩ := c
  rfl

theorem Memory.len_concat (m : Memory) (k : Nat) (v : Byte) : Memory.len (m ++ [(k, v)]) = k + 1 := by
  induction m with
  | nil => rfl
  | cons c m ih =>
    cases m with
    | nil => exact Memory.len_cons_cons c (k, v) []
    | cons d m => exact (Memory.len_cons_cons c d _).trans ih

@[simp] theorem Memory.len_append (m : Memory) (v : Byte) :
    Memory.len (Memory.append m v) = Memory.len m + 1 := Memory.len_concat m _ v

@[simp] theorem Memory.len_appendAll (m : Memory) (vs : List Byte) :
    Memory.len (Memory.appendAll m vs) = Memory.len m + vs.length := by
  induction vs generalizing m with
  | nil => rfl
  | cons v vs ih => simp [Memory.appendAll, ih]; omega

theorem Memory.appendAll_concat (m : Memory) (xs ys : List Byte) :
    Memory.appendAll m (xs ++ ys) = Memory.appendAll (Memory.appendAll m xs) ys := by
  induction xs generalizing m with
  | nil => rfl
  | cons x xs ih => simpa [Memory.appendAll] using ih _

theorem Memory.wf_tail {c : Host.Cell} {m : Memory} (h : Memory.wf (c :: m) = true) : Memory.wf m = true := by
  cases m with
  | nil => rfl
  | cons d m => obtain ⟨k, v⟩ := c; obtain ⟨l, w⟩ := d; simp [Memory.wf] at h; exact h.2

/-- In a canonical space every address after the head is above it. -/
theorem Memory.wf_head_lt {k : Nat} {v : Byte} {m : Memory} (h : Memory.wf ((k, v) :: m) = true) :
    ∀ c ∈ m, k < c.1 := by
  induction m generalizing k v with
  | nil => simp
  | cons d m ih =>
    obtain ⟨l, w⟩ := d
    simp only [Memory.wf, Bool.and_eq_true, decide_eq_true_eq] at h
    intro c hc
    rcases List.mem_cons.mp hc with rfl | hc
    · exact h.1
    · exact lt_trans h.1 (ih h.2 c hc)

theorem Memory.wf_cons {k : Nat} {v : Byte} {m : Memory} (h : Memory.wf m = true) (hlt : ∀ c ∈ m, k < c.1) :
    Memory.wf ((k, v) :: m) = true := by
  cases m with
  | nil => rfl
  | cons d m => obtain ⟨l, w⟩ := d; simp [Memory.wf, h]; exact hlt (l, w) (by simp)

theorem Memory.lt_len {m : Memory} (h : Memory.wf m = true) : ∀ c ∈ m, c.1 < Memory.len m := by
  induction m with
  | nil => simp
  | cons d m ih =>
    obtain ⟨k, v⟩ := d
    intro c hc
    cases m with
    | nil => simp at hc; subst hc; simp [Memory.len]
    | cons e m =>
      rw [Memory.len_cons_cons]
      rcases List.mem_cons.mp hc with rfl | hc
      · exact lt_trans (Memory.wf_head_lt h e (by simp)) (ih (Memory.wf_tail h) e (by simp))
      · exact ih (Memory.wf_tail h) c hc

theorem Memory.wf_concat {m : Memory} (h : Memory.wf m = true) {k : Nat} (v : Byte) (hk : ∀ c ∈ m, c.1 < k) :
    Memory.wf (m ++ [(k, v)]) = true := by
  induction m with
  | nil => rfl
  | cons d m ih =>
    obtain ⟨l, w⟩ := d
    refine Memory.wf_cons (ih (Memory.wf_tail h) fun c hc => hk c (List.mem_cons_of_mem _ hc)) ?_
    intro c hc
    rcases List.mem_append.mp hc with hc | hc
    · exact Memory.wf_head_lt h c hc
    · simp at hc; subst hc; exact hk (l, w) (by simp)

/-- Appending keeps the canonical form. -/
theorem Memory.wf_append {m : Memory} (h : Memory.wf m = true) (v : Byte) : Memory.wf (Memory.append m v) = true :=
  Memory.wf_concat h v (Memory.lt_len h)

/-- Appending a list keeps the canonical form. -/
theorem Memory.wf_appendAll {m : Memory} (h : Memory.wf m = true) (vs : List Byte) :
    Memory.wf (Memory.appendAll m vs) = true := by
  induction vs generalizing m with
  | nil => exact h
  | cons v vs ih => exact ih (Memory.wf_append h v)

theorem Memory.mem_write {m : Memory} {a : Nat} {v : Byte} {c : Host.Cell} (h : c ∈ Memory.write m a v) :
    c = (a, v) ∨ c ∈ m := by
  induction m with
  | nil => simp [Memory.write] at h; exact .inl h
  | cons d m ih =>
    obtain ⟨k, w⟩ := d
    simp only [Memory.write] at h
    split at h
    · simpa using h
    · split at h
      · simp at h; rcases h with h | h
        · exact .inl h
        · exact .inr (by simp [h])
      · rcases List.mem_cons.mp h with rfl | h
        · exact .inr (by simp)
        · rcases ih h with h | h
          · exact .inl h
          · exact .inr (List.mem_cons_of_mem _ h)

/-- Writing a byte keeps the canonical form. -/
theorem Memory.wf_write {m : Memory} (h : Memory.wf m = true) (a : Nat) (v : Byte) :
    Memory.wf (Memory.write m a v) = true := by
  induction m with
  | nil => rfl
  | cons d m ih =>
    obtain ⟨k, w⟩ := d
    simp only [Memory.write]
    split
    · refine Memory.wf_cons h ?_
      intro c hc
      rcases List.mem_cons.mp hc with rfl | hc
      · assumption
      · exact lt_trans ‹_› (Memory.wf_head_lt h c hc)
    · split
      · rename_i h1 h2; subst h2
        exact Memory.wf_cons (Memory.wf_tail h) (Memory.wf_head_lt h)
      · refine Memory.wf_cons (ih (Memory.wf_tail h)) ?_
        intro c hc
        rcases Memory.mem_write hc with rfl | hc
        · show k < a; omega
        · exact Memory.wf_head_lt h c hc

/-- Writing a list keeps the canonical form. -/
theorem Memory.wf_writeAll {m : Memory} (h : Memory.wf m = true) (a : Nat) (vs : List Byte) :
    Memory.wf (Memory.writeAll m a vs) = true := by
  induction vs generalizing m a with
  | nil => exact h
  | cons v vs ih => exact ih (Memory.wf_write h a v) _

theorem Memory.read_none {m : Memory} {a : Nat} (h : ∀ c ∈ m, c.1 ≠ a) : Memory.read m a = none := by
  induction m with
  | nil => rfl
  | cons d m ih =>
    obtain ⟨k, v⟩ := d
    have hk : k ≠ a := h (k, v) (by simp)
    simp only [Memory.read, if_neg hk]
    exact ih fun c hc => h c (List.mem_cons_of_mem _ hc)

/-- A canonical space holds no byte at or above its length. -/
theorem Memory.read_len_le {m : Memory} (h : Memory.wf m = true) {a : Nat} (ha : Memory.len m ≤ a) :
    Memory.read m a = none :=
  Memory.read_none fun c hc => by have := Memory.lt_len h c hc; omega

theorem Memory.read_concat (m : Memory) (k : Nat) (v : Byte) (a : Nat) :
    Memory.read (m ++ [(k, v)]) a = (Memory.read m a).or (if k = a then some v else none) := by
  induction m with
  | nil => simp [Memory.read]
  | cons d m ih =>
    obtain ⟨l, w⟩ := d
    simp only [List.cons_append, Memory.read]
    split <;> simp [ih]

/-- Read after append: the new byte stands at the old length, every other offset reads as before. -/
theorem Memory.read_append {m : Memory} (h : Memory.wf m = true) (v : Byte) (a : Nat) :
    Memory.read (Memory.append m v) a = if a = Memory.len m then some v else Memory.read m a := by
  rw [Memory.append, Memory.read_concat]
  by_cases ha : a = Memory.len m
  · subst ha; simp [Memory.read_len_le h (le_refl _)]
  · have : ¬ Memory.len m = a := fun e => ha e.symm
    simp [this, ha]

/-- Read after appending a list. -/
theorem Memory.read_appendAll {m : Memory} (h : Memory.wf m = true) (vs : List Byte) (a : Nat) :
    Memory.read (Memory.appendAll m vs) a =
      if a < Memory.len m then Memory.read m a else vs[a - Memory.len m]? := by
  induction vs generalizing m with
  | nil =>
    simp only [Memory.appendAll]
    split
    · rfl
    · rw [Memory.read_len_le h (by omega)]; simp
  | cons v vs ih =>
    rw [Memory.appendAll, ih (Memory.wf_append h v), Memory.len_append]
    by_cases h1 : a < Memory.len m
    · rw [if_pos (by omega), if_pos h1, Memory.read_append h, if_neg (by omega)]
    · by_cases h2 : a = Memory.len m
      · subst h2; simp [Memory.read_append h]
      · rw [if_neg (by omega), if_neg h1]
        have : a - Memory.len m = (a - (Memory.len m + 1)) + 1 := by omega
        rw [this, List.getElem?_cons_succ]

/-- Read after write. -/
theorem Memory.read_write {m : Memory} (h : Memory.wf m = true) (a : Nat) (v : Byte) (b : Nat) :
    Memory.read (Memory.write m a v) b = if b = a then some v else Memory.read m b := by
  induction m with
  | nil =>
    by_cases hb : b = a
    · simp [Memory.write, Memory.read, hb]
    · simp [Memory.write, Memory.read, hb, Ne.symm hb]
  | cons d m ih =>
    obtain ⟨k, w⟩ := d
    simp only [Memory.write]
    split
    · by_cases hb : b = a
      · simp [Memory.read, hb]
      · simp [Memory.read, hb, Ne.symm hb]
    · split
      · rename_i _ h2; subst h2
        by_cases hb : b = a
        · simp [Memory.read, hb]
        · simp [Memory.read, hb, Ne.symm hb]
      · simp only [Memory.read, ih (Memory.wf_tail h)]
        by_cases hk : k = b
        · have : ¬ b = a := by omega
          simp [hk, this]
        · simp [hk]

/-- Read after writing a list. -/
theorem Memory.read_writeAll {m : Memory} (h : Memory.wf m = true) (a : Nat) (vs : List Byte) (b : Nat) :
    Memory.read (Memory.writeAll m a vs) b =
      if a ≤ b ∧ b < a + vs.length then vs[b - a]? else Memory.read m b := by
  induction vs generalizing m a with
  | nil =>
    simp only [Memory.writeAll]
    rw [if_neg (by simp)]
  | cons v vs ih =>
    rw [Memory.writeAll, ih (Memory.wf_write h a v), Memory.read_write h]
    by_cases hb : b = a
    · subst hb; simp
    · by_cases h1 : a + 1 ≤ b ∧ b < a + 1 + vs.length
      · rw [if_pos h1, if_pos (by simp; omega)]
        have : b - a = (b - (a + 1)) + 1 := by omega
        rw [this, List.getElem?_cons_succ]
      · rw [if_neg h1, if_neg hb, if_neg (by simp; omega)]

theorem Memory.dense_iff {m : Memory} : Memory.dense m = true ↔ m.map Prod.fst = List.range m.length := by
  simp [Memory.dense]

theorem Memory.getElem?_of_dense {m : Memory} (h : Memory.dense m = true) (k : Nat) :
    m[k]? = (if k < m.length then some k else none).bind fun a => (m.map Prod.snd)[k]?.map fun v => (a, v) := by
  by_cases hk : k < m.length
  · have h1 : (m.map Prod.fst)[k]? = some k := by rw [Memory.dense_iff.mp h]; simp [hk]
    have : m[k].1 = k := by simpa [hk] using h1
    simp [hk, Prod.ext_iff, this]
  · simp [hk]

theorem Memory.wf_of_fst {m : Memory} {n : Nat} (h : m.map Prod.fst = List.range' n m.length) :
    Memory.wf m = true := by
  induction m generalizing n with
  | nil => rfl
  | cons c m ih =>
    obtain ⟨k, v⟩ := c
    simp [List.range'_succ] at h
    refine Memory.wf_cons (ih h.2) ?_
    intro d hd
    have : d.1 ∈ m.map Prod.fst := List.mem_map_of_mem hd
    rw [h.2] at this
    simp at this; omega

/-- A dense space is in canonical form. -/
theorem Memory.wf_of_dense {m : Memory} (h : Memory.dense m = true) : Memory.wf m = true := by
  refine Memory.wf_of_fst (n := 0) ?_
  rw [Memory.dense_iff.mp h, List.range_eq_range']

theorem Memory.len_of_dense {m : Memory} (h : Memory.dense m = true) : Memory.len m = m.length := by
  rcases List.eq_nil_or_concat m with rfl | ⟨l, c, rfl⟩
  · rfl
  · obtain ⟨k, v⟩ := c
    rw [List.concat_eq_append, Memory.len_concat]
    have h1 := congrArg (fun l : List Nat => l[l.length - 1]?) (Memory.dense_iff.mp h)
    simp at h1
    simp [h1]

/-- A dense space reads as the list of its bytes. -/
theorem Memory.read_of_dense {m : Memory} (h : Memory.dense m = true) (a : Nat) :
    Memory.read m a = (m.map Prod.snd)[a]? := by
  suffices H : ∀ (m : Memory) (n : Nat), m.map Prod.fst = List.range' n m.length →
      ∀ a, Memory.read m (n + a) = (m.map Prod.snd)[a]? by
    have := H m 0 (by rw [Memory.dense_iff.mp h, List.range_eq_range']) a
    simpa using this
  intro m
  induction m with
  | nil => intro n _ a; simp [Memory.read]
  | cons c m ih =>
    intro n hn a
    obtain ⟨k, v⟩ := c
    simp [List.range'_succ] at hn
    obtain ⟨rfl, hn⟩ := hn
    cases a with
    | zero => simp [Memory.read]
    | succ a =>
      have := ih (k + 1) hn a
      simp only [Memory.read]
      rw [if_neg (by omega), show k + (a + 1) = k + 1 + a by omega, this]
      simp

/-- Appending keeps a dense space dense. -/
theorem Memory.dense_append {m : Memory} (h : Memory.dense m = true) (v : Byte) :
    Memory.dense (Memory.append m v) = true := by
  rw [Memory.dense_iff, Memory.append, Memory.len_of_dense h]
  simp [Memory.dense_iff.mp h, List.range_succ]

theorem Memory.dense_appendAll {m : Memory} (h : Memory.dense m = true) (vs : List Byte) :
    Memory.dense (Memory.appendAll m vs) = true := by
  induction vs generalizing m with
  | nil => exact h
  | cons v vs ih => exact ih (Memory.dense_append h v)

theorem Memory.bytesFrom_cons_skip {a k : Nat} {v : Byte} {m : Memory} (h : k < a) :
    Memory.bytesFrom a ((k, v) :: m) = Memory.bytesFrom a m := by simp [Memory.bytesFrom, h]

/-- The bytes from an offset of a dense space on. -/
theorem Memory.bytesFrom_of_dense {m : Memory} (h : Memory.dense m = true) (a : Nat) :
    Memory.bytesFrom a m = (m.map Prod.snd).drop a := by
  suffices H : ∀ (m : Memory) (n : Nat), m.map Prod.fst = List.range' n m.length →
      ∀ a, n ≤ a → Memory.bytesFrom a m = (m.map Prod.snd).drop (a - n) by
    have := H m 0 (by rw [Memory.dense_iff.mp h, List.range_eq_range']) a (Nat.zero_le _)
    simpa using this
  intro m
  induction m with
  | nil => intro n _ a _; simp [Memory.bytesFrom]
  | cons c m ih =>
    intro n hn a ha
    obtain ⟨k, v⟩ := c
    simp [List.range'_succ] at hn
    obtain ⟨rfl, hn⟩ := hn
    rcases Nat.lt_or_eq_of_le ha with h1 | rfl
    · rw [Memory.bytesFrom_cons_skip h1, ih (k + 1) hn a h1, show a - k = (a - (k + 1)) + 1 by omega]
      simp
    · simp only [Memory.bytesFrom, lt_irrefl, if_false, if_true]
      rw [ih (k + 1) hn (k + 1) (le_refl _)]
      simp

/-- In a canonical space, an offset that holds a byte begins the bytes from there on with it. -/
theorem Memory.bytesFrom_of_read {m : Memory} (h : Memory.wf m = true) {a : Nat} {v : Byte}
    (hr : Memory.read m a = some v) : Memory.bytesFrom a m = v :: Memory.bytesFrom (a + 1) m := by
  induction m with
  | nil => simp [Memory.read] at hr
  | cons d m ih =>
    obtain ⟨k, w⟩ := d
    by_cases hk : k = a
    · subst hk
      simp [Memory.read] at hr
      subst hr
      simp [Memory.bytesFrom]
    · simp only [Memory.read, if_neg hk] at hr
      have hmem : ∃ c ∈ m, c.1 = a := by
        by_contra hc
        rw [Memory.read_none (fun c hm he => hc ⟨c, hm, he⟩)] at hr
        cases hr
      obtain ⟨c, hc, rfl⟩ := hmem
      have hlt := Memory.wf_head_lt h c hc
      rw [Memory.bytesFrom_cons_skip hlt, Memory.bytesFrom_cons_skip (by omega), ih (Memory.wf_tail h) hr]

theorem Memory.bytesFrom_of_read_none {m : Memory} (h : Memory.wf m = true) {a : Nat}
    (hr : Memory.read m a = none) : Memory.bytesFrom a m = [] := by
  induction m with
  | nil => rfl
  | cons d m ih =>
    obtain ⟨k, w⟩ := d
    by_cases hk : k = a
    · simp [Memory.read, hk] at hr
    · simp only [Memory.read, if_neg hk] at hr
      simp only [Memory.bytesFrom, if_neg hk]
      split
      · exact ih (Memory.wf_tail h) hr
      · rfl

/-- Where `n` bytes are held, the bytes from there on are at least `n`. -/
theorem Memory.length_bytesFrom {m : Memory} (h : Memory.wf m = true) {a n : Nat}
    (hr : ∀ k < n, (Memory.read m (a + k)).isSome = true) : n ≤ (Memory.bytesFrom a m).length := by
  induction n generalizing a with
  | zero => simp
  | succ n ih =>
    obtain ⟨v, hv⟩ := Option.isSome_iff_exists.mp (hr 0 (by omega))
    rw [Nat.add_zero] at hv
    rw [Memory.bytesFrom_of_read h hv]
    have := ih (a := a + 1) fun k hk => by
      have := hr (k + 1) (by omega)
      rwa [show a + (k + 1) = a + 1 + k by omega] at this
    simp; omega

end Sys2Proof.Machine
end

