-- ==== Sys2Proof/Laws/State.lean ====
section
/-! SUPPORT. One lemma per field per named update of a State: fault entry (R315), job start (R291), job end (R296), the
discarding of pending bits (R102), the block registers (R151), and the end of a block (R150). -/

namespace Sys2Proof.Machine

section raise
variable (c : Cause) (s : State)

@[simp] theorem raise_cfg : (raise c s).cfg = s.cfg := rfl
@[simp] theorem raise_host : (raise c s).host = s.host := rfl
@[simp] theorem raise_hostRead : (raise c s).hostRead = s.hostRead := rfl
@[simp] theorem raise_status : (raise c s).status = statusErr := rfl
@[simp] theorem raise_cause : (raise c s).cause = causeWord c := rfl
@[simp] theorem raise_inLen : (raise c s).inLen = s.inLen := rfl
@[simp] theorem raise_imgWidth : (raise c s).imgWidth = 0 := rfl
@[simp] theorem raise_imgHeight : (raise c s).imgHeight = 0 := rfl
@[simp] theorem raise_imgBpp : (raise c s).imgBpp = 0 := rfl
@[simp] theorem raise_imgStride : (raise c s).imgStride = 0 := rfl
@[simp] theorem raise_pixLen : (raise c s).pixLen = 0 := rfl
@[simp] theorem raise_phase : (raise c s).phase = .error := rfl
@[simp] theorem raise_pngPos : (raise c s).pngPos = s.pngPos := rfl
@[simp] theorem raise_infPos : (raise c s).infPos = s.infPos := rfl
@[simp] theorem raise_lenIn : (raise c s).lenIn = s.lenIn := rfl
@[simp] theorem raise_pcur : (raise c s).pcur = s.pcur := rfl
@[simp] theorem raise_w : (raise c s).w = s.w := rfl
@[simp] theorem raise_h : (raise c s).h = s.h := rfl
@[simp] theorem raise_depth : (raise c s).depth = s.depth := rfl
@[simp] theorem raise_ctype : (raise c s).ctype = s.ctype := rfl
@[simp] theorem raise_cmeth : (raise c s).cmeth = s.cmeth := rfl
@[simp] theorem raise_fmeth : (raise c s).fmeth = s.fmeth := rfl
@[simp] theorem raise_imeth : (raise c s).imeth = s.imeth := rfl
@[simp] theorem raise_bpp : (raise c s).bpp = s.bpp := rfl
@[simp] theorem raise_br : (raise c s).br = s.br := rfl
@[simp] theorem raise_cmf : (raise c s).cmf = s.cmf := rfl
@[simp] theorem raise_flg : (raise c s).flg = s.flg := rfl
@[simp] theorem raise_bfinal : (raise c s).bfinal = s.bfinal := rfl
@[simp] theorem raise_btype : (raise c s).btype = s.btype := rfl
@[simp] theorem raise_slen : (raise c s).slen = s.slen := rfl
@[simp] theorem raise_snlen : (raise c s).snlen = s.snlen := rfl
@[simp] theorem raise_hlit : (raise c s).hlit = s.hlit := rfl
@[simp] theorem raise_hdist : (raise c s).hdist = s.hdist := rfl
@[simp] theorem raise_hclen : (raise c s).hclen = s.hclen := rfl
@[simp] theorem raise_clLens : (raise c s).clLens = s.clLens := rfl
@[simp] theorem raise_lens : (raise c s).lens = s.lens := rfl
@[simp] theorem raise_litTree : (raise c s).litTree = s.litTree := rfl
@[simp] theorem raise_distTree : (raise c s).distTree = s.distTree := rfl
@[simp] theorem raise_clTree : (raise c s).clTree = s.clTree := rfl
@[simp] theorem raise_matchLen : (raise c s).matchLen = s.matchLen := rfl
@[simp] theorem raise_row : (raise c s).row = s.row := rfl
@[simp] theorem raise_prev : (raise c s).prev = s.prev := rfl
@[simp] theorem raise_cur : (raise c s).cur = s.cur := rfl
@[simp] theorem raise_faultCode : (raise c s).faultCode = causeCode c := rfl
@[simp] theorem raise_inSpace : (raise c s).inSpace = s.inSpace := rfl
@[simp] theorem raise_inDraw : (raise c s).inDraw = s.inDraw := rfl
@[simp] theorem raise_zbuf : (raise c s).zbuf = s.zbuf := rfl
@[simp] theorem raise_out : (raise c s).out = s.out := rfl
@[simp] theorem raise_pix : (raise c s).pix = s.pix := rfl

end raise

section startJob
variable (s : State)

@[simp] theorem startJob_cfg : (startJob s).cfg = s.cfg := rfl
@[simp] theorem startJob_host : (startJob s).host = s.host := rfl
@[simp] theorem startJob_hostRead : (startJob s).hostRead = s.hostRead := rfl
@[simp] theorem startJob_status : (startJob s).status = statusBusy := rfl
@[simp] theorem startJob_cause : (startJob s).cause = 0 := rfl
@[simp] theorem startJob_inLen : (startJob s).inLen = s.inLen := rfl
@[simp] theorem startJob_imgWidth : (startJob s).imgWidth = 0 := rfl
@[simp] theorem startJob_imgHeight : (startJob s).imgHeight = 0 := rfl
@[simp] theorem startJob_imgBpp : (startJob s).imgBpp = 0 := rfl
@[simp] theorem startJob_imgStride : (startJob s).imgStride = 0 := rfl
@[simp] theorem startJob_pixLen : (startJob s).pixLen = 0 := rfl
@[simp] theorem startJob_phase : (startJob s).phase = .png := rfl
@[simp] theorem startJob_pngPos : (startJob s).pngPos = .signature := rfl
@[simp] theorem startJob_infPos : (startJob s).infPos = .blockHeader := rfl
@[simp] theorem startJob_lenIn : (startJob s).lenIn = s.inLen := rfl
@[simp] theorem startJob_pcur : (startJob s).pcur = 0 := rfl
@[simp] theorem startJob_w : (startJob s).w = 0 := rfl
@[simp] theorem startJob_h : (startJob s).h = 0 := rfl
@[simp] theorem startJob_depth : (startJob s).depth = 0 := rfl
@[simp] theorem startJob_ctype : (startJob s).ctype = 0 := rfl
@[simp] theorem startJob_cmeth : (startJob s).cmeth = 0 := rfl
@[simp] theorem startJob_fmeth : (startJob s).fmeth = 0 := rfl
@[simp] theorem startJob_imeth : (startJob s).imeth = 0 := rfl
@[simp] theorem startJob_bpp : (startJob s).bpp = 0 := rfl
@[simp] theorem startJob_br : (startJob s).br = { pos := 0, acc := 0, cnt := 0 } := rfl
@[simp] theorem startJob_cmf : (startJob s).cmf = 0 := rfl
@[simp] theorem startJob_flg : (startJob s).flg = 0 := rfl
@[simp] theorem startJob_bfinal : (startJob s).bfinal = false := rfl
@[simp] theorem startJob_btype : (startJob s).btype = 0 := rfl
@[simp] theorem startJob_slen : (startJob s).slen = 0 := rfl
@[simp] theorem startJob_snlen : (startJob s).snlen = 0 := rfl
@[simp] theorem startJob_hlit : (startJob s).hlit = 0 := rfl
@[simp] theorem startJob_hdist : (startJob s).hdist = 0 := rfl
@[simp] theorem startJob_hclen : (startJob s).hclen = 0 := rfl
@[simp] theorem startJob_clLens : (startJob s).clLens = List.replicate 19 0 := rfl
@[simp] theorem startJob_lens : (startJob s).lens = [] := rfl
@[simp] theorem startJob_litTree : (startJob s).litTree = noTree := rfl
@[simp] theorem startJob_distTree : (startJob s).distTree = noTree := rfl
@[simp] theorem startJob_clTree : (startJob s).clTree = noTree := rfl
@[simp] theorem startJob_matchLen : (startJob s).matchLen = 0 := rfl
@[simp] theorem startJob_row : (startJob s).row = 0 := rfl
@[simp] theorem startJob_prev : (startJob s).prev = [] := rfl
@[simp] theorem startJob_cur : (startJob s).cur = [] := rfl
@[simp] theorem startJob_faultCode : (startJob s).faultCode = 0 := rfl
@[simp] theorem startJob_inSpace : (startJob s).inSpace = s.inSpace := rfl
@[simp] theorem startJob_inDraw : (startJob s).inDraw = s.inDraw := rfl
@[simp] theorem startJob_zbuf : (startJob s).zbuf = [] := rfl
@[simp] theorem startJob_out : (startJob s).out = [] := rfl
@[simp] theorem startJob_pix : (startJob s).pix = [] := rfl

end startJob

section finishJob
variable (s : State)

@[simp] theorem finishJob_cfg : (finishJob s).cfg = s.cfg := rfl
@[simp] theorem finishJob_host : (finishJob s).host = s.host := rfl
@[simp] theorem finishJob_hostRead : (finishJob s).hostRead = s.hostRead := rfl
@[simp] theorem finishJob_status : (finishJob s).status = statusDone := rfl
@[simp] theorem finishJob_cause : (finishJob s).cause = 0 := rfl
@[simp] theorem finishJob_inLen : (finishJob s).inLen = s.inLen := rfl
@[simp] theorem finishJob_imgWidth : (finishJob s).imgWidth = s.w := rfl
@[simp] theorem finishJob_imgHeight : (finishJob s).imgHeight = s.h := rfl
@[simp] theorem finishJob_imgBpp : (finishJob s).imgBpp = BitVec.ofNat 32 s.bpp := rfl
@[simp] theorem finishJob_imgStride : (finishJob s).imgStride = stride s := rfl
@[simp] theorem finishJob_pixLen : (finishJob s).pixLen = stride s * s.h.toNat := rfl
@[simp] theorem finishJob_phase : (finishJob s).phase = .done := rfl
@[simp] theorem finishJob_pngPos : (finishJob s).pngPos = s.pngPos := rfl
@[simp] theorem finishJob_infPos : (finishJob s).infPos = s.infPos := rfl
@[simp] theorem finishJob_lenIn : (finishJob s).lenIn = s.lenIn := rfl
@[simp] theorem finishJob_pcur : (finishJob s).pcur = s.pcur := rfl
@[simp] theorem finishJob_w : (finishJob s).w = s.w := rfl
@[simp] theorem finishJob_h : (finishJob s).h = s.h := rfl
@[simp] theorem finishJob_depth : (finishJob s).depth = s.depth := rfl
@[simp] theorem finishJob_ctype : (finishJob s).ctype = s.ctype := rfl
@[simp] theorem finishJob_cmeth : (finishJob s).cmeth = s.cmeth := rfl
@[simp] theorem finishJob_fmeth : (finishJob s).fmeth = s.fmeth := rfl
@[simp] theorem finishJob_imeth : (finishJob s).imeth = s.imeth := rfl
@[simp] theorem finishJob_bpp : (finishJob s).bpp = s.bpp := rfl
@[simp] theorem finishJob_br : (finishJob s).br = s.br := rfl
@[simp] theorem finishJob_cmf : (finishJob s).cmf = s.cmf := rfl
@[simp] theorem finishJob_flg : (finishJob s).flg = s.flg := rfl
@[simp] theorem finishJob_bfinal : (finishJob s).bfinal = s.bfinal := rfl
@[simp] theorem finishJob_btype : (finishJob s).btype = s.btype := rfl
@[simp] theorem finishJob_slen : (finishJob s).slen = s.slen := rfl
@[simp] theorem finishJob_snlen : (finishJob s).snlen = s.snlen := rfl
@[simp] theorem finishJob_hlit : (finishJob s).hlit = s.hlit := rfl
@[simp] theorem finishJob_hdist : (finishJob s).hdist = s.hdist := rfl
@[simp] theorem finishJob_hclen : (finishJob s).hclen = s.hclen := rfl
@[simp] theorem finishJob_clLens : (finishJob s).clLens = s.clLens := rfl
@[simp] theorem finishJob_lens : (finishJob s).lens = s.lens := rfl
@[simp] theorem finishJob_litTree : (finishJob s).litTree = s.litTree := rfl
@[simp] theorem finishJob_distTree : (finishJob s).distTree = s.distTree := rfl
@[simp] theorem finishJob_clTree : (finishJob s).clTree = s.clTree := rfl
@[simp] theorem finishJob_matchLen : (finishJob s).matchLen = s.matchLen := rfl
@[simp] theorem finishJob_row : (finishJob s).row = s.row := rfl
@[simp] theorem finishJob_prev : (finishJob s).prev = s.prev := rfl
@[simp] theorem finishJob_cur : (finishJob s).cur = s.cur := rfl
@[simp] theorem finishJob_faultCode : (finishJob s).faultCode = s.faultCode := rfl
@[simp] theorem finishJob_inSpace : (finishJob s).inSpace = s.inSpace := rfl
@[simp] theorem finishJob_inDraw : (finishJob s).inDraw = s.inDraw := rfl
@[simp] theorem finishJob_zbuf : (finishJob s).zbuf = s.zbuf := rfl
@[simp] theorem finishJob_out : (finishJob s).out = s.out := rfl
@[simp] theorem finishJob_pix : (finishJob s).pix = s.pix := rfl

end finishJob

section alignReader
variable (s : State)

@[simp] theorem alignReader_cfg : (alignReader s).cfg = s.cfg := rfl
@[simp] theorem alignReader_host : (alignReader s).host = s.host := rfl
@[simp] theorem alignReader_hostRead : (alignReader s).hostRead = s.hostRead := rfl
@[simp] theorem alignReader_status : (alignReader s).status = s.status := rfl
@[simp] theorem alignReader_cause : (alignReader s).cause = s.cause := rfl
@[simp] theorem alignReader_inLen : (alignReader s).inLen = s.inLen := rfl
@[simp] theorem alignReader_imgWidth : (alignReader s).imgWidth = s.imgWidth := rfl
@[simp] theorem alignReader_imgHeight : (alignReader s).imgHeight = s.imgHeight := rfl
@[simp] theorem alignReader_imgBpp : (alignReader s).imgBpp = s.imgBpp := rfl
@[simp] theorem alignReader_imgStride : (alignReader s).imgStride = s.imgStride := rfl
@[simp] theorem alignReader_pixLen : (alignReader s).pixLen = s.pixLen := rfl
@[simp] theorem alignReader_phase : (alignReader s).phase = s.phase := rfl
@[simp] theorem alignReader_pngPos : (alignReader s).pngPos = s.pngPos := rfl
@[simp] theorem alignReader_infPos : (alignReader s).infPos = s.infPos := rfl
@[simp] theorem alignReader_lenIn : (alignReader s).lenIn = s.lenIn := rfl
@[simp] theorem alignReader_pcur : (alignReader s).pcur = s.pcur := rfl
@[simp] theorem alignReader_w : (alignReader s).w = s.w := rfl
@[simp] theorem alignReader_h : (alignReader s).h = s.h := rfl
@[simp] theorem alignReader_depth : (alignReader s).depth = s.depth := rfl
@[simp] theorem alignReader_ctype : (alignReader s).ctype = s.ctype := rfl
@[simp] theorem alignReader_cmeth : (alignReader s).cmeth = s.cmeth := rfl
@[simp] theorem alignReader_fmeth : (alignReader s).fmeth = s.fmeth := rfl
@[simp] theorem alignReader_imeth : (alignReader s).imeth = s.imeth := rfl
@[simp] theorem alignReader_bpp : (alignReader s).bpp = s.bpp := rfl
@[simp] theorem alignReader_br : (alignReader s).br = { s.br with acc := 0, cnt := 0 } := rfl
@[simp] theorem alignReader_cmf : (alignReader s).cmf = s.cmf := rfl
@[simp] theorem alignReader_flg : (alignReader s).flg = s.flg := rfl
@[simp] theorem alignReader_bfinal : (alignReader s).bfinal = s.bfinal := rfl
@[simp] theorem alignReader_btype : (alignReader s).btype = s.btype := rfl
@[simp] theorem alignReader_slen : (alignReader s).slen = s.slen := rfl
@[simp] theorem alignReader_snlen : (alignReader s).snlen = s.snlen := rfl
@[simp] theorem alignReader_hlit : (alignReader s).hlit = s.hlit := rfl
@[simp] theorem alignReader_hdist : (alignReader s).hdist = s.hdist := rfl
@[simp] theorem alignReader_hclen : (alignReader s).hclen = s.hclen := rfl
@[simp] theorem alignReader_clLens : (alignReader s).clLens = s.clLens := rfl
@[simp] theorem alignReader_lens : (alignReader s).lens = s.lens := rfl
@[simp] theorem alignReader_litTree : (alignReader s).litTree = s.litTree := rfl
@[simp] theorem alignReader_distTree : (alignReader s).distTree = s.distTree := rfl
@[simp] theorem alignReader_clTree : (alignReader s).clTree = s.clTree := rfl
@[simp] theorem alignReader_matchLen : (alignReader s).matchLen = s.matchLen := rfl
@[simp] theorem alignReader_row : (alignReader s).row = s.row := rfl
@[simp] theorem alignReader_prev : (alignReader s).prev = s.prev := rfl
@[simp] theorem alignReader_cur : (alignReader s).cur = s.cur := rfl
@[simp] theorem alignReader_faultCode : (alignReader s).faultCode = s.faultCode := rfl
@[simp] theorem alignReader_inSpace : (alignReader s).inSpace = s.inSpace := rfl
@[simp] theorem alignReader_inDraw : (alignReader s).inDraw = s.inDraw := rfl
@[simp] theorem alignReader_zbuf : (alignReader s).zbuf = s.zbuf := rfl
@[simp] theorem alignReader_out : (alignReader s).out = s.out := rfl
@[simp] theorem alignReader_pix : (alignReader s).pix = s.pix := rfl

end alignReader

section setBlock
variable (final : Bool) (type : BitVec 2) (s : State)

@[simp] theorem setBlock_cfg : (setBlock final type s).cfg = s.cfg := rfl
@[simp] theorem setBlock_host : (setBlock final type s).host = s.host := rfl
@[simp] theorem setBlock_hostRead : (setBlock final type s).hostRead = s.hostRead := rfl
@[simp] theorem setBlock_status : (setBlock final type s).status = s.status := rfl
@[simp] theorem setBlock_cause : (setBlock final type s).cause = s.cause := rfl
@[simp] theorem setBlock_inLen : (setBlock final type s).inLen = s.inLen := rfl
@[simp] theorem setBlock_imgWidth : (setBlock final type s).imgWidth = s.imgWidth := rfl
@[simp] theorem setBlock_imgHeight : (setBlock final type s).imgHeight = s.imgHeight := rfl
@[simp] theorem setBlock_imgBpp : (setBlock final type s).imgBpp = s.imgBpp := rfl
@[simp] theorem setBlock_imgStride : (setBlock final type s).imgStride = s.imgStride := rfl
@[simp] theorem setBlock_pixLen : (setBlock final type s).pixLen = s.pixLen := rfl
@[simp] theorem setBlock_phase : (setBlock final type s).phase = s.phase := rfl
@[simp] theorem setBlock_pngPos : (setBlock final type s).pngPos = s.pngPos := rfl
@[simp] theorem setBlock_infPos : (setBlock final type s).infPos = s.infPos := rfl
@[simp] theorem setBlock_lenIn : (setBlock final type s).lenIn = s.lenIn := rfl
@[simp] theorem setBlock_pcur : (setBlock final type s).pcur = s.pcur := rfl
@[simp] theorem setBlock_w : (setBlock final type s).w = s.w := rfl
@[simp] theorem setBlock_h : (setBlock final type s).h = s.h := rfl
@[simp] theorem setBlock_depth : (setBlock final type s).depth = s.depth := rfl
@[simp] theorem setBlock_ctype : (setBlock final type s).ctype = s.ctype := rfl
@[simp] theorem setBlock_cmeth : (setBlock final type s).cmeth = s.cmeth := rfl
@[simp] theorem setBlock_fmeth : (setBlock final type s).fmeth = s.fmeth := rfl
@[simp] theorem setBlock_imeth : (setBlock final type s).imeth = s.imeth := rfl
@[simp] theorem setBlock_bpp : (setBlock final type s).bpp = s.bpp := rfl
@[simp] theorem setBlock_br : (setBlock final type s).br = s.br := rfl
@[simp] theorem setBlock_cmf : (setBlock final type s).cmf = s.cmf := rfl
@[simp] theorem setBlock_flg : (setBlock final type s).flg = s.flg := rfl
@[simp] theorem setBlock_bfinal : (setBlock final type s).bfinal = final := rfl
@[simp] theorem setBlock_btype : (setBlock final type s).btype = type := rfl
@[simp] theorem setBlock_slen : (setBlock final type s).slen = s.slen := rfl
@[simp] theorem setBlock_snlen : (setBlock final type s).snlen = s.snlen := rfl
@[simp] theorem setBlock_hlit : (setBlock final type s).hlit = s.hlit := rfl
@[simp] theorem setBlock_hdist : (setBlock final type s).hdist = s.hdist := rfl
@[simp] theorem setBlock_hclen : (setBlock final type s).hclen = s.hclen := rfl
@[simp] theorem setBlock_clLens : (setBlock final type s).clLens = s.clLens := rfl
@[simp] theorem setBlock_lens : (setBlock final type s).lens = s.lens := rfl
@[simp] theorem setBlock_litTree : (setBlock final type s).litTree = s.litTree := rfl
@[simp] theorem setBlock_distTree : (setBlock final type s).distTree = s.distTree := rfl
@[simp] theorem setBlock_clTree : (setBlock final type s).clTree = s.clTree := rfl
@[simp] theorem setBlock_matchLen : (setBlock final type s).matchLen = s.matchLen := rfl
@[simp] theorem setBlock_row : (setBlock final type s).row = s.row := rfl
@[simp] theorem setBlock_prev : (setBlock final type s).prev = s.prev := rfl
@[simp] theorem setBlock_cur : (setBlock final type s).cur = s.cur := rfl
@[simp] theorem setBlock_faultCode : (setBlock final type s).faultCode = s.faultCode := rfl
@[simp] theorem setBlock_inSpace : (setBlock final type s).inSpace = s.inSpace := rfl
@[simp] theorem setBlock_inDraw : (setBlock final type s).inDraw = s.inDraw := rfl
@[simp] theorem setBlock_zbuf : (setBlock final type s).zbuf = s.zbuf := rfl
@[simp] theorem setBlock_out : (setBlock final type s).out = s.out := rfl
@[simp] theorem setBlock_pix : (setBlock final type s).pix = s.pix := rfl

end setBlock

section endBlock
variable (s : State)

@[simp] theorem endBlock_cfg : (endBlock s).cfg = s.cfg := by unfold endBlock; cases s.bfinal <;> rfl
@[simp] theorem endBlock_host : (endBlock s).host = s.host := by unfold endBlock; cases s.bfinal <;> rfl
@[simp] theorem endBlock_hostRead : (endBlock s).hostRead = s.hostRead := by unfold endBlock; cases s.bfinal <;> rfl
@[simp] theorem endBlock_status : (endBlock s).status = s.status := by unfold endBlock; cases s.bfinal <;> rfl
@[simp] theorem endBlock_cause : (endBlock s).cause = s.cause := by unfold endBlock; cases s.bfinal <;> rfl
@[simp] theorem endBlock_inLen : (endBlock s).inLen = s.inLen := by unfold endBlock; cases s.bfinal <;> rfl
@[simp] theorem endBlock_imgWidth : (endBlock s).imgWidth = s.imgWidth := by unfold endBlock; cases s.bfinal <;> rfl
@[simp] theorem endBlock_imgHeight : (endBlock s).imgHeight = s.imgHeight := by unfold endBlock; cases s.bfinal <;> rfl
@[simp] theorem endBlock_imgBpp : (endBlock s).imgBpp = s.imgBpp := by unfold endBlock; cases s.bfinal <;> rfl
@[simp] theorem endBlock_imgStride : (endBlock s).imgStride = s.imgStride := by unfold endBlock; cases s.bfinal <;> rfl
@[simp] theorem endBlock_pixLen : (endBlock s).pixLen = s.pixLen := by unfold endBlock; cases s.bfinal <;> rfl
@[simp] theorem endBlock_phase : (endBlock s).phase = if s.bfinal then .zlibTrl else s.phase := by unfold endBlock; cases s.bfinal <;> rfl
@[simp] theorem endBlock_pngPos : (endBlock s).pngPos = s.pngPos := by unfold endBlock; cases s.bfinal <;> rfl
@[simp] theorem endBlock_infPos : (endBlock s).infPos = .blockHeader := by unfold endBlock; cases s.bfinal <;> rfl
@[simp] theorem endBlock_lenIn : (endBlock s).lenIn = s.lenIn := by unfold endBlock; cases s.bfinal <;> rfl
@[simp] theorem endBlock_pcur : (endBlock s).pcur = s.pcur := by unfold endBlock; cases s.bfinal <;> rfl
@[simp] theorem endBlock_w : (endBlock s).w = s.w := by unfold endBlock; cases s.bfinal <;> rfl
@[simp] theorem endBlock_h : (endBlock s).h = s.h := by unfold endBlock; cases s.bfinal <;> rfl
@[simp] theorem endBlock_depth : (endBlock s).depth = s.depth := by unfold endBlock; cases s.bfinal <;> rfl
@[simp] theorem endBlock_ctype : (endBlock s).ctype = s.ctype := by unfold endBlock; cases s.bfinal <;> rfl
@[simp] theorem endBlock_cmeth : (endBlock s).cmeth = s.cmeth := by unfold endBlock; cases s.bfinal <;> rfl
@[simp] theorem endBlock_fmeth : (endBlock s).fmeth = s.fmeth := by unfold endBlock; cases s.bfinal <;> rfl
@[simp] theorem endBlock_imeth : (endBlock s).imeth = s.imeth := by unfold endBlock; cases s.bfinal <;> rfl
@[simp] theorem endBlock_bpp : (endBlock s).bpp = s.bpp := by unfold endBlock; cases s.bfinal <;> rfl
@[simp] theorem endBlock_br : (endBlock s).br = s.br := by unfold endBlock; cases s.bfinal <;> rfl
@[simp] theorem endBlock_cmf : (endBlock s).cmf = s.cmf := by unfold endBlock; cases s.bfinal <;> rfl
@[simp] theorem endBlock_flg : (endBlock s).flg = s.flg := by unfold endBlock; cases s.bfinal <;> rfl
@[simp] theorem endBlock_bfinal : (endBlock s).bfinal = s.bfinal := by unfold endBlock; cases s.bfinal <;> rfl
@[simp] theorem endBlock_btype : (endBlock s).btype = s.btype := by unfold endBlock; cases s.bfinal <;> rfl
@[simp] theorem endBlock_slen : (endBlock s).slen = s.slen := by unfold endBlock; cases s.bfinal <;> rfl
@[simp] theorem endBlock_snlen : (endBlock s).snlen = s.snlen := by unfold endBlock; cases s.bfinal <;> rfl
@[simp] theorem endBlock_hlit : (endBlock s).hlit = s.hlit := by unfold endBlock; cases s.bfinal <;> rfl
@[simp] theorem endBlock_hdist : (endBlock s).hdist = s.hdist := by unfold endBlock; cases s.bfinal <;> rfl
@[simp] theorem endBlock_hclen : (endBlock s).hclen = s.hclen := by unfold endBlock; cases s.bfinal <;> rfl
@[simp] theorem endBlock_clLens : (endBlock s).clLens = s.clLens := by unfold endBlock; cases s.bfinal <;> rfl
@[simp] theorem endBlock_lens : (endBlock s).lens = s.lens := by unfold endBlock; cases s.bfinal <;> rfl
@[simp] theorem endBlock_litTree : (endBlock s).litTree = noTree := by unfold endBlock; cases s.bfinal <;> rfl
@[simp] theorem endBlock_distTree : (endBlock s).distTree = noTree := by unfold endBlock; cases s.bfinal <;> rfl
@[simp] theorem endBlock_clTree : (endBlock s).clTree = noTree := by unfold endBlock; cases s.bfinal <;> rfl
@[simp] theorem endBlock_matchLen : (endBlock s).matchLen = s.matchLen := by unfold endBlock; cases s.bfinal <;> rfl
@[simp] theorem endBlock_row : (endBlock s).row = s.row := by unfold endBlock; cases s.bfinal <;> rfl
@[simp] theorem endBlock_prev : (endBlock s).prev = s.prev := by unfold endBlock; cases s.bfinal <;> rfl
@[simp] theorem endBlock_cur : (endBlock s).cur = s.cur := by unfold endBlock; cases s.bfinal <;> rfl
@[simp] theorem endBlock_faultCode : (endBlock s).faultCode = s.faultCode := by unfold endBlock; cases s.bfinal <;> rfl
@[simp] theorem endBlock_inSpace : (endBlock s).inSpace = s.inSpace := by unfold endBlock; cases s.bfinal <;> rfl
@[simp] theorem endBlock_inDraw : (endBlock s).inDraw = s.inDraw := by unfold endBlock; cases s.bfinal <;> rfl
@[simp] theorem endBlock_zbuf : (endBlock s).zbuf = s.zbuf := by unfold endBlock; cases s.bfinal <;> rfl
@[simp] theorem endBlock_out : (endBlock s).out = s.out := by unfold endBlock; cases s.bfinal <;> rfl
@[simp] theorem endBlock_pix : (endBlock s).pix = s.pix := by unfold endBlock; cases s.bfinal <;> rfl

end endBlock

end Sys2Proof.Machine
end

