-- ==== Sys2Proof/Laws/Ops.lean ====
section
/-! SUPPORT. The laws of sequencing, and one lemma per shared operation that says what it can do. -/

namespace Sys2Proof.Machine

@[simp] theorem Run.andThen_ok {α β : Type} (a : α) (s : State) (k : α → State → Run β) :
    (Run.ok a s).andThen k = k a s := rfl

@[simp] theorem Run.andThen_raised {α β : Type} (c : Cause) (s : State) (k : α → State → Run β) :
    (Run.raised c s : Run α).andThen k = .raised c s := rfl

@[simp] theorem Run.andThen_stop {α β : Type} (f : Fault) (k : α → State → Run β) :
    (Run.stop f : Run α).andThen k = .stop f := rfl

@[simp] theorem Run.outcome_ok (s : State) : (Run.ok () s).outcome = .next s := rfl

@[simp] theorem Run.outcome_raised (c : Cause) (s : State) : (Run.raised c s).outcome = .next (raise c s) := rfl

@[simp] theorem Run.outcome_stop (f : Fault) : (Run.stop f).outcome = .fault f := rfl

theorem Run.andThen_assoc {α β γ : Type} (r : Run α) (k : α → State → Run β) (l : β → State → Run γ) :
    (r.andThen k).andThen l = r.andThen fun a s => (k a s).andThen l := by cases r <;> rfl

/-- `P` holds of the state a part ends in, by its end or by a raise, and `Q` of the causes it raises. -/
def Run.Ends {α : Type} (P : State → Prop) (Q : Cause → Prop) (r : Run α) : Prop :=
  match r with
  | .ok _ s => P s
  | .raised c s => Q c ∧ P s
  | .stop _ => True

theorem Run.Ends.andThen {α β : Type} {P P' : State → Prop} {Q : Cause → Prop} {r : Run α} {k : α → State → Run β}
    (h : r.Ends P Q) (hk : ∀ a s, P s → (k a s).Ends P' Q) (hr : ∀ s, P s → P' s) : (r.andThen k).Ends P' Q := by
  cases r with
  | ok a s => exact hk a s h
  | raised c s => exact ⟨h.1, hr s h.2⟩
  | stop f => trivial

/-- The shape of the whole element: what its parts' states satisfy, its next state satisfies, a raise aside. -/
theorem Run.Ends.outcome {P P' : State → Prop} {Q : Cause → Prop} {r : Run Unit} (h : r.Ends P Q)
    (hok : ∀ s, P s → P' s) (hr : ∀ c s, Q c → P s → P' (raise c s)) {t : State} (ht : r.outcome = .next t) : P' t := by
  cases r with
  | ok a s => simp only [Run.outcome, Host.Outcome.next.injEq] at ht; subst ht; exact hok s h
  | raised c s => simp only [Run.outcome, Host.Outcome.next.injEq] at ht; subst ht; exact hr c s h.1 h.2
  | stop f => simp [Run.outcome] at ht

theorem Run.Ends.mono {α : Type} {P P' : State → Prop} {Q Q' : Cause → Prop} {r : Run α} (h : r.Ends P Q)
    (hp : ∀ s, P s → P' s) (hq : ∀ c, Q c → Q' c) : r.Ends P' Q' := by
  cases r with
  | ok a s => exact hp s h
  | raised c s => exact ⟨hq c h.1, hp s h.2⟩
  | stop f => trivial

/-- What `emit` can do (R189). -/
theorem emit_cases (v : Byte) (s : State) :
    (hasRoom s 1 = true ∧ emit v s = .ok () { s with out := Memory.append s.out v }) ∨
    (hasRoom s 1 = false ∧ emit v s = .raised .outputCapacity s) := by
  unfold emit
  cases h : hasRoom s 1
  · exact .inr ⟨rfl, rfl⟩
  · exact .inl ⟨rfl, rfl⟩

/-- A copy appends: it answers the space with as many bytes appended as asked. -/
theorem copyBytes_append {d n : Nat} {m m' : Memory} (h : copyBytes d n m = some m') :
    ∃ vs : List Byte, vs.length = n ∧ m' = Memory.appendAll m vs := by
  induction n generalizing m with
  | zero => cases h; exact ⟨[], rfl, rfl⟩
  | succ n ih =>
    simp only [copyBytes] at h
    split at h
    · cases h
    · rename_i v _
      obtain ⟨vs, hl, rfl⟩ := ih h
      exact ⟨v :: vs, by simp [hl], rfl⟩

/-- In a dense space a copy from a distance within it always runs (R187, R188). -/
theorem copyBytes_isSome {d : Nat} (hd : 0 < d) (n : Nat) {m : Memory} (hm : Memory.dense m = true)
    (hle : d ≤ Memory.len m) : ∃ m', copyBytes d n m = some m' := by
  induction n generalizing m with
  | zero => exact ⟨m, rfl⟩
  | succ n ih =>
    have hlt : Memory.len m - d < (m.map Prod.snd).length := by
      rw [List.length_map, ← Memory.len_of_dense hm]; omega
    have hr : Memory.read m (Memory.len m - d) = some ((m.map Prod.snd)[Memory.len m - d]) := by
      rw [Memory.read_of_dense hm, List.getElem?_eq_getElem hlt]
    simp only [copyBytes, hr]
    exact ih (Memory.dense_append hm _) (by rw [Memory.len_append]; omega)

/-- What `copyMatch` can do (R188). -/
theorem copyMatch_cases (n d : Nat) (s : State) :
    (hasRoom s n = false ∧ copyMatch n d s = .raised .outputCapacity s) ∨
    (copyBytes d n s.out = none ∧ copyMatch n d s = .stop .absentByte) ∨
    (hasRoom s n = true ∧ ∃ m, copyBytes d n s.out = some m ∧ copyMatch n d s = .ok () { s with out := m }) := by
  unfold copyMatch
  cases hasRoom s n
  · exact .inl ⟨rfl, rfl⟩
  · cases h : copyBytes d n s.out with
    | none => exact .inr (.inl ⟨rfl, by simp⟩)
    | some m => exact .inr (.inr ⟨rfl, m, rfl, by simp⟩)

/-- What the move to phase ZLIB_HDR can do (R293, R247). -/
theorem enterZlib_cases (s : State) :
    (2 ^ s.cfg.addrBits ≤ need s ∧ enterZlib s = .raised .sizeOverflow s) ∨
    (need s < 2 ^ s.cfg.addrBits ∧
      enterZlib s = .ok () { s with phase := .zlibHdr, br := { pos := 0, acc := 0, cnt := 0 } }) := by
  unfold enterZlib
  split
  · exact .inl ⟨‹_›, rfl⟩
  · exact .inr ⟨by omega, rfl⟩

/-- The state in which the defilter begins (R260). -/
def defilterStart (s : State) : State :=
  { s with phase := .defilter, row := 0, prev := List.replicate (stride s) 0 }

/-- What the move to phase DEFILTER can do (R260). -/
theorem enterDefilter_cases (s : State) :
    (Memory.len s.out < need s ∧ enterDefilter s = .raised .shortImageData { s with phase := .defilter }) ∨
    (need s ≤ Memory.len s.out ∧ s.h.toNat = 0 ∧ enterDefilter s = .ok () (finishJob (defilterStart s))) ∨
    (need s ≤ Memory.len s.out ∧ 0 < s.h.toNat ∧ enterDefilter s = .ok () (defilterStart s)) := by
  unfold enterDefilter
  by_cases h : Memory.len s.out < need s
  · exact .inl ⟨h, if_pos h⟩
  · have hn : ¬ Memory.len s.out < need { s with phase := .defilter } := h
    by_cases h0 : s.h.toNat = 0
    · exact .inr (.inl ⟨by omega, h0, by simp only [if_neg hn, if_pos h0]; rfl⟩)
    · exact .inr (.inr ⟨by omega, by omega, by simp only [if_neg hn, if_neg h0]; rfl⟩)

/-- What the end of a row can do (R260, R296). -/
theorem nextRow_cases (s : State) :
    (s.h.toNat ≤ s.row + 1 ∧ nextRow s = finishJob { s with prev := s.cur, row := s.row + 1 }) ∨
    (s.row + 1 < s.h.toNat ∧ nextRow s = { s with prev := s.cur, row := s.row + 1 }) := by
  unfold nextRow
  by_cases h : s.h.toNat ≤ s.row + 1
  · exact .inl ⟨h, if_pos h⟩
  · exact .inr ⟨by omega, if_neg h⟩

/-- A reconstructed row has a byte for each filtered byte (R261). -/
theorem reconstruct_length {pred : Byte → Byte → Byte → Byte} {bpp : Nat} {prev cur xs r : List Byte}
    (h : reconstruct pred bpp prev cur xs = some r) : r.length = cur.length + xs.length := by
  induction xs generalizing cur with
  | nil => cases h; simp
  | cons x xs ih =>
    simp only [reconstruct] at h
    split at h
    · have := ih h; simp at this ⊢; omega
    · cases h

/-- A row is reconstructed whenever the previous row is long enough and a pixel has a byte (R262). -/
theorem reconstruct_isSome (pred : Byte → Byte → Byte → Byte) {bpp : Nat} (hb : 0 < bpp) {prev cur : List Byte}
    (xs : List Byte) (h : cur.length + xs.length ≤ prev.length) : ∃ r, reconstruct pred bpp prev cur xs = some r := by
  induction xs generalizing cur with
  | nil => exact ⟨cur, rfl⟩
  | cons x xs ih =>
    simp only [List.length_cons] at h
    have hleft : ∀ line : List Byte, cur.length ≤ line.length → ∃ a, leftOf bpp cur.length line = some a := by
      intro line hl
      unfold leftOf
      by_cases hc : bpp ≤ cur.length
      · rw [if_pos hc, List.getElem?_eq_getElem (show cur.length - bpp < line.length by omega)]; exact ⟨_, rfl⟩
      · rw [if_neg hc]; exact ⟨_, rfl⟩
    obtain ⟨a, ha⟩ := hleft cur (le_refl _)
    obtain ⟨c, hc⟩ := hleft prev (by omega)
    have hp : prev[cur.length]? = some prev[cur.length] := List.getElem?_eq_getElem (by omega)
    simp only [reconstruct, ha, hc, hp]
    exact ih (by simp; omega)

end Sys2Proof.Machine
end

