-- ==== Sys2Proof/Laws/Operands.lean ====
section
/-! SUPPORT. What the reads of `IN`, of bits and of bytes can do (R100 to R106, R230), each said once. -/

namespace Sys2Proof.Machine

/-- A state that differs from `s` in the BitReader's registers alone. -/
def readerOnly (s t : State) : Prop := t = { s with br := t.br }

theorem readerOnly.refl (s : State) : readerOnly s s := rfl

theorem readerOnly.trans {s t u : State} (h : readerOnly s t) (k : readerOnly t u) : readerOnly s u := by
  unfold readerOnly at *; rw [k, h]

theorem readerOnly.zbuf {s t : State} (h : readerOnly s t) : t.zbuf = s.zbuf := by rw [h]

theorem pendingBits_succ (p : Nat) (acc : Byte) (n : Nat) :
    pendingBits { pos := p, acc := acc, cnt := n + 1 } =
      acc.getLsbD 0 :: pendingBits { pos := p, acc := acc >>> 1, cnt := n } := by
  simp [pendingBits, List.range_succ_eq_map, BitVec.getLsbD_ushiftRight, Function.comp_def, Nat.add_comm]

theorem pendingBits_zero (p : Nat) (acc : Byte) : pendingBits { pos := p, acc := acc, cnt := 0 } = [] := rfl

theorem pendingBits_byte (p : Nat) (b : Byte) : pendingBits { pos := p, acc := b, cnt := 8 } = byteBits b := rfl

/-- What `read_bit` can do (R100). -/
theorem readBit_ends (s : State) : (readBit s).Ends (readerOnly s) (· = .outOfData) := by
  unfold readBit
  split
  · split
    · exact ⟨rfl, rfl⟩
    · split
      · trivial
      · rfl
  · rfl

/-- What `read_bits` can do (R101). -/
theorem readBits_ends (n : Nat) (s : State) : (readBits n s).Ends (readerOnly s) (· = .outOfData) := by
  induction n generalizing s with
  | zero => rfl
  | succ n ih =>
    refine (readBit_ends s).andThen (fun b t ht => ?_) (fun t ht => ht)
    refine Run.Ends.andThen (P := readerOnly s) ((ih t).mono (fun u hu => ht.trans hu) fun _ h => h) ?_ fun _ h => h
    exact fun _ u hu => hu

/-- The next bit, when there is one (R100, R71). -/
theorem readBit_cons {s : State} (hz : Memory.dense s.zbuf = true) (hr : ReaderOk s) {b : Bool} {rest : List Bool}
    (h : bitsAhead s = b :: rest) :
    ∃ t, readBit s = .ok b t ∧ readerOnly s t ∧ ReaderOk t ∧ bitsAhead t = rest ∧ bitpos t = bitpos s + 1 := by
  obtain ⟨h7, h8, ha, hp⟩ := hr
  rcases hs : s.br with ⟨p, acc, cnt⟩
  rw [hs] at h7 h8 ha hp
  simp only at h7 h8 ha hp
  cases cnt with
  | zero =>
    have hb : bitsAhead s = bytesBits (Memory.bytesFrom p s.zbuf) := by simp [bitsAhead, hs, pendingBits]
    rw [hb] at h
    cases hm : Memory.read s.zbuf p with
    | none =>
      rw [Memory.bytesFrom_of_read_none (Memory.wf_of_dense hz) hm] at h
      cases h
    | some v =>
      have hlt : p < Memory.len s.zbuf := by
        by_contra hge
        rw [Memory.read_len_le (Memory.wf_of_dense hz) (by omega)] at hm
        cases hm
      rw [Memory.bytesFrom_of_read (Memory.wf_of_dense hz) hm, bytesBits, ← pendingBits_byte p, pendingBits_succ] at h
      simp only [List.cons_append, List.cons.injEq] at h
      refine ⟨{ s with br := { pos := p + 1, acc := v >>> 1, cnt := 7 } },
        by simp only [readBit, hs, if_pos, hm, if_neg (Nat.not_le.2 hlt), h.1], rfl, ?_, ?_, ?_⟩
      · refine ⟨le_refl 7, by simp only; omega, ?_, by simp only; omega⟩
        simp only [BitVec.toNat_ushiftRight, Nat.shiftRight_eq_div_pow]
        have := v.isLt; omega
      · rw [← h.2]; rfl
      · simp [bitpos, hs]; omega
  | succ n =>
    have hb : bitsAhead s = acc.getLsbD 0 ::
        (pendingBits { pos := p, acc := acc >>> 1, cnt := n } ++ bytesBits (Memory.bytesFrom p s.zbuf)) := by
      simp [bitsAhead, hs, pendingBits_succ]
    rw [hb] at h
    simp only [List.cons.injEq] at h
    refine ⟨{ s with br := { pos := p, acc := acc >>> 1, cnt := n } },
      by simp only [readBit, hs, if_neg (Nat.succ_ne_zero n), h.1, Nat.add_sub_cancel], rfl, ?_, ?_, ?_⟩
    · refine ⟨by simp only; omega, by simp only; omega, ?_, hp⟩
      simp only [BitVec.toNat_ushiftRight, Nat.shiftRight_eq_div_pow]
      rw [Nat.pow_succ] at ha; omega
    · rw [← h.2]; rfl
    · simp [bitpos, hs]; omega

/-- With no bit ahead, `read_bit` raises (R100). -/
theorem readBit_nil {s : State} (hz : Memory.dense s.zbuf = true) (h : bitsAhead s = []) :
    readBit s = .raised .outOfData s := by
  rcases hs : s.br with ⟨p, acc, cnt⟩
  cases cnt with
  | succ n => simp [bitsAhead, hs, pendingBits_succ] at h
  | zero =>
    have hge : Memory.len s.zbuf ≤ p := by
      by_contra hlt
      simp only [bitsAhead, hs, pendingBits_zero, List.nil_append] at h
      have := congrArg List.length h
      rw [Memory.bytesFrom_of_dense hz, length_bytesBits, List.length_drop, List.length_map,
        ← Memory.len_of_dense hz] at this
      simp only [List.length_nil] at this; omega
    simp [readBit, hs, hge]

/-- A field, when its bits are there (R101, R71). -/
theorem readBits_ok {s : State} (hz : Memory.dense s.zbuf = true) (hr : ReaderOk s) {n : Nat}
    (h : n ≤ (bitsAhead s).length) :
    ∃ t, readBits n s = .ok (bitsVal ((bitsAhead s).take n)) t ∧ readerOnly s t ∧ ReaderOk t ∧
      bitsAhead t = (bitsAhead s).drop n ∧ bitpos t = bitpos s + n := by
  induction n generalizing s with
  | zero => exact ⟨s, rfl, rfl, hr, rfl, rfl⟩
  | succ n ih =>
    cases hb : bitsAhead s with
    | nil => rw [hb] at h; simp at h
    | cons b rest =>
      obtain ⟨t, h1, h2, h3, h4, h5⟩ := readBit_cons hz hr hb
      obtain ⟨u, k1, k2, k3, k4, k5⟩ := ih (s := t) (by rw [h2.zbuf]; exact hz) h3 (by rw [h4]; rw [hb] at h; simpa using h)
      refine ⟨u, ?_, h2.trans k2, k3, by rw [k4, h4]; rfl, by rw [k5, h5]; omega⟩
      simp only [readBits, h1, Run.andThen_ok, k1, h4, List.take_succ_cons, bitsVal]

/-- A field whose bits are not all there raises (R101). -/
theorem readBits_short {s : State} (hz : Memory.dense s.zbuf = true) (hr : ReaderOk s) {n : Nat}
    (h : (bitsAhead s).length < n) :
    ∃ t, readBits n s = .raised .outOfData t ∧ readerOnly s t ∧ ReaderOk t ∧ bitsAhead t = [] ∧
      bitpos t = bitpos s + (bitsAhead s).length := by
  induction n generalizing s with
  | zero => omega
  | succ n ih =>
    cases hb : bitsAhead s with
    | nil => exact ⟨s, by simp only [readBits, readBit_nil hz hb, Run.andThen_raised], rfl, hr, hb, by simp⟩
    | cons b rest =>
      obtain ⟨t, h1, h2, h3, h4, h5⟩ := readBit_cons hz hr hb
      obtain ⟨u, k1, k2, k3, k4, k5⟩ := ih (s := t) (by rw [h2.zbuf]; exact hz) h3 (by rw [h4]; rw [hb] at h; simpa using h)
      refine ⟨u, by simp only [readBits, h1, Run.andThen_ok, k1, Run.andThen_raised], h2.trans k2, k3, k4, ?_⟩
      rw [k5, h5, h4]; simp only [List.length_cons]; omega

/-- What `read_byte` can do (R102). -/
theorem readByte_ends (s : State) : (readByte s).Ends (readerOnly s) (· = .outOfData) := by
  unfold readByte alignReader
  simp only
  split
  · exact ⟨rfl, rfl⟩
  · split
    · trivial
    · rfl

/-- What `read_bytes` can do (R103). -/
theorem readBytes_ends (n : Nat) (s : State) : (readBytes n s).Ends (readerOnly s) (· = .outOfData) := by
  induction n generalizing s with
  | zero => rfl
  | succ n ih =>
    refine (readByte_ends s).andThen (fun b t ht => ?_) (fun t ht => ht)
    refine Run.Ends.andThen (P := readerOnly s) ((ih t).mono (fun u hu => ht.trans hu) fun _ h => h) ?_ fun _ h => h
    exact fun _ u hu => hu

/-- The next whole byte, when `ZBUF` holds it (R102). -/
theorem readByte_ok {s : State} (hz : Memory.dense s.zbuf = true) (h : s.br.pos < Memory.len s.zbuf) :
    ∃ b, Memory.read s.zbuf s.br.pos = some b ∧ readByte s = .ok b (afterBytes 1 s) := by
  have hlt : s.br.pos < (s.zbuf.map Prod.snd).length := by
    rw [List.length_map, ← Memory.len_of_dense hz]; exact h
  have hm := Memory.read_of_dense hz s.br.pos
  rw [List.getElem?_eq_getElem hlt] at hm
  exact ⟨_, hm, by simp [readByte, alignReader, afterBytes, hm, Nat.not_le.2 h]⟩

/-- At the end of `ZBUF`, `read_byte` raises, the pending bits gone (R102). -/
theorem readByte_end {s : State} (h : Memory.len s.zbuf ≤ s.br.pos) :
    readByte s = .raised .outOfData (alignReader s) := by
  simp [readByte, alignReader, h]

/-- A little-endian number, when `ZBUF` holds its bytes (R103). -/
theorem readBytes_ok {s : State} (hz : Memory.dense s.zbuf = true) {n : Nat} (h : s.br.pos + (n + 1) ≤ Memory.len s.zbuf) :
    ∃ v, readBytes (n + 1) s = .ok v (afterBytes (n + 1) s) := by
  induction n generalizing s with
  | zero =>
    obtain ⟨b, _, hb⟩ := readByte_ok hz (by omega)
    exact ⟨_, by simp only [readBytes, hb, Run.andThen_ok]; rfl⟩
  | succ n ih =>
    obtain ⟨b, _, hb⟩ := readByte_ok hz (by omega)
    obtain ⟨v, hv⟩ := ih (s := afterBytes 1 s) hz (by simp only [afterBytes]; omega)
    refine ⟨b.toNat + 256 * v, ?_⟩
    rw [readBytes, hb, Run.andThen_ok, hv, Run.andThen_ok]
    simp only [afterBytes, Nat.add_assoc, Nat.add_comm 1]

/-- A number whose bytes are not all there raises (R103). -/
theorem readBytes_short {s : State} (hz : Memory.dense s.zbuf = true) {n : Nat}
    (h : Memory.len s.zbuf < s.br.pos + (n + 1)) : ∃ t, readBytes (n + 1) s = .raised .outOfData t ∧ readerOnly s t := by
  induction n generalizing s with
  | zero => exact ⟨alignReader s, by simp only [readBytes, readByte_end (show Memory.len s.zbuf ≤ s.br.pos by omega),
      Run.andThen_raised], rfl⟩
  | succ n ih =>
    by_cases he : Memory.len s.zbuf ≤ s.br.pos
    · exact ⟨alignReader s, by rw [readBytes, readByte_end he, Run.andThen_raised], rfl⟩
    · obtain ⟨b, _, hb⟩ := readByte_ok hz (by omega)
      obtain ⟨t, ht, hr⟩ := ih (s := afterBytes 1 s) hz (by simp only [afterBytes]; omega)
      exact ⟨t, by rw [readBytes, hb, Run.andThen_ok, ht, Run.andThen_raised],
        readerOnly.trans (s := s) (t := afterBytes 1 s) rfl hr⟩

@[simp] theorem inByte_pcur (s : State) (p a : Nat) : inByte { s with pcur := p } a = inByte s a := rfl

/-- A byte of `IN` that the host has written reads as written (R12). -/
theorem inByte_of_read {s : State} {a : Nat} {v : Byte} (h : Memory.read s.inSpace a = some v) : inByte s a = v := by
  simp [inByte, h]

@[simp] theorem length_inBytes (s : State) (a n : Nat) : (inBytes s a n).length = n := by
  induction n generalizing a with
  | zero => rfl
  | succ n ih => simp [inBytes, ih]

theorem getElem?_inBytes (s : State) (a n k : Nat) : (inBytes s a n)[k]? = if k < n then some (inByte s (a + k)) else none := by
  induction n generalizing a k with
  | zero => simp [inBytes]
  | succ n ih =>
    cases k with
    | zero => simp [inBytes]
    | succ k => simp [inBytes, ih, Nat.add_assoc, Nat.add_comm 1]

/-- Bytes of `IN` known one by one, as a list. -/
theorem inBytes_eq {s : State} {a n : Nat} {v : List Byte} (hl : v.length = n)
    (h : ∀ k < n, v[k]? = some (inByte s (a + k))) : inBytes s a n = v := by
  apply List.ext_getElem?
  intro k
  rw [getElem?_inBytes]
  split
  · exact (h k ‹_›).symm
  · exact (List.getElem?_eq_none (by omega)).symm

/-- A longer run of bytes of `IN`, its first part taken off. -/
theorem inBytes_add (s : State) (a m n : Nat) : inBytes s a (m + n) = inBytes s a m ++ inBytes s (a + m) n := by
  induction m generalizing a with
  | zero => simp [inBytes]
  | succ m ih => simp [inBytes, Nat.add_right_comm m 1 n, ih, Nat.add_assoc, Nat.add_comm 1]

/-- Two states that agree on the bytes of `IN` from `a` to `a + n` read the same there. -/
theorem inBytes_congr {s t : State} {a n : Nat} (h : ∀ k < n, inByte t (a + k) = inByte s (a + k)) :
    inBytes t a n = inBytes s a n :=
  inBytes_eq (length_inBytes s a n) fun k hk => by rw [getElem?_inBytes, if_pos hk, h k hk]

/-- What a byte read of `IN` can do (R230). -/
theorem rd8_ends (s : State) : (rd8 s).Ends (fun t => t = s ∨ t = { s with pcur := s.pcur + 1 }) (· = .outOfData) := by
  unfold rd8
  split
  · exact ⟨rfl, .inl rfl⟩
  · exact .inr rfl

theorem rd8_ok {s : State} (h : s.pcur < s.lenIn) : rd8 s = .ok (inByte s s.pcur) { s with pcur := s.pcur + 1 } :=
  if_neg (Nat.not_le.2 h)

/-- A read of `IN` past its length raises, nothing read (R230). -/
theorem rd8_short {s : State} (h : s.lenIn ≤ s.pcur) : rd8 s = .raised .outOfData s := if_pos h

/-- A big-endian word of `IN` (R230). -/
theorem rd32_ok {s : State} (h : s.pcur + 4 ≤ s.lenIn) :
    rd32 s = .ok (be32 (inByte s s.pcur) (inByte s (s.pcur + 1)) (inByte s (s.pcur + 2)) (inByte s (s.pcur + 3)))
      { s with pcur := s.pcur + 4 } := by
  rw [rd32, rd8_ok (by omega), Run.andThen_ok, rd8_ok (by simp only; omega), Run.andThen_ok,
    rd8_ok (by simp only; omega), Run.andThen_ok, rd8_ok (by simp only; omega), Run.andThen_ok]
  rfl

/-- A word that is cut short raises, the bytes before the end read (R230). -/
theorem rd32_short {s : State} (h : s.lenIn < s.pcur + 4) :
    rd32 s = .raised .outOfData { s with pcur := max s.pcur s.lenIn } := by
  rw [rd32]
  by_cases h0 : s.lenIn ≤ s.pcur
  · rw [rd8_short h0, Nat.max_eq_left h0]; rfl
  rw [rd8_ok (by omega), Run.andThen_ok]
  by_cases h1 : s.lenIn ≤ s.pcur + 1
  · rw [rd8_short h1, show max s.pcur s.lenIn = s.pcur + 1 by omega]; rfl
  rw [rd8_ok (by simp only; omega), Run.andThen_ok]
  by_cases h2 : s.lenIn ≤ s.pcur + 2
  · rw [rd8_short h2, show max s.pcur s.lenIn = s.pcur + 1 + 1 by omega]; rfl
  rw [rd8_ok (by simp only; omega), Run.andThen_ok, rd8_short (by simp only; omega),
    show max s.pcur s.lenIn = s.pcur + 1 + 1 + 1 by omega]
  rfl

/-- A list of bytes of `IN` (R230). -/
theorem rdn_ok {s : State} {n : Nat} (h : s.pcur + n ≤ s.lenIn) :
    rdn n s = .ok (inBytes s s.pcur n) { s with pcur := s.pcur + n } := if_neg (by omega)

theorem rdn_short {s : State} {n : Nat} (h : s.lenIn < s.pcur + n) : rdn n s = .raised .outOfData s := if_pos h

theorem skip_ok {s : State} {n : Nat} (h : s.pcur + n ≤ s.lenIn) : skip n s = .ok () { s with pcur := s.pcur + n } :=
  if_neg (by omega)

theorem skip_short {s : State} {n : Nat} (h : s.lenIn < s.pcur + n) : skip n s = .raised .outOfData s := if_pos h

end Sys2Proof.Machine
end

