-- ==== Sys2Proof/Laws/Step.lean ====
section
/-! SUPPORT. What a step is: the engine's step when the host has no move left, and the fetch in each phase (R34, R290). -/

namespace Sys2Proof.Machine

theorem step_engine {s : State} (h : s.host = []) : step s = engineStep s := by simp only [step, agentStep, h]

theorem step_host {s : State} {m : HostMove} {rest : List HostMove} (h : s.host = m :: rest) :
    step s = match m with
      | .load offset bytes => hostLoad { s with host := rest } offset bytes
      | .writeReg index value => .next (hostWriteReg { s with host := rest } index value)
      | .readReg index => .next { s with host := rest, hostRead := hostReadReg { s with host := rest } index }
      | .readPix offset => hostReadPix { s with host := rest } offset
      | .tick => engineStep { s with host := rest }
      | .wait => if isBusy s then engineStep s else .next { s with host := rest }
      | .powerOn => .next (powerOn { s with host := rest }) := by
  simp only [step, agentStep, h]; cases m <;> rfl

/-- A fetch that answers an element: the step is the element's meaning. -/
theorem engineStep_element {s t : State} {i : Instr} (h : fetch s = .element i t) : engineStep s = exec i t := by
  simp only [engineStep, h]

theorem engineStep_raised {s t : State} {c : Cause} (h : fetch s = .raised c t) : engineStep s = .next (raise c t) := by
  simp only [engineStep, h]

theorem engineStep_idle {s : State} (h : fetch s = .idle) : engineStep s = .next s := by simp only [engineStep, h]

theorem engineStep_stop {s : State} {f : Fault} (h : fetch s = .stop f) : engineStep s = .fault f := by
  simp only [engineStep, h]

theorem fetch_signature {s : State} (h : s.phase = .png) (k : s.pngPos = .signature) : fetch s = fetchSignature s := by
  simp only [fetch, h, k]

theorem fetch_firstChunk {s : State} (h : s.phase = .png) (k : s.pngPos = .firstChunk) :
    fetch s = fetchChunk .firstChunk s := by simp only [fetch, h, k]

theorem fetch_chunkLoop {s : State} (h : s.phase = .png) (k : s.pngPos = .chunkLoop) : fetch s = fetchChunk .chunk s := by
  simp only [fetch, h, k]

theorem fetch_zlibHdr {s : State} (h : s.phase = .zlibHdr) :
    fetch s = .element (decodeZhdr (alignedBitsAhead s)) s := by simp only [fetch, h, fetchAfter, decode]

theorem fetch_blockHeader {s : State} (h : s.phase = .inflate) (k : s.infPos = .blockHeader) :
    fetch s = fetchAfter (blkHeader s) (decodeBlk (bitsAhead s)) := by simp only [fetch, h, k, decode]

theorem fetch_storedBlock {s : State} (h : s.phase = .inflate) (k : s.infPos = .storedBlock) :
    fetch s = .element (decodeStored (alignedBitsAhead s)) s := by simp only [fetch, h, k, fetchAfter, decode]

theorem fetch_dynHeader {s : State} (h : s.phase = .inflate) (k : s.infPos = .dynHeader) :
    fetch s = .element (decodeDyn (bitsAhead s)) s := by simp only [fetch, h, k, fetchAfter, decode]

theorem fetch_codeLengths {s : State} (h : s.phase = .inflate) (k : s.infPos = .codeLengths) :
    fetch s = fetchCoded s.clTree (.codeLength s.clTree) s := by simp only [fetch, h, k]

theorem fetch_symbols {s : State} (h : s.phase = .inflate) (k : s.infPos = .symbols) :
    fetch s = fetchCoded s.litTree (.symbol s.litTree) s := by simp only [fetch, h, k]

theorem fetch_distance {s : State} (h : s.phase = .inflate) (k : s.infPos = .distance) :
    fetch s = fetchCoded s.distTree (.distance s.distTree) s := by simp only [fetch, h, k]

theorem fetch_zlibTrl {s : State} (h : s.phase = .zlibTrl) :
    fetch s = .element (.ztrl (takeLe32 (alignedBitsAhead s)).1) s := by simp only [fetch, h, fetchAfter, decode]

theorem fetch_defilter {s : State} (h : s.phase = .defilter) : fetch s = fetchRow s := by simp only [fetch, h]

theorem fetch_idle {s : State} (h : isRunning s.phase = false) : fetch s = .idle := by
  unfold fetch; split <;> simp_all [isRunning]

theorem fetchAfter_ok {s : State} {d : Decoded} {i : Instr} (h : d = .element i) (t : State) :
    fetchAfter (.ok () t) d = .element i t := by rw [h]; rfl

end Sys2Proof.Machine
end

