-- ==== Sys2Proof/Laws/Elements.lean ====
section
/-! SUPPORT. What the shared parts of the elements can do, each said once: which registers they may write, whether they end or
raise, and that `OUT` only grows. -/

namespace Sys2Proof.Machine

/-- A run that ends in an element ends in a next state or in a fault, never in a refusal. -/
theorem Run.outcome_cases (r : Run Unit) :
    (∃ t, r = .ok () t ∧ r.outcome = .next t) ∨ (∃ c t, r = .raised c t ∧ r.outcome = .next (raise c t)) ∨
    (∃ f, r = .stop f ∧ r.outcome = .fault f) := by
  cases r with
  | ok a t => exact .inl ⟨t, rfl, rfl⟩
  | raised c t => exact .inr (.inl ⟨c, t, rfl, rfl⟩)
  | stop f => exact .inr (.inr ⟨f, rfl, rfl⟩)

/-- The bits of a field, when they are there, as `BitsRead` (R101). -/
theorem readBits_bitsRead {s : State} (h : StreamOk s) {n : Nat} (hn : n ≤ (bitsAhead s).length) :
    ∃ t, readBits n s = .ok (bitsVal ((bitsAhead s).take n)) t ∧ BitsRead n s t := by
  obtain ⟨t, h1, h2, h3, h4, h5⟩ := readBits_ok h.1 h.2 hn
  exact ⟨t, h1, h2, h4, h5, h3⟩

/-- The bits of a field that is cut short, as `BitsRead` (R101). -/
theorem readBits_bitsShort {s : State} (h : StreamOk s) {n : Nat} (hn : (bitsAhead s).length < n) :
    ∃ t, readBits n s = .raised .outOfData t ∧ BitsRead (bitsAhead s).length s t := by
  obtain ⟨t, h1, h2, h3, h4, h5⟩ := readBits_short h.1 h.2 hn
  exact ⟨t, h1, h2, by rw [h4, List.drop_length], h5, h3⟩

theorem BitsRead.stream {n : Nat} {s t : State} (h : BitsRead n s t) (hs : StreamOk s) : StreamOk t :=
  ⟨by rw [h.only]; exact hs.1, h.reader⟩

theorem BitsRead.trans {n k : Nat} {s t u : State} (h : BitsRead n s t) (g : BitsRead k t u) : BitsRead (n + k) s u :=
  ⟨readerOnly.trans h.only g.only, by rw [g.ahead, h.ahead, List.drop_drop], by rw [g.bitpos, h.bitpos, Nat.add_assoc],
    g.reader⟩

theorem hasRoom_iff (s : State) (n : Nat) : hasRoom s n = true ↔ roomFor s n := by
  unfold hasRoom roomFor; cases s.cfg.outCap <;> simp

theorem Appended.of_appendAll {m : Memory} (h : Memory.wf m = true) (vs : List Byte) :
    Appended m (Memory.appendAll m vs) vs := ⟨Memory.len_appendAll m vs, Memory.read_appendAll h vs⟩

/-- `OUT` has grown at its end, and nothing but the listed registers has changed. -/
def outGrown (s t : State) : Prop := ∃ vs, t.out = Memory.appendAll s.out vs

theorem outGrown.refl (s : State) : outGrown s s := ⟨[], rfl⟩

theorem outGrown.trans {s t u : State} (h : outGrown s t) (g : outGrown t u) : outGrown s u := by
  obtain ⟨xs, hx⟩ := h
  obtain ⟨ys, hy⟩ := g
  exact ⟨xs ++ ys, by rw [hy, hx, Memory.appendAll_concat]⟩

/-- The payload loop of a stored block (R152). -/
theorem storedLoop_ends (n : Nat) (vs : List Byte) (s : State) :
    (storedLoop n vs s).Ends (fun t => t = { s with br := t.br, out := t.out } ∧ outGrown s t)
      (fun c => c = .outOfData ∨ c = .outputCapacity) := by
  induction n generalizing vs s with
  | zero => exact ⟨rfl, outGrown.refl s⟩
  | succ n ih =>
    have hb := (readByte_ends s).mono
      (P' := fun t => t = { s with br := t.br, out := t.out } ∧ outGrown s t)
      (Q' := fun c => c = Cause.outOfData ∨ c = .outputCapacity)
      (fun t ht => ⟨by rw [ht], ⟨[], by rw [ht]; rfl⟩⟩) fun c hc => .inl hc
    cases vs with
    | nil => exact hb.andThen (fun b t ht => ⟨.inl rfl, ht⟩) fun t ht => ht
    | cons v vs =>
      refine hb.andThen (fun b t ht => ?_) fun t ht => ht
      rcases emit_cases v t with ⟨_, he⟩ | ⟨_, he⟩
      · rw [he, Run.andThen_ok]
        refine (ih vs _).mono (fun u hu => ⟨?_, ?_⟩) fun c hc => hc
        · rw [hu.1, ht.1]
        · exact ht.2.trans (outGrown.trans ⟨[v], rfl⟩ hu.2)
      · rw [he]; exact ⟨.inr rfl, ht⟩

/-- The code-length code lengths (R157). -/
theorem readClLens_ends (syms vs : List Nat) (s : State) :
    (readClLens syms vs s).Ends (fun t => t = { s with br := t.br, clLens := t.clLens }) (· = .outOfData) := by
  induction syms generalizing vs s with
  | nil => exact rfl
  | cons sym syms ih =>
    cases vs with
    | nil => exact rfl
    | cons v vs =>
      refine Run.Ends.andThen (P := fun t => t = { s with br := t.br, clLens := t.clLens })
        ((readBits_ends 3 s).mono (fun t ht => by rw [ht]) fun c hc => hc) (fun a t ht => ?_) fun t ht => ht
      exact (ih vs _).mono (fun u hu => by rw [hu, ht]) fun c hc => hc

/-- The end of the length sequence, or not yet (R159, R164). -/
theorem afterLengths_shape (s : State) :
    afterLengths s = { s with
      litTree := (afterLengths s).litTree, distTree := (afterLengths s).distTree, infPos := (afterLengths s).infPos } := by
  unfold afterLengths; split <;> rfl

theorem appendRepeat_ends (rep v : Nat) (s : State) :
    (appendRepeat rep v s).Ends
      (fun t => t = { s with lens := t.lens, litTree := t.litTree, distTree := t.distTree, infPos := t.infPos })
      (· = .repeatOverrun) := by
  unfold appendRepeat
  split
  · exact ⟨rfl, rfl⟩
  · change afterLengths _ = _
    unfold afterLengths; split <;> rfl

/-- What a repeat of code lengths can do (R162, R163). -/
theorem runZeros_ends (nbits rep : Nat) (s : State) :
    (runZeros nbits rep s).Ends
      (fun t => t = { s with
        br := t.br, lens := t.lens, litTree := t.litTree, distTree := t.distTree, infPos := t.infPos })
      (fun c => c = .outOfData ∨ c = .repeatOverrun) := by
  refine Run.Ends.andThen (P := fun t => t = { s with
        br := t.br, lens := t.lens, litTree := t.litTree, distTree := t.distTree, infPos := t.infPos })
    ((readBits_ends nbits s).mono (fun t ht => by rw [ht]) fun c hc => .inl hc) (fun a t ht => ?_) fun t ht => ht
  exact (appendRepeat_ends rep 0 t).mono (fun u hu => by rw [hu, ht]) fun c hc => .inr hc

/-- What a repeat of the previous code length can do (R161). -/
theorem runRepeatPrev_ends (rep : Nat) (s : State) :
    (runRepeatPrev rep s).Ends
      (fun t => t = { s with
        br := t.br, lens := t.lens, litTree := t.litTree, distTree := t.distTree, infPos := t.infPos })
      (fun c => c = .repeatNoPrevious ∨ c = .outOfData ∨ c = .repeatOverrun) := by
  unfold runRepeatPrev
  split
  · exact ⟨.inl rfl, rfl⟩
  · refine Run.Ends.andThen (P := fun t => t = { s with
        br := t.br, lens := t.lens, litTree := t.litTree, distTree := t.distTree, infPos := t.infPos })
      ((readBits_ends 2 s).mono (fun t ht => by rw [ht]) fun c hc => .inr (.inl hc)) (fun a t ht => ?_) fun t ht => ht
    exact (appendRepeat_ends rep _ t).mono (fun u hu => by rw [hu, ht]) fun c hc => .inr (.inr hc)

/-- What a length symbol can do (R183). -/
theorem runLen_ends (sym extra : Nat) (s : State) :
    (runLen sym extra s).Ends (fun t => t = { s with br := t.br, matchLen := t.matchLen, infPos := t.infPos })
      (· = .outOfData) := by
  unfold runLen
  generalize lenExtra.getD (sym - 257) 0 = n
  generalize lenBase.getD (sym - 257) 0 + extra = length
  refine Run.Ends.andThen (P := fun t => t = { s with br := t.br, matchLen := t.matchLen, infPos := t.infPos })
    ((readBits_ends n s).mono (fun t ht => by rw [ht]) fun c hc => hc) (fun a t ht => ?_) fun t ht => ht
  change _ = _; rw [ht]

/-- What a distance symbol can do (R183, R187, R188). -/
theorem runDist_ends (sym extra : Nat) (s : State) :
    (runDist sym extra s).Ends (fun t => t = { s with br := t.br, infPos := t.infPos, out := t.out } ∧ outGrown s t)
      (fun c => c = .outOfData ∨ c = .distanceTooFar ∨ c = .outputCapacity) := by
  refine Run.Ends.andThen
    (P := fun t => t = { s with br := t.br, infPos := t.infPos, out := t.out } ∧ outGrown s t)
    ((readBits_ends _ s).mono (fun t ht => ⟨by rw [ht], ⟨[], by rw [ht]; rfl⟩⟩) fun c hc => .inl hc)
    (fun a t ht => ?_) fun t ht => ht
  simp only
  split
  · exact ⟨.inr (.inl rfl), ht⟩
  · rcases copyMatch_cases t.matchLen (distBase.getD sym 0 + extra) t with ⟨_, h⟩ | ⟨_, h⟩ | ⟨_, m, hm, h⟩
    · rw [h]; exact ⟨.inr (.inr rfl), ht⟩
    · rw [h]; trivial
    · obtain ⟨vs, _, rfl⟩ := copyBytes_append hm
      rw [h]
      exact ⟨by rw [ht.1], ht.2.trans ⟨vs, rfl⟩⟩

/-- The walk of a Huffman decode moves the reader alone (R128). -/
theorem huffDecode_ends (t : Tree) (s : State) : (huffDecode t s).Ends (readerOnly s) (fun _ => True) := by
  unfold huffDecode
  split
  · exact ((readBits_ends _ s).mono (fun _ h => h) fun _ _ => trivial).andThen (fun _ _ h => h) fun _ h => h
  · exact ((readBits_ends _ s).mono (fun _ h => h) fun _ _ => trivial).andThen (fun _ _ h => ⟨trivial, h⟩) fun _ h => h
  · exact ((readBits_ends _ s).mono (fun _ h => h) fun _ _ => trivial).andThen (fun _ _ h => ⟨trivial, h⟩) fun _ h => h
  · trivial

/-- The block header moves the reader and writes the block registers (R151). -/
theorem blkHeader_ends (s : State) :
    (blkHeader s).Ends (fun t => t = { s with br := t.br, bfinal := t.bfinal, btype := t.btype }) (· = .outOfData) := by
  refine Run.Ends.andThen (P := fun t => t = { s with br := t.br, bfinal := t.bfinal, btype := t.btype })
    ((readBit_ends s).mono (fun t ht => by rw [ht]) fun c hc => hc) (fun a t ht => ?_) fun t ht => ht
  refine Run.Ends.andThen (P := fun t => t = { s with br := t.br, bfinal := t.bfinal, btype := t.btype })
    ((readBits_ends 2 _).mono (fun u hu => by rw [hu, ht]) fun c hc => hc) (fun a u hu => ?_) fun u hu => hu
  change _ = _; rw [hu]

/-- The chunk header moves the cursor alone (R232). -/
theorem rd8_cursor (s : State) : (rd8 s).Ends (fun t => t = { s with pcur := t.pcur } ∧ s.pcur ≤ t.pcur) (· = .outOfData) :=
  (rd8_ends s).mono (fun t ht => by rcases ht with rfl | rfl <;> simp) fun c hc => hc

theorem rd32_cursor (s : State) : (rd32 s).Ends (fun t => t = { s with pcur := t.pcur } ∧ s.pcur ≤ t.pcur) (· = .outOfData) := by
  have next (t : State) (ht : t = { s with pcur := t.pcur } ∧ s.pcur ≤ t.pcur) :
      (rd8 t).Ends (fun t => t = { s with pcur := t.pcur } ∧ s.pcur ≤ t.pcur) (· = .outOfData) :=
    (rd8_cursor t).mono (fun u hu => ⟨by rw [hu.1, ht.1], le_trans ht.2 hu.2⟩) fun c hc => hc
  refine (rd8_cursor s).andThen (fun _ t ht => ?_) fun _ h => h
  refine (next t ht).andThen (fun _ u hu => ?_) fun _ h => h
  refine (next u hu).andThen (fun _ v hv => ?_) fun _ h => h
  exact (next v hv).andThen (fun _ _ hw => hw) fun _ h => h

theorem chunkHeader_cursor (s : State) :
    (chunkHeader s).Ends (fun t => t = { s with pcur := t.pcur } ∧ s.pcur ≤ t.pcur) (· = .outOfData) := by
  refine (rd32_cursor s).andThen (fun _ t ht => ?_) fun _ h => h
  refine Run.Ends.andThen (P := fun t => t = { s with pcur := t.pcur } ∧ s.pcur ≤ t.pcur)
    ((rd32_cursor t).mono (fun u hu => ⟨by rw [hu.1, ht.1], le_trans ht.2 hu.2⟩) fun c hc => hc)
    (fun _ u hu => hu) fun _ h => h

/-- What a scanline can do (R261, R260, R296). -/
theorem runRow_cases (pred : Byte → Byte → Byte → Byte) (x : List Byte) (s : State) :
    (∃ f, runRow pred x s = .stop f) ∨
    (∃ cur, reconstruct pred s.bpp s.prev [] (x.take (stride s)) = some cur ∧
      runRow pred x s =
        .ok () (nextRow { s with cur := cur, pix := Memory.writeAll s.pix (s.row * stride s) cur })) := by
  unfold runRow
  split
  · exact .inl ⟨_, rfl⟩
  · split
    · exact .inl ⟨_, rfl⟩
    · exact .inr ⟨_, ‹_›, rfl⟩

/-- A copy, read through the byte read (R188): the bytes below the old length stay, and each new byte is the one `d` behind
it. -/
theorem copyBytes_reads {d : Nat} (n : Nat) {m : Memory} (hm : Memory.dense m = true) (hd : 0 < d)
    (hl : d ≤ Memory.len m) :
    ∃ m', copyBytes d n m = some m' ∧ Memory.dense m' = true ∧ Memory.len m' = Memory.len m + n ∧
      (∀ a < Memory.len m, Memory.read m' a = Memory.read m a) ∧
      ∀ k < n, Memory.read m' (Memory.len m + k) = Memory.read m' (Memory.len m + k - d) := by
  induction n generalizing m with
  | zero => exact ⟨m, rfl, hm, rfl, fun _ _ => rfl, fun k hk => by omega⟩
  | succ n ih =>
    have hlt : Memory.len m - d < (m.map Prod.snd).length := by
      rw [List.length_map, ← Memory.len_of_dense hm]; omega
    obtain ⟨v, hv⟩ : ∃ v, Memory.read m (Memory.len m - d) = some v := by
      rw [Memory.read_of_dense hm, List.getElem?_eq_getElem hlt]; exact ⟨_, rfl⟩
    obtain ⟨m', h1, h2, h3, h4, h5⟩ := ih (Memory.dense_append hm v) (by rw [Memory.len_append]; omega)
    rw [Memory.len_append] at h3 h4 h5
    have hr := Memory.read_append (Memory.wf_of_dense hm) v
    refine ⟨m', by simp only [copyBytes, hv, h1], h2, by omega, fun a ha => ?_, fun k hk => ?_⟩
    · rw [h4 a (by omega), hr, if_neg (by omega)]
    · cases k with
      | zero => rw [Nat.add_zero, h4 _ (by omega), h4 _ (by omega), hr, if_pos rfl, hr, if_neg (by omega), hv]
      | succ k =>
        have := h5 k (by omega)
        rwa [show Memory.len m + 1 + k = Memory.len m + (k + 1) by omega] at this

/-- A space with no gap grows by a write at its end (R271). -/
theorem Memory.writeAll_len {m : Memory} (h : Memory.wf m = true) (vs : List Byte) :
    Memory.writeAll m (Memory.len m) vs = Memory.appendAll m vs := by
  have one : ∀ (m : Memory) (v : Byte), Memory.wf m = true → Memory.write m (Memory.len m) v = Memory.append m v := by
    intro m v hm
    suffices ∀ a, (∀ c ∈ m, c.1 < a) → Memory.write m a v = m ++ [(a, v)] from this _ (Memory.lt_len hm)
    intro a ha
    clear hm h
    induction m with
    | nil => rfl
    | cons c m ih =>
      obtain ⟨k, w⟩ := c
      have hk : k < a := ha (k, w) (by simp)
      simp only [Memory.write, if_neg (show ¬ a < k by omega), if_neg (show ¬ a = k by omega), List.cons_append]
      rw [ih fun c hc => ha c (by simp [hc])]
  induction vs generalizing m with
  | nil => rfl
  | cons v vs ih =>
    simp only [Memory.writeAll, Memory.appendAll]
    rw [one m v h, ← ih (Memory.wf_append h v), Memory.len_append]

end Sys2Proof.Machine
end

