-- ==== Sys2Proof/Laws/Huffman.lean ====
section
/-! SUPPORT. The walk of a Huffman tree: how many bits it uses, when it finds a node, and that the code the encoder finds for
a symbol leads the walk to it (R81, R128). -/

namespace Sys2Proof.Machine

/-- A walk uses bits that are there; a short one all of them. -/
theorem walkFrom_used (t : Tree) (mb : MissingBranch) (bits : List Bool) (k used : Nat) :
    match walkFrom t mb k used bits with
    | .found _ u => used ≤ u ∧ u ≤ used + bits.length
    | .bad _ u => used < u ∧ u ≤ used + bits.length
    | .short u => u = used + bits.length
    | .noNode => True := by
  induction bits generalizing k used with
  | nil =>
    simp only [walkFrom]
    split
    · rename_i h; split at h
      · cases h
      · split at h
        · cases h; simp
        · cases h
    · rename_i h; split at h
      · cases h
      · split at h <;> cases h
    · rename_i h; split at h
      · cases h
      · split at h
        · cases h
        · cases h; simp
    · trivial
  | cons b bs ih =>
    simp only [walkFrom]
    cases hn : t.nodes[k]? with
    | none => trivial
    | some n =>
      simp only
      by_cases hl : isLeaf n = true
      · simp only [hl, if_true]; omega
      · simp only [hl, if_false, Bool.false_eq_true]
        have step (j : Nat) :
            match walkFrom t mb j (used + 1) bs with
            | .found _ u => used ≤ u ∧ u ≤ used + (b :: bs).length
            | .bad _ u => used < u ∧ u ≤ used + (b :: bs).length
            | .short u => u = used + (b :: bs).length
            | .noNode => True := by
          have := ih j (used + 1)
          cases hw : walkFrom t mb j (used + 1) bs <;> simp only [hw, List.length_cons] at this ⊢ <;> omega
        by_cases hc : childOf n b = 0
        · simp only [hc, if_true]
          cases mb with
          | fault => simp only [List.length_cons]; omega
          | restartRoot => exact step 0
        · simp only [hc, if_false]
          exact step _

/-- The walk down a path of present links to a leaf. -/
theorem walkFrom_findPath (t : Tree) (mb : MissingBranch) (sym fuel : Nat) {k used : Nat} {p : List Bool}
    (h : findPath t sym fuel k = some p) (rest : List Bool) :
    walkFrom t mb k used (p ++ rest) = .found sym (used + p.length) := by
  induction fuel generalizing k used p with
  | zero => cases h
  | succ fuel ih =>
    simp only [findPath] at h
    cases hn : t.nodes[k]? with
    | none => rw [hn] at h; cases h
    | some n =>
      rw [hn] at h
      simp only at h
      by_cases hl : isLeaf n = true
      · simp only [hl, if_true] at h
        split at h
        · rename_i hs
          cases h
          cases rest <;> simp [walkFrom, hn, hl, hs]
        · cases h
      · simp only [hl, if_false, Bool.false_eq_true] at h
        cases h1 : (if n.left = 0 then none else findPath t sym fuel n.left) with
        | some q =>
          rw [h1] at h
          cases h
          split at h1
          · cases h1
          · rename_i h0
            simp only [List.cons_append, walkFrom, hn, hl, if_false, Bool.false_eq_true, childOf, h0]
            rw [ih h1]; simp only [List.length_cons]; congr 1; omega
        | none =>
          rw [h1] at h
          simp only at h
          cases h2 : (if n.right = 0 then none else findPath t sym fuel n.right) with
          | some q =>
            rw [h2] at h
            cases h
            split at h2
            · cases h2
            · rename_i h0
              simp only [List.cons_append, walkFrom, hn, hl, if_false, Bool.false_eq_true, childOf, if_true, h0]
              rw [ih h2]; simp only [List.length_cons]; congr 1; omega
          | none => rw [h2] at h; cases h

/-- The code the encoder finds for a symbol is the code the decoder reads it from (R81, R90). -/
theorem walk_codeOf {t : Tree} {sym : Nat} {p : List Bool} (h : codeOf t sym = some p) (mb : MissingBranch)
    (rest : List Bool) : walk t mb (p ++ rest) = .found sym p.length := by
  unfold codeOf at h
  split at h
  · cases h
  · rename_i h0
    rw [walk, if_neg h0, walkFrom_findPath t mb sym _ h rest, Nat.zero_add]

/-- A node whose links `arenaOk` vouches for (R125). -/
theorem arenaOk_link {t : Tree} (h : arenaOk t = true) {k : Nat} (hk : k < t.nodes.length) (b : Bool)
    (hc : childOf t.nodes[k] b ≠ 0) : k < childOf t.nodes[k] b ∧ childOf t.nodes[k] b < t.nodes.length := by
  simp only [arenaOk, Bool.and_eq_true, List.all_eq_true, List.mem_range, linkOk, Bool.or_eq_true, beq_iff_eq,
    decide_eq_true_eq] at h
  have := h.1 k hk
  rw [List.getD_eq_getElem _ _ hk] at this
  cases b
  · rcases this.1 with h0 | h0
    · exact absurd h0 hc
    · exact h0
  · rcases this.2 with h0 | h0
    · exact absurd h0 hc
    · exact h0

/-- In an arena in order no walk meets an index with no node (R125). -/
theorem walkFrom_node {t : Tree} (h : arenaOk t = true) (mb : MissingBranch) (bits : List Bool) {k : Nat}
    (hk : k < t.nodes.length) (used : Nat) : walkFrom t mb k used bits ≠ .noNode := by
  induction bits generalizing k used with
  | nil =>
    simp only [walkFrom, List.getElem?_eq_getElem hk]
    split <;> simp
  | cons b bs ih =>
    simp only [walkFrom, List.getElem?_eq_getElem hk]
    split
    · simp
    · split
      · cases mb with
        | fault => simp
        | restartRoot => exact ih (by omega) _
      · rename_i hc
        exact ih (arenaOk_link h hk b hc).2 _

end Sys2Proof.Machine
end

