-- ==== Sys2Proof/Tests/Slice0.lean ====
section
/-! SUPPORT. The model's own tests: ill-formed terms the check refuses, words written out from the spec's formats, the spec's
own examples on small states, and for each statement's hypotheses a concrete state that meets them. -/

namespace Sys2Proof.Machine.Tests

/-- A list of bits, in read order. -/
def bits (l : List Nat) : List Bool := l.map (· == 1)

/-- A space that holds a list of bytes from offset 0 on. -/
def cells (l : List Byte) : Memory := Memory.appendAll [] l

/-- The tree whose only code is `0`, of symbol `sym` (R122, R124). -/
def oneCode (sym : Nat) : Tree := build (List.replicate sym 0 ++ [1])

/-- Does the outcome go on, to a state that satisfies `p`? -/
def nextSat (o : Host.Outcome State Fault Refusal) (p : State → Bool) : Bool :=
  match o with
  | .next t => p t
  | _ => false

/-- Did the outcome take the fault entry with this cause? -/
def faulted (o : Host.Outcome State Fault Refusal) (c : Cause) : Bool :=
  nextSat o fun t => t.phase == .error && t.status == 4 && t.cause == causeWord c && t.faultCode == causeCode c

/-- An idle machine with host moves to come. -/
def hosted (moves : List HostMove) : State := { State.reset with host := moves }

/-- A running machine in phase PNG over these input bytes. -/
def withIn (l : List Byte) : State :=
  { State.reset with status := 1, phase := .png, lenIn := l.length, inLen := l.length, inSpace := cells l }

/-- A running machine in phase INFLATE over these compressed bytes. -/
def withZ (l : List Byte) : State := { State.reset with status := 1, phase := .inflate, zbuf := cells l }

/-- A running machine in phase DEFILTER, with a row length of 6 bytes, 3 to a pixel, and two rows. -/
def withRow (prev : List Byte) : State :=
  { State.reset with status := 1, phase := .defilter, w := 2, h := 2, bpp := 3, prev := prev }

/-! ### Well-formedness: an ill-formed term for each check -/

theorem test_wf_idat_payload : WellFormed (.chunkIdat 2 [1] 0) = false := by decide
theorem test_wf_iend_payload : WellFormed (.chunkIend 0 [1] 0) = false := by decide
theorem test_wf_other_idat : WellFormed (.chunkOther 0x49444154 0 [] 0) = false := by decide
theorem test_wf_other_iend : WellFormed (.chunkOther 0x49454E44 0 [] 0) = false := by decide
theorem test_wf_other_payload : WellFormed (.chunkOther 0x74455874 1 [] 0) = false := by decide
theorem test_wf_other_second_ihdr : WellFormed (.chunkOther 0x49484452 0 [] 0) = true := by decide
theorem test_wf_stored_payload : WellFormed (.stored 3 0 [1, 2]) = false := by decide
theorem test_wf_dyn_hlit : WellFormed (.dyn 256 1 4 [0, 0, 0, 0]) = false ∧ WellFormed (.dyn 289 1 4 [0, 0, 0, 0]) = false := by decide
theorem test_wf_dyn_hdist : WellFormed (.dyn 257 0 4 [0, 0, 0, 0]) = false ∧ WellFormed (.dyn 257 33 4 [0, 0, 0, 0]) = false := by decide
theorem test_wf_dyn_hclen :
    WellFormed (.dyn 257 1 3 [0, 0, 0]) = false ∧ WellFormed (.dyn 257 1 20 (List.replicate 20 0)) = false := by decide
theorem test_wf_dyn_count : WellFormed (.dyn 257 1 4 [0, 0, 0]) = false := by decide
theorem test_wf_dyn_length : WellFormed (.dyn 257 1 4 [0, 0, 8, 0]) = false := by decide
theorem test_wf_dyn_limits : WellFormed (.dyn 288 32 4 [7, 0, 0, 0]) = true := by decide
theorem test_wf_cl16 : WellFormed (.cl16 2) = false ∧ WellFormed (.cl16 7) = false := by decide
theorem test_wf_cl17 : WellFormed (.cl17 2) = false ∧ WellFormed (.cl17 11) = false := by decide
theorem test_wf_cl18 : WellFormed (.cl18 10) = false ∧ WellFormed (.cl18 139) = false := by decide
theorem test_wf_row : WellFormed (.rowInvalid 4) = false := by decide
theorem test_wf_match_length : WellFormed (.matchPair 2 1) = false ∧ WellFormed (.matchPair 259 1) = false := by decide
theorem test_wf_match_distance : WellFormed (.matchPair 3 0) = false ∧ WellFormed (.matchPair 3 32769) = false := by decide
theorem test_wf_zeros : WellFormed (.zeros 2) = false ∧ WellFormed (.zeros 139) = false := by decide
theorem test_wf_repeat : WellFormed (.repeatPrev 2) = false ∧ WellFormed (.repeatPrev 7) = false := by decide

/-! ### Decoding: words written out from the formats of the spec -/

/-- R72. -/
theorem test_decode_sig :
    decode .fault .signature (bytesBits [0x89, 0x50, 0x4E, 0x47, 0x0D, 0x0A, 0x1A, 0x0A]) = .element .sig := by decide
/-- R231: the last byte differs. -/
theorem test_decode_sig_bad :
    decode .fault .signature (bytesBits [0x89, 0x50, 0x4E, 0x47, 0x0D, 0x0A, 0x1A, 0x0B]) = .illegal .pngSignature := by
  decide
/-- R73, R74: length 13, type IHDR, width 1, height 2, depth 8, colour type 2, three zeros, CRC. -/
theorem test_decode_ihdr :
    decode .fault .firstChunk (bytesBits ([0, 0, 0, 13, 0x49, 0x48, 0x44, 0x52] ++ [0, 0, 0, 1, 0, 0, 1, 2, 8, 2, 0, 0, 0] ++
      [0xA, 0xB, 0xC, 0xD])) = .element (.chunkIhdr 1 0x102 8 2 0 0 0 0x0A0B0C0D) := by decide +kernel
/-- R73: a first chunk of type IDAT; an IHDR of length 12. -/
theorem test_decode_first_bad :
    decode .fault .firstChunk (bytesBits [0, 0, 0, 13, 0x49, 0x44, 0x41, 0x54]) = .illegal .firstNotIhdr ∧
    decode .fault .firstChunk (bytesBits [0, 0, 0, 12, 0x49, 0x48, 0x44, 0x52]) = .illegal .ihdrLength := by decide
theorem test_decode_idat :
    decode .fault .chunk (bytesBits [0, 0, 0, 2, 0x49, 0x44, 0x41, 0x54, 0x78, 0x9C, 1, 2, 3, 4]) =
      .element (.chunkIdat 2 [0x78, 0x9C] 0x01020304) := by decide
theorem test_decode_iend :
    decode .fault .chunk (bytesBits [0, 0, 0, 0, 0x49, 0x45, 0x4E, 0x44, 0xAE, 0x42, 0x60, 0x82]) =
      .element (.chunkIend 0 [] 0xAE426082) := by decide
/-- A chunk `tEXt` of one byte, and a second IHDR. -/
theorem test_decode_other :
    decode .fault .chunk (bytesBits [0, 0, 0, 1, 0x74, 0x45, 0x58, 0x74, 0x61, 0, 0, 0, 9]) =
      .element (.chunkOther 0x74455874 1 [0x61] 9) ∧
    decode .fault .chunk (bytesBits [0, 0, 0, 0, 0x49, 0x48, 0x44, 0x52, 0, 0, 0, 9]) =
      .element (.chunkOther 0x49484452 0 [] 9) := by decide
/-- R76, R71: `78 9C` bit by bit. -/
theorem test_decode_zhdr :
    decode .fault .zlibHeader (bits [0, 0, 0, 1, 1, 1, 1, 0, 0, 0, 1, 1, 1, 0, 0, 1]) = .element (.zhdr 0x78 0x9C) := by decide
/-- R77, R103: little-endian. -/
theorem test_decode_ztrl :
    decode .fault .trailer (bytesBits [0x00, 0x42, 0x00, 0x42]) = .element (.ztrl 0x42004200) := by decide
/-- R78: BFINAL, then BTYPE bit 0, then BTYPE bit 1. -/
theorem test_decode_blk :
    decode .fault .blockHeader (bits [1, 0, 0]) = .element (.blkStored true) ∧
    decode .fault .blockHeader (bits [0, 1, 0]) = .element (.blkFixed false) ∧
    decode .fault .blockHeader (bits [1, 0, 1]) = .element (.blkDynamic true) ∧
    decode .fault .blockHeader (bits [1, 1, 1]) = .element (.blkReserved true) := by decide
/-- R152's example: `05 00 FA FF 68 65 6C 6C 6F`. -/
theorem test_decode_stored :
    decode .fault .storedBlock (bytesBits [0x05, 0x00, 0xFA, 0xFF, 0x68, 0x65, 0x6C, 0x6C, 0x6F]) =
      .element (.stored 5 0xFFFA [0x68, 0x65, 0x6C, 0x6C, 0x6F]) := by decide
/-- R80: HLIT − 257 = 1 in 5 bits, HDIST − 1 = 2 in 5 bits, HCLEN − 4 = 0 in 4 bits, four 3-bit lengths. -/
theorem test_decode_dyn :
    decode .fault .dynHeader (bits ([1, 0, 0, 0, 0] ++ [0, 1, 0, 0, 0] ++ [0, 0, 0, 0] ++ [1, 0, 0, 0, 1, 0, 0, 0, 1, 1, 1, 1])) =
      .element (.dyn 258 3 4 [1, 2, 4, 7]) := by decide

/-- R83: the code `0` of a tree whose only symbol it is, then the extra bits. -/
theorem test_decode_cl :
    [(0, Instr.cl0), (1, .cl1), (2, .cl2), (3, .cl3), (4, .cl4), (5, .cl5), (6, .cl6), (7, .cl7), (8, .cl8), (9, .cl9), (10, .cl10), (11, .cl11), (12, .cl12), (13, .cl13), (14, .cl14), (15, .cl15)].all (fun r =>
      decode .fault (.codeLength (oneCode r.1)) (bits [0]) == .element r.2) = true := by decide
theorem test_decode_cl16 :
    decode .fault (.codeLength (oneCode 16)) (bits [0, 1, 0]) = .element (.cl16 4) ∧
    decode .fault (.codeLength (oneCode 16)) (bits [0, 1, 1]) = .element (.cl16 6) := by decide
theorem test_decode_cl17 :
    decode .fault (.codeLength (oneCode 17)) (bits [0, 0, 0, 0]) = .element (.cl17 3) ∧
    decode .fault (.codeLength (oneCode 17)) (bits [0, 0, 1, 1]) = .element (.cl17 9) := by decide
theorem test_decode_cl18 :
    decode .fault (.codeLength (oneCode 18)) (bits [0, 1, 1, 1, 1, 1, 1, 1]) = .element (.cl18 138) ∧
    decode .fault (.codeLength (oneCode 18)) (bits [0, 1, 0, 0, 0, 0, 0, 0]) = .element (.cl18 12) := by decide

/-- R84: symbol 65, EOB, and the two invalid symbols. -/
theorem test_decode_lit :
    decode .fault (.symbol (oneCode 65)) (bits [0]) = .element (.lit 0x41) ∧
    decode .fault (.symbol (oneCode 255)) (bits [0]) = .element (.lit 0xFF) := by decide +kernel
theorem test_decode_eob :
    decode .fault (.symbol (oneCode 256)) (bits [0]) = .element .eob := by decide +kernel
theorem test_decode_len_invalid :
    decode .fault (.symbol (oneCode 286)) (bits [0, 1]) = .element .len286Invalid ∧
    decode .fault (.symbol (oneCode 287)) (bits [0, 1]) = .element .len287Invalid := by decide +kernel

/-- R84: lengths 257 to 264: the code, then the extra field, least significant bit first. -/
theorem test_decode_len_257 :
    [(257, [0], Instr.len257),
     (258, [0], .len258),
     (259, [0], .len259),
     (260, [0], .len260),
     (261, [0], .len261),
     (262, [0], .len262),
     (263, [0], .len263),
     (264, [0], .len264)].all (fun r =>
      decode .fault (.symbol (oneCode r.1)) (bits r.2.1) == .element r.2.2) = true := by decide +kernel
/-- R84: lengths 265 to 272: the code, then the extra field, least significant bit first. -/
theorem test_decode_len_265 :
    [(265, [0, 1], Instr.len265 1),
     (266, [0, 1], .len266 1),
     (267, [0, 1], .len267 1),
     (268, [0, 1], .len268 1),
     (269, [0, 1, 0], .len269 1),
     (270, [0, 1, 0], .len270 1),
     (271, [0, 1, 0], .len271 1),
     (272, [0, 1, 0], .len272 1)].all (fun r =>
      decode .fault (.symbol (oneCode r.1)) (bits r.2.1) == .element r.2.2) = true := by decide +kernel
/-- R84: lengths 273 to 280: the code, then the extra field, least significant bit first. -/
theorem test_decode_len_273 :
    [(273, [0, 1, 1, 0], Instr.len273 3),
     (274, [0, 1, 1, 0], .len274 3),
     (275, [0, 1, 1, 0], .len275 3),
     (276, [0, 1, 1, 0], .len276 3),
     (277, [0, 1, 0, 1, 0], .len277 5),
     (278, [0, 1, 0, 1, 0], .len278 5),
     (279, [0, 1, 0, 1, 0], .len279 5),
     (280, [0, 1, 0, 1, 0], .len280 5)].all (fun r =>
      decode .fault (.symbol (oneCode r.1)) (bits r.2.1) == .element r.2.2) = true := by decide +kernel
/-- R84: lengths 281 to 285: the code, then the extra field, least significant bit first. -/
theorem test_decode_len_281 :
    [(281, [0, 1, 0, 0, 1, 0], Instr.len281 9),
     (282, [0, 1, 0, 0, 1, 0], .len282 9),
     (283, [0, 1, 0, 0, 1, 0], .len283 9),
     (284, [0, 1, 0, 0, 1, 0], .len284 9),
     (285, [0], .len285)].all (fun r =>
      decode .fault (.symbol (oneCode r.1)) (bits r.2.1) == .element r.2.2) = true := by decide +kernel

/-- R87, R85: distance symbols 0 to 9: the 5-bit fixed code, first bit most significant, then the extra field. -/
theorem test_decode_dist_0 :
    [([0, 0, 0, 0, 0], Instr.dist0),
     ([0, 0, 0, 0, 1], .dist1),
     ([0, 0, 0, 1, 0], .dist2),
     ([0, 0, 0, 1, 1], .dist3),
     ([0, 0, 1, 0, 0, 1], .dist4 1),
     ([0, 0, 1, 0, 1, 1], .dist5 1),
     ([0, 0, 1, 1, 0, 1, 0], .dist6 1),
     ([0, 0, 1, 1, 1, 1, 0], .dist7 1),
     ([0, 1, 0, 0, 0, 1, 1, 0], .dist8 3),
     ([0, 1, 0, 0, 1, 1, 1, 0], .dist9 3)].all (fun r =>
      decode .fault (.distance fixedDist) (bits r.1) == .element r.2) = true := by decide +kernel
/-- R87, R85: distance symbols 10 to 19: the 5-bit fixed code, first bit most significant, then the extra field. -/
theorem test_decode_dist_10 :
    [([0, 1, 0, 1, 0, 1, 0, 1, 0], Instr.dist10 5),
     ([0, 1, 0, 1, 1, 1, 0, 1, 0], .dist11 5),
     ([0, 1, 1, 0, 0, 1, 0, 0, 1, 0], .dist12 9),
     ([0, 1, 1, 0, 1, 1, 0, 0, 1, 0], .dist13 9),
     ([0, 1, 1, 1, 0, 1, 0, 0, 0, 1, 0], .dist14 17),
     ([0, 1, 1, 1, 1, 1, 0, 0, 0, 1, 0], .dist15 17),
     ([1, 0, 0, 0, 0, 1, 0, 0, 0, 0, 1, 0], .dist16 33),
     ([1, 0, 0, 0, 1, 1, 0, 0, 0, 0, 1, 0], .dist17 33),
     ([1, 0, 0, 1, 0, 1, 0, 0, 0, 0, 0, 1, 0], .dist18 65),
     ([1, 0, 0, 1, 1, 1, 0, 0, 0, 0, 0, 1, 0], .dist19 65)].all (fun r =>
      decode .fault (.distance fixedDist) (bits r.1) == .element r.2) = true := by decide +kernel
/-- R87, R85: distance symbols 20 to 29: the 5-bit fixed code, first bit most significant, then the extra field. -/
theorem test_decode_dist_20 :
    [([1, 0, 1, 0, 0, 1, 0, 0, 0, 0, 0, 0, 1, 0], Instr.dist20 129),
     ([1, 0, 1, 0, 1, 1, 0, 0, 0, 0, 0, 0, 1, 0], .dist21 129),
     ([1, 0, 1, 1, 0, 1, 0, 0, 0, 0, 0, 0, 0, 1, 0], .dist22 257),
     ([1, 0, 1, 1, 1, 1, 0, 0, 0, 0, 0, 0, 0, 1, 0], .dist23 257),
     ([1, 1, 0, 0, 0, 1, 0, 0, 0, 0, 0, 0, 0, 0, 1, 0], .dist24 513),
     ([1, 1, 0, 0, 1, 1, 0, 0, 0, 0, 0, 0, 0, 0, 1, 0], .dist25 513),
     ([1, 1, 0, 1, 0, 1, 0, 0, 0, 0, 0, 0, 0, 0, 0, 1, 0], .dist26 1025),
     ([1, 1, 0, 1, 1, 1, 0, 0, 0, 0, 0, 0, 0, 0, 0, 1, 0], .dist27 1025),
     ([1, 1, 1, 0, 0, 1, 0, 0, 0, 0, 0, 0, 0, 0, 0, 0, 1, 0], .dist28 2049),
     ([1, 1, 1, 0, 1, 1, 0, 0, 0, 0, 0, 0, 0, 0, 0, 0, 1, 0], .dist29 2049)].all (fun r =>
      decode .fault (.distance fixedDist) (bits r.1) == .element r.2) = true := by decide +kernel
/-- R87: the pattern `1111` reaches an absent branch; with RESTART_ROOT the walk goes on at the root. -/
theorem test_decode_dist_absent :
    decode .fault (.distance fixedDist) (bits [1, 1, 1, 1, 0]) = .illegal .missingBranch ∧
    decode .restartRoot (.distance fixedDist) (bits [1, 1, 1, 1, 0, 0, 0, 1, 0]) = .element .dist2 := by decide +kernel
/-- R186: symbols 30 and 31, in trees that have them. -/
theorem test_decode_dist_invalid :
    decode .fault (.distance (oneCode 30)) (bits [0]) = .element .dist30Invalid ∧
    decode .fault (.distance (oneCode 31)) (bits [0]) = .element .dist31Invalid := by decide
/-- R88. -/
theorem test_decode_row :
    decode .fault (.row 3) (bytesBits [0, 1, 2, 3]) = .element (.row0 [1, 2, 3]) ∧
    decode .fault (.row 3) (bytesBits [1, 1, 2, 3]) = .element (.row1 [1, 2, 3]) ∧
    decode .fault (.row 3) (bytesBits [2, 1, 2, 3]) = .element (.row2 [1, 2, 3]) ∧
    decode .fault (.row 3) (bytesBits [3, 1, 2, 3]) = .element (.row3 [1, 2, 3]) ∧
    decode .fault (.row 3) (bytesBits [4, 1, 2, 3]) = .element (.row4 [1, 2, 3]) ∧
    decode .fault (.row 3) (bytesBits [5, 1, 2, 3]) = .element (.rowInvalid 5) := by decide
/-- R91: MATCH 258, 32768 is LEN 285 and DIST 29 extra 8191; ZEROS 10 and 11; REPEAT; PAD. -/
theorem test_pseudo_symbols :
    lenSymbol 258 = (285, 0) ∧ lenSymbol 257 = (284, 30) ∧ lenSymbol 3 = (257, 0) ∧ distSymbol 32768 = (29, 8191) ∧
    distSymbol 1 = (0, 0) := by decide
theorem test_pseudo_words :
    encode { lit := noTree, dist := noTree, cl := oneCode 17, pending := 0 } (.zeros 10) = some (bits [0, 1, 1, 1]) ∧
    encode { lit := noTree, dist := noTree, cl := oneCode 18, pending := 0 } (.zeros 11) =
      some (bits [0, 0, 0, 0, 0, 0, 0, 0]) ∧
    encode { lit := noTree, dist := noTree, cl := oneCode 16, pending := 0 } (.repeatPrev 5) = some (bits [0, 0, 1]) ∧
    encode { lit := noTree, dist := noTree, cl := noTree, pending := 3 } .pad = some (bits [0, 0, 0]) := by decide
theorem test_pseudo_match :
    encode { lit := oneCode 266, dist := oneCode 4, cl := noTree, pending := 0 } (.matchPair 14 6) =
      some (bits [0, 1, 0, 1]) := by decide +kernel

/-! ### One step on a small state: the spec's own examples -/

theorem test_reset_memory : State.reset.memoryWf = true := by decide
/-- R100's example. -/
theorem test_read_bit : readBit (withZ [0xB5]) = .ok true { withZ [0xB5] with br := { pos := 1, acc := 0x5A, cnt := 7 } } := by
  decide
/-- R101's example. -/
theorem test_read_bits :
    ((readBit (withZ [0xB5, 0x01])).andThen fun _ s => readBits 3 s) =
      .ok 2 { withZ [0xB5, 0x01] with br := { pos := 1, acc := 0x0B, cnt := 4 } } := by decide
/-- R102's example. -/
theorem test_read_byte :
    ((readBit (withZ [0xB5, 0x01])).andThen fun _ s => readByte s) =
      .ok 1 { withZ [0xB5, 0x01] with br := { pos := 2, acc := 0, cnt := 0 } } := by decide
/-- R103's example. -/
theorem test_read_bytes :
    ((readBytes 2 (withZ [0x05, 0x00, 0xFA, 0xFF])).andThen fun _ s => readBytes 2 s) =
      .ok 0xFFFA { withZ [0x05, 0x00, 0xFA, 0xFF] with br := { pos := 4, acc := 0, cnt := 0 } } := by decide
/-- R231: `SIG` from the stream. -/
theorem test_step_sig :
    nextSat (step (withIn [0x89, 0x50, 0x4E, 0x47, 0x0D, 0x0A, 0x1A, 0x0A])) (fun t => t.pcur == 8 && t.pngPos == .firstChunk) =
      true := by decide
theorem test_step_sig_bad :
    faulted (step (withIn [0x89, 0x50, 0x4E, 0x47, 0x0D, 0x0A, 0x1A, 0x0B])) .pngSignature = true ∧
    faulted (step (withIn [0x89, 0x50])) .outOfData = true := by decide
/-- R234, R242: an IHDR of colour type 6, from the stream. -/
theorem test_step_ihdr :
    nextSat (step { withIn ([0, 0, 0, 13, 0x49, 0x48, 0x44, 0x52] ++ [0, 0, 0, 1, 0, 0, 0, 2, 8, 6, 0, 0, 0] ++ [0, 0, 0, 0]) with
      pngPos := .firstChunk }) (fun t => t.pcur == 25 && t.w == 1 && t.h == 2 && t.bpp == 4 && t.pngPos == .chunkLoop) =
      true := by decide +kernel
/-- R236, R241: depth 16; a zero height. -/
theorem test_exec_ihdr_faults :
    faulted (exec (.chunkIhdr 1 1 16 3 0 0 1 0) (withIn (List.replicate 17 0))) .bitDepth = true ∧
    faulted (exec (.chunkIhdr 1 0 8 2 0 0 0 0) (withIn (List.replicate 17 0))) .zeroDimension = true := by decide
/-- R244. -/
theorem test_step_idat :
    nextSat (step { withIn [0, 0, 0, 2, 0x49, 0x44, 0x41, 0x54, 0x78, 0x9C, 1, 2, 3, 4] with
      pngPos := .chunkLoop, zbuf := cells [7] }) (fun t => t.zbuf == cells [7, 0x78, 0x9C] && t.pcur == 14) = true := by decide
/-- R245, R247. -/
theorem test_step_iend :
    nextSat (step { withIn [0, 0, 0, 0, 0x49, 0x45, 0x4E, 0x44, 0, 0, 0, 0, 9] with pngPos := .chunkLoop })
      (fun t => t.phase == .zlibHdr && t.pcur == 12) = true := by decide
/-- R293, R56: `W = 2^32 − 1`, `BPP = 4`, `H = 2^31` overflows 64 bits. -/
theorem test_exec_iend_overflow :
    faulted (exec (.chunkIend 0 [] 0) { withIn [0, 0, 0, 0] with w := 0xFFFFFFFF, bpp := 4, h := 0x80000000 }) .sizeOverflow =
      true := by decide
/-- R246. -/
theorem test_exec_other :
    nextSat (exec (.chunkOther 0x74455874 10 [] 0) { withIn (List.replicate 22 0) with pcur := 8 }) (fun t => t.pcur == 22) =
      true := by decide
/-- R211: `78 9C` passes; R214: `78 9D`; R215: `78 BB`; R219: `89 00`; R213: `88`. -/
theorem test_exec_zhdr :
    nextSat (step { withZ [0x78, 0x9C] with phase := .zlibHdr }) (fun t => t.phase == .inflate && t.br.pos == 2 && t.cmf == 0x78) =
      true := by decide
theorem test_exec_zhdr_faults :
    faulted (exec (.zhdr 0x78 0x9D) (withZ [0x78, 0x9D])) .zlibFcheck = true ∧
    faulted (exec (.zhdr 0x78 0xBB) (withZ [0x78, 0xBB])) .zlibFdict = true ∧
    faulted (exec (.zhdr 0x89 0) (withZ [0x89, 0])) .zlibCm = true ∧
    faulted (exec (.zhdr 0x88 0) (withZ [0x88, 0])) .zlibCinfo = true ∧
    faulted (exec (.zhdr 0x79 0) (withZ [0x79, 0])) .zlibCm = true ∧
    faulted (exec (.zhdr 0x78 0) (withZ [0x78])) .outOfData = true := by decide
/-- R217: the pending bits are discarded; R260: one row of one RGB pixel needs 4 bytes. -/
theorem test_step_ztrl :
    nextSat (step { withZ [0xFF, 0, 0x42, 0, 0x42] with
      phase := .zlibTrl, br := { pos := 1, acc := 1, cnt := 3 }, w := 1, h := 1, bpp := 3, out := cells [0, 1, 2, 3] })
      (fun t => t.phase == .defilter && t.prev == [0, 0, 0] && t.br.pos == 5) = true := by decide
theorem test_step_ztrl_short :
    faulted (step { withZ [0, 0x42, 0, 0x42] with phase := .zlibTrl, w := 1, h := 1, bpp := 3, out := cells [0, 1, 2] })
      .shortImageData = true := by decide
/-- R151's example, and R155's. -/
theorem test_step_blk :
    nextSat (step (withZ [0x01])) (fun t => t.bfinal && t.btype == 0 && t.infPos == .storedBlock && bitpos t == 3) = true ∧
    faulted (step (withZ [0x07])) .btypeReserved = true := by decide
/-- R152's example: `05 00 FA FF 68 65 6C 6C 6F` appends "hello"; NLEN is not compared. -/
theorem test_exec_stored :
    nextSat (step { withZ [0x01, 0x05, 0x00, 0xFA, 0xFF, 0x68, 0x65, 0x6C, 0x6C, 0x6F] with
      infPos := .storedBlock, bfinal := true, br := { pos := 1, acc := 0, cnt := 5 } })
      (fun t => t.out == cells [0x68, 0x65, 0x6C, 0x6C, 0x6F] && t.phase == .zlibTrl && t.snlen == 0xFFFA) = true := by decide
theorem test_exec_stored_short :
    nextSat (step { withZ [0x02, 0x00, 0, 0, 0x68] with infPos := .storedBlock })
      (fun t => t.phase == .error && t.cause == causeWord .outOfData && t.out == cells [0x68]) = true := by decide
/-- R157: the first field goes to symbol 16. -/
theorem test_exec_dyn :
    nextSat (exec (.dyn 257 1 4 [1, 2, 3, 4]) (withZ [0, 0, 0, 0]))
      (fun t => t.clLens == [4, 0, 0, 0, 0, 0, 0, 0, 0, 0, 0, 0, 0, 0, 0, 0, 1, 2, 3] && bitpos t == 26 && t.hlit == 257 &&
        t.infPos == .codeLengths) = true := by decide
/-- R160: symbol 8 appends 8. -/
theorem test_exec_cl8 :
    nextSat (exec .cl8 { withZ [] with hlit := 257, hdist := 1 }) (fun t => t.lens == [8]) = true := by decide
/-- R164: the last length ends the header. -/
theorem test_exec_cl_last :
    nextSat (exec .cl1 { withZ [] with hlit := 2, hdist := 1, lens := [1, 1], infPos := .codeLengths })
      (fun t => t.litTree == build [1, 1] && t.distTree == build [1] && t.infPos == .symbols) = true := by decide
/-- R161's example: `LENS = [5]`, extra `11`. -/
theorem test_exec_cl16 :
    nextSat (exec (.cl16 6) { withZ [3] with hlit := 257, hdist := 1, lens := [5] })
      (fun t => t.lens == [5, 5, 5, 5, 5, 5, 5] && bitpos t == 2) = true ∧
    faulted (exec (.cl16 3) (withZ [])) .repeatNoPrevious = true := by decide
/-- R162's example; R162's overrun. -/
theorem test_exec_cl17 :
    nextSat (exec (.cl17 3) { withZ [0] with hlit := 257, hdist := 1 }) (fun t => t.lens == [0, 0, 0] && bitpos t == 3) = true ∧
    faulted (exec (.cl17 10) { withZ [7] with hlit := 5, hdist := 4 }) .repeatOverrun = true := by decide
/-- R163: 138 zeros. -/
theorem test_exec_cl18 :
    nextSat (exec (.cl18 138) { withZ [0x7F] with hlit := 257, hdist := 1 })
      (fun t => t.lens == List.replicate 138 0 && bitpos t == 7) = true := by decide +kernel
/-- R181; R189 with a full buffer. -/
theorem test_exec_lit :
    nextSat (exec (.lit 0x41) { withZ [] with out := cells [1] }) (fun t => t.out == cells [1, 0x41]) = true ∧
    faulted (exec (.lit 0x41) { withZ [] with
      out := cells [1], cfg := { addrBits := 64, outCap := some 1, missingBranch := .fault } }) .outputCapacity = true := by decide
/-- R150, R182: the end of a block that is not the last, and of the last. -/
theorem test_exec_eob :
    nextSat (exec .eob { withZ [] with litTree := rootTree }) (fun t => t.phase == .inflate && t.litTree == noTree) = true ∧
    nextSat (exec .eob { withZ [] with bfinal := true }) (fun t => t.phase == .zlibTrl) = true := by decide
/-- R183's example: symbol 266 with extra bit 1 gives length 14; symbol 284 with extra 31 gives 258. -/
theorem test_exec_len :
    nextSat (exec (.len266 1) (withZ [1])) (fun t => t.matchLen == 14 && t.infPos == .distance && bitpos t == 1) = true ∧
    nextSat (exec (.len284 31) (withZ [31])) (fun t => t.matchLen == 258 && bitpos t == 5) = true := by decide
/-- R188's example: `OUT = [a, b]`, `copy(4, 2)`. -/
theorem test_exec_dist :
    nextSat (exec .dist1 { withZ [] with matchLen := 4, out := cells [0x61, 0x62] })
      (fun t => t.out == cells [0x61, 0x62, 0x61, 0x62, 0x61, 0x62] && t.infPos == .symbols) = true := by decide
/-- R185's example: symbol 4 with extra bit 1 gives distance 6; R187: 6 bytes are enough, 5 are not. -/
theorem test_exec_dist_bound :
    nextSat (exec (.dist4 1) { withZ [1] with matchLen := 1, out := cells [9, 2, 3, 4, 5, 6] })
      (fun t => t.out == cells [9, 2, 3, 4, 5, 6, 9]) = true ∧
    faulted (exec (.dist4 1) { withZ [1] with matchLen := 1, out := cells [9, 2, 3, 4, 5] }) .distanceTooFar = true := by decide
/-- R263's example, for the first three bytes. -/
theorem test_exec_row0 :
    nextSat (exec (.row0 [1, 2, 3, 4, 5, 6]) (withRow [9, 9, 9, 9, 9, 9])) (fun t => t.prev == [1, 2, 3, 4, 5, 6] && t.row == 1) =
      true := by decide
/-- R264's example. -/
theorem test_exec_row1 :
    nextSat (exec (.row1 [10, 20, 30, 250, 250, 250]) (withRow [9, 9, 9, 9, 9, 9]))
      (fun t => t.cur == [10, 20, 30, 4, 14, 24] && t.pix == cells [10, 20, 30, 4, 14, 24]) = true := by decide
/-- R265's example, for the first three bytes. -/
theorem test_exec_row2 :
    nextSat (exec (.row2 [100, 200, 5, 0, 0, 0]) (withRow [200, 100, 0, 7, 8, 9])) (fun t => t.cur == [44, 44, 5, 7, 8, 9]) =
      true := by decide
/-- R266's example in the fourth byte: left 255, up 255, filtered byte 1 gives 0. -/
theorem test_exec_row3 :
    nextSat (exec (.row3 [255, 0, 0, 1, 0, 0]) (withRow [0, 0, 0, 255, 0, 0])) (fun t => t.cur == [255, 0, 0, 0, 0, 0]) =
      true := by decide
/-- R268's example in the fourth byte: left 10, up 20, upper-left 15, filtered byte 1 gives 16; in the first byte Paeth is Up. -/
theorem test_exec_row4 :
    nextSat (exec (.row4 [251, 0, 0, 1, 0, 0]) (withRow [15, 0, 0, 20, 0, 0])) (fun t => t.cur == [10, 0, 0, 16, 0, 0]) =
      true := by decide
/-- R271, R296: the last row finishes the job. -/
theorem test_exec_row_last :
    nextSat (exec (.row0 [1, 2, 3, 4, 5, 6]) { withRow [0, 0, 0, 0, 0, 0] with row := 1, pix := cells [9, 9, 9, 9, 9, 9] })
      (fun t => t.phase == .done && t.status == 2 && t.pixLen == 12 && t.imgStride == 6 && t.imgBpp == 3 &&
        t.pix == cells [9, 9, 9, 9, 9, 9, 1, 2, 3, 4, 5, 6]) = true := by decide
/-- R269. -/
theorem test_step_row_invalid :
    faulted (step { withRow [0, 0, 0, 0, 0, 0] with out := cells (5 :: List.replicate 13 0) }) .filterType = true := by decide
/-- R21, R22: a start, a read of STATUS, a write of a read-only register. -/
theorem test_host_start :
    nextSat (step { hosted [.writeReg 0 1] with inLen := 7 }) (fun t => t.status == 1 && t.lenIn == 7 && t.phase == .png) = true ∧
    nextSat (step { hosted [.readReg 1] with status := 2 }) (fun t => t.hostRead == 2) = true ∧
    nextSat (step (hosted [.writeReg 2 5])) (fun t => t.cause == 0) = true := by decide
/-- R12, R340: bytes of `IN` below its length that nothing has written are read, whatever they hold. -/
theorem test_unwritten_input :
    nextSat (exec .sig { State.reset with lenIn := 8 }) (fun t => t.pcur == 8) = true ∧
    nextSat (exec (.chunkIdat 1 [7] 0) { State.reset with lenIn := 5 }) (fun t => t.pcur == 5) = true := by decide
/-- The words of the opcode table. -/
theorem test_table_words :
    decodeTableWord 64 0x89504E470D0A1A0A = some .sig ∧
    decodeTableWord 32 0x49454E44 = some (.chunkIend 0 [] 0) ∧ decodeTableWord 16 0x9C78 = some (.zhdr 0x78 0x9C) ∧
    decodeTableWord 8 4 = some (.row4 [0, 0, 0]) ∧ decodeTableWord 8 9 = some (.rowInvalid 9) := by decide
theorem test_with_fetch_word :
    nextSat (step (State.reset.withFetchWord 64 0x89504E470D0A1A0A)) (fun t => t.pcur == 8) = true ∧
    nextSat (step (State.reset.withFetchWord 16 0x9C78)) (fun t => t.phase == .inflate) = true ∧
    nextSat (step (State.reset.withFetchWord 8 4)) (fun t => t.phase == .done) = true := by decide

/-! ### Witnesses: for each statement's hypotheses, a state and operands that meet all of them together -/

/-- Enough fresh bits. -/
theorem streamOk_withZ : StreamOk (withZ [0xB5, 0x01]) := by unfold StreamOk ReaderOk; decide
theorem streamOk_empty : StreamOk (withZ []) := by unfold StreamOk ReaderOk; decide
/-- Pending bits, and a byte ahead. -/
theorem streamOk_pending : StreamOk { withZ [0xB5, 0x01] with br := { pos := 1, acc := 0x0B, cnt := 4 } } := by
  unfold StreamOk ReaderOk; decide
theorem roomFor_unbounded (s : State) (h : s.cfg.outCap = none) (n : Nat) : roomFor s n := by
  intro cap hc; rw [h] at hc; cases hc

/-- A machine whose output buffer holds at most `cap` bytes. -/
def capped (cap : Nat) (s : State) : State :=
  { s with cfg := { addrBits := 64, outCap := some cap, missingBranch := .fault } }

theorem witness_RegisterFile_read : (hosted [.readReg 8]).host = .readReg 8 :: [] := rfl
theorem witness_RegisterFile_read_other : (hosted [.readReg 9]).host = .readReg 9 :: [] := rfl
theorem witness_RegisterFile_write :
    (hosted [.writeReg 3 7]).host = .writeReg 3 7 :: [] ∧ 3 ≠ 0 ∧ isBusy (hosted [.writeReg 3 7]) = false := by decide
theorem witness_ControlRegister_start :
    (hosted [.writeReg 0 1]).host = .writeReg 0 1 :: [] ∧ isBusy (hosted [.writeReg 0 1]) = false ∧
    Nat.testBit 1 0 = true := by decide
theorem witness_ControlRegister_busy :
    ({ hosted [.writeReg 0 1] with status := 1 } : State).host = .writeReg 0 1 :: [] ∧
    isBusy { hosted [.writeReg 0 1] with status := 1 } = true := by decide
theorem witness_ControlRegister_zero :
    (hosted [.writeReg 0 2]).host = .writeReg 0 2 :: [] ∧ Nat.testBit 2 0 = false := by decide
theorem witness_ControlRegister_read : (hosted [.readReg 0]).host = .readReg 0 :: [] := rfl
theorem witness_JobStart :
    ({ hosted [.writeReg 0 3, .wait] with status := 4 } : State).host = .writeReg 0 3 :: [.wait] ∧ Nat.testBit 3 0 = true ∧
    isBusy { hosted [.writeReg 0 3, .wait] with status := 4 } = false := by decide
theorem witness_JobStart_only :
    isRunning (hosted [.writeReg 0 1]).phase = false ∧ ∃ t, step (hosted [.writeReg 0 1]) = .next t ∧ isRunning t.phase = true :=
  ⟨rfl, _, rfl, rfl⟩
theorem witness_FaultEntry : State.reset.host = [] := rfl
/-- One machine fresh from reset, one after a job that ended with a result. -/
theorem witness_NextJobForgets :
    ∃ s₁ s₂ : State, s₁ ≠ s₂ ∧ s₁.host = .writeReg 0 1 :: [] ∧ s₂.host = .writeReg 0 1 :: [] ∧ Nat.testBit 1 0 = true ∧
      isBusy s₁ = false ∧ isBusy s₂ = false ∧ s₁.cfg = s₂.cfg ∧ s₁.hostRead = s₂.hostRead ∧ s₁.inLen = s₂.inLen ∧
      s₁.inSpace = s₂.inSpace ∧ s₁.inDraw = s₂.inDraw :=
  ⟨hosted [.writeReg 0 1], { hosted [.writeReg 0 1] with status := 2, phase := .done, pix := cells [1] }, by decide⟩
theorem witness_HostMoves_load_busy :
    ({ hosted [.load 0 [1]] with status := 1 } : State).host = .load 0 [1] :: [] ∧
    isBusy { hosted [.load 0 [1]] with status := 1 } = true := by decide
theorem witness_HostMoves_load_outside :
    (hosted [.load (2 ^ 64) [1]]).host = .load (2 ^ 64) [1] :: [] ∧ isBusy (hosted [.load (2 ^ 64) [1]]) = false ∧
    2 ^ (hosted []).cfg.addrBits < 2 ^ 64 + [(1 : Byte)].length := by decide
/-- The last byte of the address space. -/
theorem witness_HostMoves_load :
    (hosted [.load (2 ^ 64 - 1) [1]]).host = .load (2 ^ 64 - 1) [1] :: [] ∧ isBusy (hosted []) = false ∧
    2 ^ 64 - 1 + [(1 : Byte)].length ≤ 2 ^ (hosted []).cfg.addrBits ∧ Memory.wf (hosted []).inSpace = true := by decide
theorem witness_HostMoves_pix_no_image :
    (hosted [.readPix 0]).host = .readPix 0 :: [] ∧ isDone (hosted [.readPix 0]) = false := by decide
theorem witness_HostMoves_pix_outside :
    ({ hosted [.readPix 1] with status := 2, pixLen := 1 } : State).host = .readPix 1 :: [] ∧
    isDone { hosted [.readPix 1] with status := 2, pixLen := 1 } = true ∧
    ({ hosted [.readPix 1] with status := 2, pixLen := 1 } : State).pixLen ≤ 1 := by decide
theorem witness_HostMoves_pix :
    ({ hosted [.readPix 0] with status := 2, pixLen := 1, pix := cells [9] } : State).host = .readPix 0 :: [] ∧
    isDone { hosted [.readPix 0] with status := 2, pixLen := 1, pix := cells [9] } = true ∧ 0 < 1 ∧
    Memory.read (cells [9]) 0 = some 9 := by decide
theorem witness_HostMoves_wait :
    ({ hosted [.wait] with status := 1 } : State).host = .wait :: [] ∧ isBusy { hosted [.wait] with status := 1 } = true ∧
    (hosted [.wait]).host = .wait :: [] ∧ isBusy (hosted [.wait]) = false := by decide
theorem witness_HostMoves_tick : (hosted [.tick]).host = .tick :: [] := rfl
theorem witness_ResetState : ({ withIn [1] with host := [.powerOn] } : State).host = .powerOn :: [] := rfl
theorem witness_NoJobNoEffect_idle :
    State.reset.host = [] ∧ isRunning State.reset.phase = false ∧
    isRunning ({ State.reset with phase := .done } : State).phase = false ∧
    isRunning ({ State.reset with phase := .error } : State).phase = false := by decide
/-- A faulted machine, whose host loads the next input. -/
theorem witness_NoJobNoEffect_error :
    ∃ s t : State, s.phase = .error ∧ InterfaceInv s ∧ step s = .next t ∧ s.host.head? ≠ some .powerOn ∧
      (∀ v, s.host.head? = some (.writeReg 0 v) → v.testBit 0 = false) := by
  refine ⟨{ raise .outOfData State.reset with host := [.load 0 [1]] }, _, rfl, ?_, rfl, by decide, ?_⟩
  · exact ⟨rfl, ⟨rfl, rfl, rfl, rfl, rfl⟩, .outOfData, by decide, rfl, rfl⟩
  · intro v h; cases h
theorem witness_ReadBit_end : (withZ []).br.cnt = 0 ∧ Memory.len (withZ []).zbuf ≤ (withZ []).br.pos := by decide
theorem witness_ReadBit_load :
    (withZ [5]).br.cnt = 0 ∧ (withZ [5]).br.pos < Memory.len (withZ [5]).zbuf ∧
    Memory.read (withZ [5]).zbuf (withZ [5]).br.pos = some 5 := by decide
theorem witness_ReadBit_pending : 0 < ({ withZ [5] with br := { pos := 1, acc := 2, cnt := 7 } } : State).br.cnt := by decide
theorem witness_ReadBit_example :
    (withZ [0xB5]).zbuf = [(0, 0xB5)] ∧ (withZ [0xB5]).br = { pos := 0, acc := 0, cnt := 0 } := by decide
/-- All 12 bits that are there, one of them too many, and a field of no bits. -/
theorem witness_ReadBits :
    StreamOk { withZ [0xB5, 0x01] with br := { pos := 1, acc := 0x0B, cnt := 4 } } ∧
    12 = (bitsAhead { withZ [0xB5, 0x01] with br := { pos := 1, acc := 0x0B, cnt := 4 } }).length :=
  ⟨streamOk_pending, by decide⟩
theorem witness_ReadBits_short : StreamOk (withZ []) ∧ (bitsAhead (withZ [])).length < 1 := ⟨streamOk_empty, by decide⟩
theorem witness_AlignedReads :
    Memory.dense (withZ [5, 1]).zbuf = true ∧ 0 < 2 ∧ [(5 : Byte), 1].length = 2 ∧
    (∀ k < 2, Memory.read (withZ [5, 1]).zbuf ((withZ [5, 1]).br.pos + k) = [(5 : Byte), 1][k]?) := by decide
theorem witness_AlignedReads_short :
    Memory.dense (withZ [5]).zbuf = true ∧ 0 < 2 ∧ Memory.len (withZ [5]).zbuf < (withZ [5]).br.pos + 2 := by decide
theorem witness_AlignedReads_byte :
    Memory.dense (withZ [5]).zbuf = true ∧ Memory.read (withZ [5]).zbuf (withZ [5]).br.pos = some 5 ∧
    Memory.dense (withZ []).zbuf = true ∧ Memory.len (withZ []).zbuf ≤ (withZ []).br.pos := by decide
theorem witness_BitPosition :
    ∃ s : State, ReaderOk s ∧ (∃ b t, readBit s = .ok b t) ∧ (∃ b t, readByte s = .ok b t) ∧
      (∃ v t, readBits 13 s = .ok v t) ∧ (∃ v t, readBytes 2 s = .ok v t) ∧ (∃ c t, readBits 17 s = .raised c t) ∧
      (∃ c t, readBytes 3 s = .raised c t) :=
  ⟨withZ [0xB5, 0x01], streamOk_withZ.2, ⟨_, _, rfl⟩, ⟨_, _, rfl⟩, ⟨_, _, rfl⟩, ⟨_, _, rfl⟩, ⟨_, _, rfl⟩, ⟨_, _, rfl⟩⟩
theorem witness_PaddingUnseen :
    (withZ []).host = [] ∧ ({ withZ [] with phase := .zlibHdr } : State).phase = .zlibHdr ∧
    ({ withZ [] with phase := .zlibTrl } : State).phase = .zlibTrl ∧
    (({ withZ [] with infPos := .storedBlock } : State).phase = .inflate ∧
      ({ withZ [] with infPos := .storedBlock } : State).infPos = .storedBlock) := by decide
theorem witness_CanonicalAssignment :
    [2, 1, 0, 15][3]? = some 15 ∧ 0 < 15 ∧ 15 ≤ maxBits ∧ [2, 1, 0, 15][2]? = some 0 := by decide
theorem witness_CanonicalCodesDecode :
    [2, 1, 3, 3].length ≤ 2 ^ 16 ∧ (∀ l ∈ [2, 1, 3, 3], l ≤ maxBits) ∧ codeSpace [2, 1, 3, 3] = 2 ^ maxBits ∧
    [2, 1, 3, 3][3]? = some 3 ∧ (assignCodes (nextCodes [2, 1, 3, 3]) [2, 1, 3, 3])[3]? = some (some 7) := by decide
/-- The edges of the four ranges of R86, and of R87. -/
theorem witness_FixedCodes :
    143 ≤ 143 ∧ (144 ≤ 144 ∧ 144 ≤ 255) ∧ (144 ≤ 255 ∧ 255 ≤ 255) ∧ (256 ≤ 256 ∧ 256 ≤ 279) ∧ (280 ≤ 280 ∧ 280 ≤ 287) ∧
    29 ≤ 29 := by decide
theorem witness_EmptyTree : (∀ L ∈ [0, 0, 0], L = 0) ∧ (build [0, 0, 0]).ncodes = 0 := by decide
/-- The tree whose only code is `0`: at the root the bit 1 selects an absent child; the walk may go on at the root. -/
theorem witness_AbsentBranch :
    (oneCode 5).ncodes ≠ 0 ∧ follow (oneCode 5) 0 [] = some 0 ∧
    (oneCode 5).nodes[0]? = some { symbol := 0, left := 1, right := 0 } ∧
    isLeaf { symbol := 0, left := 1, right := 0 } = false ∧ childOf { symbol := 0, left := 1, right := 0 } true = 0 ∧
    walk (oneCode 5) .restartRoot [false] = .found 5 1 ∧ walk (oneCode 5) .restartRoot [] = .short 0 := by decide
/-- A deeper branch, of the fixed distance tree: after `111` the bit 1 (R87). -/
theorem witness_AbsentBranch_fixed :
    follow fixedDist 0 [true, true, true] ≠ none ∧ walk fixedDist .fault [true, true, true, true] = .bad .missingBranch 4 := by
  decide +kernel
theorem witness_DecodeEncode :
    WellFormed (.dist4 1) = true ∧ isPseudo (.dist4 1) = false ∧
    encode { lit := noTree, dist := oneCode 4, cl := noTree, pending := 0 } (.dist4 1) = some [false, true] ∧
    WellFormed (.stored 1 0 [7]) = true ∧ isPseudo (.stored 1 0 [7]) = false ∧
    encode { lit := noTree, dist := noTree, cl := noTree, pending := 0 } (.stored 1 0 [7]) ≠ none := by decide
theorem witness_PseudoEncodings :
    (3 ≤ 258 ∧ 258 ≤ 258 ∧ 1 ≤ 32768 ∧ 32768 ≤ 32768) ∧ (3 ≤ 10 ∧ 10 ≤ 10) ∧ (11 ≤ 138 ∧ 138 ≤ 138) ∧ (3 ≤ 6 ∧ 6 ≤ 6) := by
  decide
theorem witness_SymbolMaps : 15 ≤ 15 ∧ (257 ≤ 285 ∧ 285 ≤ 285) ∧ 29 ≤ 29 := by decide

/-- The signature as the input of a machine at its first element. -/
def atSignature : State := withIn [0x89, 0x50, 0x4E, 0x47, 0x0D, 0x0A, 0x1A, 0x0A]

theorem witness_StepRuns_signature :
    atSignature.host = [] ∧ atSignature.phase = .png ∧ atSignature.pngPos = .signature ∧
    (∃ v u, rdn 8 atSignature = .ok v u) ∧
    decode atSignature.cfg.missingBranch .signature (inBitsAhead atSignature) = .element .sig :=
  ⟨rfl, rfl, rfl, ⟨_, _, rfl⟩, by decide⟩

/-- A machine at its first chunk. -/
def atFirstChunk : State :=
  { withIn ([0, 0, 0, 13, 0x49, 0x48, 0x44, 0x52] ++ [0, 0, 0, 1, 0, 0, 0, 2, 8, 6, 0, 0, 0] ++ [0, 0, 0, 0]) with
    pngPos := .firstChunk }

theorem witness_StepRuns_firstChunk :
    atFirstChunk.host = [] ∧ atFirstChunk.phase = .png ∧ atFirstChunk.pngPos = .firstChunk ∧
    (∃ u, chunkHeader atFirstChunk = .ok () u) ∧
    decode atFirstChunk.cfg.missingBranch .firstChunk (inBitsAhead atFirstChunk) =
      .element (.chunkIhdr 1 2 8 6 0 0 0 0) :=
  ⟨rfl, rfl, rfl, ⟨_, rfl⟩, by decide +kernel⟩

/-- A machine in the chunk loop, at an IEND. -/
def atIend : State := { withIn [0, 0, 0, 0, 0x49, 0x45, 0x4E, 0x44, 0, 0, 0, 0] with pngPos := .chunkLoop }

theorem witness_StepRuns_chunk :
    atIend.host = [] ∧ atIend.phase = .png ∧ atIend.pngPos = .chunkLoop ∧ (∃ u, chunkHeader atIend = .ok () u) ∧
    decode atIend.cfg.missingBranch .chunk (inBitsAhead atIend) = .element (.chunkIend 0 [] 0) :=
  ⟨rfl, rfl, rfl, ⟨_, rfl⟩, by decide +kernel⟩
theorem witness_StepRuns_zlib :
    (withZ [0x78, 0x9C]).host = [] ∧ ({ withZ [0x78, 0x9C] with phase := .zlibHdr } : State).phase = .zlibHdr ∧
    decode .fault .zlibHeader (alignedBitsAhead { withZ [0x78, 0x9C] with phase := .zlibHdr }) = .element (.zhdr 0x78 0x9C) ∧
    ({ withZ [1, 2, 3, 4] with phase := .zlibTrl } : State).phase = .zlibTrl ∧
    decode .fault .trailer (alignedBitsAhead { withZ [1, 2, 3, 4] with phase := .zlibTrl }) =
      .element (.ztrl 0x04030201) := by decide
theorem witness_StepRuns_block :
    (withZ [0x03]).phase = .inflate ∧ (withZ [0x03]).infPos = .blockHeader ∧ (∃ u, blkHeader (withZ [0x03]) = .ok () u) ∧
    decode .fault .blockHeader (bitsAhead (withZ [0x03])) = .element (.blkFixed true) :=
  ⟨rfl, rfl, ⟨_, rfl⟩, by decide⟩
theorem witness_StepRuns_stored :
    ({ withZ [1, 0, 0, 0, 7] with infPos := .storedBlock } : State).infPos = .storedBlock ∧
    decode .fault .storedBlock (alignedBitsAhead { withZ [1, 0, 0, 0, 7] with infPos := .storedBlock }) =
      .element (.stored 1 0 [7]) ∧
    ({ withZ [0, 0, 0, 0] with infPos := .dynHeader } : State).infPos = .dynHeader ∧
    decode .fault .dynHeader (bitsAhead { withZ [0, 0, 0, 0] with infPos := .dynHeader }) =
      .element (.dyn 257 1 4 [0, 0, 0, 0]) := by decide

/-- A machine about to read a coded symbol whose code is `0`. -/
def atCoded (pos : InfPos) (lit dist cl : Tree) : State :=
  { withZ [0x02, 0] with infPos := pos, litTree := lit, distTree := dist, clTree := cl, hlit := 257, hdist := 1 }

theorem witness_StepRuns_coded :
    (∃ u, huffDecode (oneCode 17) (atCoded .codeLengths noTree noTree (oneCode 17)) = .ok 17 u) ∧
    decode .fault (.codeLength (oneCode 17)) (bitsAhead (atCoded .codeLengths noTree noTree (oneCode 17))) =
      .element (.cl17 4) ∧
    (∃ u, huffDecode (oneCode 65) (atCoded .symbols (oneCode 65) noTree noTree) = .ok 65 u) ∧
    decode .fault (.symbol (oneCode 65)) (bitsAhead (atCoded .symbols (oneCode 65) noTree noTree)) = .element (.lit 65) ∧
    (∃ u, huffDecode (oneCode 4) (atCoded .distance noTree (oneCode 4) noTree) = .ok 4 u) ∧
    decode .fault (.distance (oneCode 4)) (bitsAhead (atCoded .distance noTree (oneCode 4) noTree)) = .element (.dist4 1) :=
  ⟨⟨_, rfl⟩, by decide +kernel, ⟨_, rfl⟩, by decide +kernel, ⟨_, rfl⟩, by decide +kernel⟩
/-- The reads of the loop that raise: a signature, a chunk header and a block header cut short, a decode from a tree with no
code, one that runs out of bits, and one at an absent branch. -/
theorem witness_StepRuns_raised :
    (∃ u, rdn 8 (withIn [0x89]) = .raised .outOfData u) ∧ (∃ u, chunkHeader (withIn [0, 0, 0, 0, 0x49]) = .raised .outOfData u) ∧
    (∃ u, blkHeader (withZ []) = .raised .outOfData u) ∧
    (∃ u, huffDecode noTree (atCoded .distance (oneCode 65) noTree noTree) = .raised .emptyTree u) ∧
    (∃ u, huffDecode (oneCode 65) { withZ [] with infPos := .symbols, litTree := oneCode 65 } = .raised .outOfData u) ∧
    (∃ u, huffDecode (oneCode 17) { withZ [1] with infPos := .codeLengths, clTree := oneCode 17 } =
      .raised .missingBranch u) := ⟨⟨_, rfl⟩, ⟨_, rfl⟩, ⟨_, rfl⟩, ⟨_, rfl⟩, ⟨_, rfl⟩, ⟨_, rfl⟩⟩
theorem witness_StepRuns_row :
    (withRow [0, 0, 0, 0, 0, 0]).host = [] ∧ (withRow [0, 0, 0, 0, 0, 0]).phase = .defilter ∧
    decode .fault (.row (stride (withRow [0, 0, 0, 0, 0, 0])))
      (rowBits { withRow [0, 0, 0, 0, 0, 0] with out := cells [1, 1, 2, 3, 4, 5, 6] }) = .element (.row1 [1, 2, 3, 4, 5, 6]) := by
  decide +kernel
theorem witness_StreamOperands_zlib :
    Memory.wf (withZ [0x78, 0x9C]).zbuf = true ∧ Memory.read (withZ [0x78, 0x9C]).zbuf 0 = some 0x78 ∧
    Memory.read (withZ [0x78, 0x9C]).zbuf (0 + 1) = some 0x9C ∧
    (∀ k < 4, Memory.read (withZ [1, 2, 3, 4]).zbuf (0 + k) = [(1 : Byte), 2, 3, 4][k]?) := by decide
theorem witness_StreamOperands_stored :
    [(7 : Byte)].length = (le16 1 0).toNat ∧
    (∀ k < 4 + [(7 : Byte)].length, Memory.read (withZ [1, 0, 9, 9, 7]).zbuf (0 + k) = [(1 : Byte), 0, 9, 9, 7][k]?) := by decide
theorem witness_StreamOperands_row :
    [(1 : Byte), 2, 3, 4, 5, 6].length = stride (withRow [0, 0, 0, 0, 0, 0]) ∧ Memory.wf (cells [5, 1, 2, 3, 4, 5, 6]) = true ∧
    (∀ k < 1 + stride (withRow [0, 0, 0, 0, 0, 0]),
      Memory.read (cells [5, 1, 2, 3, 4, 5, 6]) (0 * (stride (withRow [0, 0, 0, 0, 0, 0]) + 1) + k) =
        [(5 : Byte), 1, 2, 3, 4, 5, 6][k]?) := by decide
/-- An IDAT of one byte whose CRC is cut short, and a header cut short. -/
theorem witness_ChunkLoop :
    [(0 : Byte), 0, 0, 1, 0x49, 0x44, 0x41, 0x54].length = 8 ∧ be32 0 0 0 1 = 1 ∧ be32 0x49 0x44 0x41 0x54 = 0x49444154 ∧
    [(7 : Byte)].length = (1 : Word).toNat ∧
    0 + 8 + (1 : Word).toNat ≤ (withIn [0, 0, 0, 1, 0x49, 0x44, 0x41, 0x54, 7]).lenIn ∧
    (∀ k < 8 + (1 : Word).toNat, ([(0 : Byte), 0, 0, 1, 0x49, 0x44, 0x41, 0x54] ++ [7])[k]? =
      some (inByte (withIn [0, 0, 0, 1, 0x49, 0x44, 0x41, 0x54, 7]) (0 + k))) ∧
    (withIn [0]).lenIn < 0 + 8 ∧
    0 + 12 + (1 : Word).toNat = (withIn [0, 0, 0, 1, 0x49, 0x44, 0x41, 0x54, 7, 1, 2, 3, 4]).lenIn := by decide
theorem witness_Signature :
    atSignature.pcur + 8 = atSignature.lenIn ∧
    (∀ k < 8, [(0x89 : Byte), 0x50, 0x4E, 0x47, 0x0D, 0x0A, 0x1A, 0x0A][k]? =
      some (inByte atSignature (atSignature.pcur + k))) ∧
    (withIn [1]).host = [] ∧ (withIn [1]).phase = .png ∧ (withIn [1]).pngPos = .signature ∧
    (withIn [1]).lenIn < (withIn [1]).pcur + 8 := by decide
theorem witness_FirstChunk :
    atFirstChunk.pcur + 8 ≤ atFirstChunk.lenIn ∧ atFirstChunk.pcur + 21 ≤ atFirstChunk.lenIn ∧
    atFirstChunk.pcur + 25 = atFirstChunk.lenIn ∧
    (∀ k < 8, [(0 : Byte), 0, 0, 13, 0x49, 0x48, 0x44, 0x52][k]? = some (inByte atFirstChunk (atFirstChunk.pcur + k))) ∧
    be32 0x49 0x48 0x44 0x52 = 0x49484452 ∧ be32 0 0 0 13 = 13 := by decide
theorem witness_FirstChunk_faults :
    (∀ k < 8, [(0 : Byte), 0, 0, 12, 0x49, 0x48, 0x44, 0x52][k]? =
      some (inByte (withIn [0, 0, 0, 12, 0x49, 0x48, 0x44, 0x52]) (0 + k))) ∧
    be32 0 0 0 12 ≠ 13 ∧ be32 0x49 0x44 0x41 0x54 ≠ 0x49484452 ∧ (withIn [1, 2]).lenIn < (withIn [1, 2]).pcur + 8 := by
  decide
theorem witness_Ihdr :
    (withIn (List.replicate 17 0)).pcur + 17 = (withIn (List.replicate 17 0)).lenIn ∧
    (withIn (List.replicate 16 0)).lenIn < (withIn (List.replicate 16 0)).pcur + 17 ∧
    (withIn [0]).lenIn < (withIn [0]).pcur + 17 := by decide
theorem witness_Idat :
    Memory.wf (withIn [7, 0, 0, 0, 0]).zbuf = true ∧ (withIn [7, 0, 0, 0, 0]).pcur + (1 : Word).toNat + 4 ≤ 5 := by decide
theorem witness_Idat_faults :
    ({ withIn [7] with lenIn := 0 } : State).lenIn < 0 + (1 : Word).toNat ∧
    0 + (1 : Word).toNat ≤ (withIn [7, 0]).lenIn ∧ (withIn [7, 0]).lenIn < 0 + (1 : Word).toNat + 4 := by decide
theorem witness_SkippedChunks :
    (withIn [0, 0, 0, 0]).pcur + (0 : Word).toNat + 4 ≤ (withIn [0, 0, 0, 0]).lenIn ∧
    (withIn [0, 0, 0]).lenIn < (withIn [0, 0, 0]).pcur + (0 : Word).toNat + 4 := by decide
theorem witness_ZlibHeader :
    Memory.dense (withZ [0x78, 0x9C]).zbuf = true ∧
    (withZ [0x78, 0x9C]).br.pos + 2 ≤ Memory.len (withZ [0x78, 0x9C]).zbuf ∧ Memory.dense (withZ [0x78]).zbuf = true ∧
    Memory.len (withZ [0x78]).zbuf < (withZ [0x78]).br.pos + 2 := by decide
theorem witness_Trailer :
    Memory.dense (withZ [1, 2, 3, 4]).zbuf = true ∧ (withZ [1, 2, 3, 4]).br.pos + 4 ≤ Memory.len (withZ [1, 2, 3, 4]).zbuf ∧
    Memory.dense (withZ [1, 2, 3]).zbuf = true ∧ Memory.len (withZ [1, 2, 3]).zbuf < (withZ [1, 2, 3]).br.pos + 4 := by decide
theorem witness_StoredBlock :
    Memory.dense (withZ [1, 0, 0, 0, 7]).zbuf = true ∧ Memory.wf (withZ [1, 0, 0, 0, 7]).out = true ∧
    [(7 : Byte)].length = (1 : Half).toNat ∧
    (withZ [1, 0, 0, 0, 7]).br.pos + 4 + (1 : Half).toNat ≤ Memory.len (withZ [1, 0, 0, 0, 7]).zbuf ∧
    roomFor (withZ [1, 0, 0, 0, 7]) (1 : Half).toNat :=
  ⟨by decide, by decide, by decide, by decide, roomFor_unbounded _ rfl _⟩
theorem witness_StoredBlock_full :
    Memory.dense (capped 0 (withZ [1, 0, 0, 0, 7])).zbuf = true ∧ [(7 : Byte)].length = (1 : Half).toNat ∧
    0 + 4 + (1 : Half).toNat ≤ Memory.len (capped 0 (withZ [1, 0, 0, 0, 7])).zbuf ∧
    (capped 0 (withZ [1, 0, 0, 0, 7])).cfg.outCap = some 0 ∧ 0 < (1 : Half).toNat ∧
    0 < Memory.len (capped 0 (withZ [1, 0, 0, 0, 7])).out + (1 : Half).toNat := by decide
theorem witness_StoredBlock_short :
    Memory.dense (withZ [2, 0, 0, 0, 7]).zbuf = true ∧ [(7 : Byte)].length < (2 : Half).toNat ∧
    (withZ [2, 0, 0, 0, 7]).br.pos + 4 + [(7 : Byte)].length = Memory.len (withZ [2, 0, 0, 0, 7]).zbuf ∧
    roomFor (withZ [2, 0, 0, 0, 7]) [(7 : Byte)].length ∧
    Memory.len (withZ [2, 0, 0]).zbuf < (withZ [2, 0, 0]).br.pos + 4 :=
  ⟨by decide, by decide, by decide, roomFor_unbounded _ rfl _, by decide⟩
theorem witness_DynamicHeader :
    StreamOk (withZ [0, 0, 0, 0]) ∧ WellFormed (.dyn 257 1 4 [1, 2, 3, 4]) = true ∧
    14 + 3 * 4 ≤ (bitsAhead (withZ [0, 0, 0, 0])).length ∧ StreamOk (withZ []) ∧ (bitsAhead (withZ [])).length < 14 + 3 * 4 :=
  ⟨by unfold StreamOk ReaderOk; decide, by decide, by decide, streamOk_empty, by decide⟩
theorem witness_CodeLength : clParts .cl0 = some 0 ∧ clParts .cl15 = some 15 := by decide
theorem witness_CodeLengthRepeats :
    StreamOk { withZ [0xB5, 0x01] with lens := [5] } ∧ ({ withZ [0xB5, 0x01] with lens := [5] } : State).lens.getLast? = some 5 ∧
    7 ≤ (bitsAhead { withZ [0xB5, 0x01] with lens := [5] }).length ∧ StreamOk (withZ []) ∧ (withZ []).lens = [] ∧
    (bitsAhead (withZ [])).length < 2 :=
  ⟨by unfold StreamOk ReaderOk; decide, by decide, by decide, streamOk_empty, rfl, by decide⟩
theorem witness_Literal :
    roomFor (withZ []) 1 ∧ Memory.wf (withZ []).out = true ∧ (capped 0 (withZ [])).cfg.outCap = some 0 ∧
    0 < Memory.len (capped 0 (withZ [])).out + 1 := ⟨roomFor_unbounded _ rfl _, by decide, by decide, by decide⟩
theorem witness_LengthSymbol :
    lenParts (.len284 31) = some (284, 31) ∧ lenParts .len257 = some (257, 0) ∧ StreamOk (withZ [0xB5, 0x01]) ∧
    lenExtra.getD (284 - 257) 0 ≤ (bitsAhead (withZ [0xB5, 0x01])).length ∧ StreamOk (withZ []) ∧
    (bitsAhead (withZ [])).length < lenExtra.getD (284 - 257) 0 :=
  ⟨by decide, by decide, streamOk_withZ, by decide, streamOk_empty, by decide⟩
theorem witness_DistanceSymbol :
    distParts (.dist4 1) = some (4, 1) ∧ StreamOk { withZ [1] with matchLen := 1, out := cells [9, 2, 3, 4, 5, 6] } ∧
    Memory.dense (cells [9, 2, 3, 4, 5, 6]) = true ∧
    distExtra.getD 4 0 ≤ (bitsAhead { withZ [1] with matchLen := 1, out := cells [9, 2, 3, 4, 5, 6] }).length ∧
    distBase.getD 4 0 + 1 = Memory.len (cells [9, 2, 3, 4, 5, 6]) ∧
    roomFor { withZ [1] with matchLen := 1, out := cells [9, 2, 3, 4, 5, 6] } 1 :=
  ⟨by decide, by unfold StreamOk ReaderOk; decide, by decide, by decide, by decide, roomFor_unbounded _ rfl _⟩
theorem witness_DistanceFaults :
    distParts (.dist29 0) = some (29, 0) ∧ (bitsAhead (withZ [])).length < distExtra.getD 29 0 ∧
    distExtra.getD 29 0 ≤ (bitsAhead (withZ [0xB5, 0x01])).length ∧
    Memory.len (withZ [0xB5, 0x01]).out < distBase.getD 29 0 + 0 ∧ distParts .dist0 = some (0, 0) ∧
    (capped 1 { withZ [0] with matchLen := 3, out := cells [9] }).cfg.outCap = some 1 ∧
    distBase.getD 0 0 + 0 ≤ Memory.len (cells [9]) ∧ 1 < Memory.len (cells [9]) + 3 := by decide
theorem witness_CopyTiles : Memory.dense (cells [1, 2]) = true ∧ 0 < 2 ∧ 2 ≤ Memory.len (cells [1, 2]) := by decide

/-- A machine at a MATCH 14, 6: one extra bit, the code `0`, one extra bit. -/
def atMatch : State := { withZ [0x05] with distTree := oneCode 4, out := cells [1, 2, 3, 4, 5, 6] }

theorem witness_PseudoMeanings :
    StreamOk atMatch ∧ Memory.dense atMatch.out = true ∧ 3 ≤ 14 ∧ 14 ≤ 258 ∧ 6 = Memory.len atMatch.out ∧ roomFor atMatch 14 ∧
    walk atMatch.distTree atMatch.cfg.missingBranch
      ((bitsAhead atMatch).drop (lenExtra.getD ((lenSymbol 14).1 - 257) 0)) = .found (distSymbol 6).1 1 ∧
    lenExtra.getD ((lenSymbol 14).1 - 257) 0 + 1 + distExtra.getD (distSymbol 6).1 0 ≤ (bitsAhead atMatch).length :=
  ⟨by unfold StreamOk ReaderOk; decide, by decide, by decide, by decide, by decide, roomFor_unbounded _ rfl _, by decide, by decide⟩
theorem witness_Rows :
    rowParts (.row4 [1, 2, 3, 4, 5, 6]) = some (predPaeth, [1, 2, 3, 4, 5, 6]) ∧
    stride (withRow [0, 0, 0, 0, 0, 0]) ≤ [(1 : Byte), 2, 3, 4, 5, 6].length ∧
    stride (withRow [0, 0, 0, 0, 0, 0]) ≤ (withRow [0, 0, 0, 0, 0, 0]).prev.length ∧
    Memory.wf (withRow [0, 0, 0, 0, 0, 0]).pix = true := ⟨rfl, by decide, by decide, by decide⟩
/-- The three choices of the Paeth predictor: `a` on a tie, `b`, `c`. -/
theorem witness_Predictors :
    predPaeth 4 1 2 = 4 ∧ (((2 : Int) - 4).natAbs < ((8 : Int) - 4).natAbs ∧
      ((2 : Int) - 4).natAbs ≤ ((2 : Int) + 8 - 2 * 4).natAbs) ∧
    (((10 : Int) + 20 - 2 * 15).natAbs < ((20 : Int) - 15).natAbs ∧
      ((10 : Int) + 20 - 2 * 15).natAbs < ((10 : Int) - 15).natAbs) := by decide
theorem witness_InputUntouched : atSignature.host = [] ∧ ∃ t, step atSignature = .next t := ⟨rfl, _, rfl⟩
/-- A literal in phase INFLATE, a chunk in phase PNG. -/
theorem witness_SpacesWritten :
    (∃ t, step (atCoded .symbols (oneCode 65) noTree noTree) = .next t) ∧
    (atCoded .symbols (oneCode 65) noTree noTree).phase ≠ .png ∧ (atCoded .symbols (oneCode 65) noTree noTree).phase ≠ .defilter ∧
    (∃ t, step atIend = .next t) ∧ atIend.phase ≠ .inflate := ⟨⟨_, rfl⟩, by decide, by decide, ⟨_, rfl⟩, by decide⟩
theorem witness_PhaseForward :
    InterfaceInv (hosted [.writeReg 0 1]) ∧ (headerAccepted (hosted [.writeReg 0 1]) = true → 0 < (hosted [.writeReg 0 1]).h.toNat) ∧
    ∃ t, step (hosted [.writeReg 0 1]) = .next t :=
  ⟨⟨rfl, rfl, rfl, rfl, rfl, rfl, rfl⟩, by decide, _, rfl⟩
theorem witness_MemoryFormKept :
    (hosted [.load 3 [1, 2]]).memoryWf = true ∧ ∃ t, step (hosted [.load 3 [1, 2]]) = .next t := ⟨by decide, _, rfl⟩
theorem witness_InterfaceKept :
    InterfaceInv (withRow [0, 0, 0, 0, 0, 0]) ∧
    ∃ t, step { withRow [0, 0, 0, 0, 0, 0] with out := cells (List.replicate 14 0) } = .next t :=
  ⟨⟨rfl, rfl, rfl, rfl, rfl, rfl, rfl⟩, _, rfl⟩
theorem witness_SizesKept :
    SizesFit (withRow [0, 0, 0, 0, 0, 0]) ∧
    ∃ t, step { withRow [0, 0, 0, 0, 0, 0] with out := cells (List.replicate 14 0) } = .next t :=
  ⟨⟨by decide, by decide, (by decide : need (withRow [0, 0, 0, 0, 0, 0]) < 2 ^ 64)⟩, _, rfl⟩
/-- A start with a length of 2 and no byte of `IN` written. -/
theorem witness_EngineKeepsGoing_start :
    ({ hosted [.writeReg 0 1] with inLen := 2 } : State).host = .writeReg 0 1 :: [] ∧
    Nat.testBit 1 0 = true ∧ isBusy { hosted [.writeReg 0 1] with inLen := 2 } = false := by decide

/-- A machine in the defilter, its first row of two done. -/
def atSecondRow : State :=
  { withRow [1, 2, 3, 4, 5, 6] with row := 1, out := cells (List.replicate 14 0), pix := cells [1, 2, 3, 4, 5, 6] }

theorem witness_EngineKeepsGoing : EngineInv atSecondRow ∧ atSecondRow.host = [] ∧ isRunning atSecondRow.phase = true :=
  ⟨{ zbufDense := by decide
     outDense := by decide
     reader := by unfold ReaderOk; decide
     pcurInside := by decide
     litArena := by decide
     distArena := by decide
     clArena := by decide
     image := by decide
     rows := by decide
     pixels := ⟨by decide, rfl⟩ }, rfl, rfl⟩
theorem witness_Progress : ∃ t, step atSecondRow = .next t := ⟨_, rfl⟩
theorem witness_EveryJobEnds :
    ({ hosted [.writeReg 0 1] with inLen := 2 } : State).host = [.writeReg 0 1] ∧
    isBusy { hosted [.writeReg 0 1] with inLen := 2 } = false := by decide
/-- The signature, and one byte more that lies beyond `len(IN)`, in another draw of the unwritten bytes. -/
theorem witness_BeyondInputUnseen :
    atSignature.host = [] ∧
    (∀ a < atSignature.lenIn,
      inByte { atSignature with inSpace := Memory.append atSignature.inSpace 7, inDraw := 3 } a = inByte atSignature a) ∧
    (∃ t, step atSignature = .next t) := ⟨rfl, by decide, _, rfl⟩
/-- A row that `OUT` does not hold, which no run reaches: the step faults. -/
theorem witness_BeyondInputUnseen_fault :
    step { withRow [0, 0, 0, 0, 0, 0] with out := [] } = .fault .absentByte := by rfl
/-- A written byte of `IN`, and the two edges of its length. -/
theorem witness_InputUntouched_reads :
    Memory.read (withIn [7]).inSpace 0 = some 7 ∧ (withIn [7]).pcur < (withIn [7]).lenIn ∧
    (withIn []).lenIn ≤ (withIn []).pcur ∧ (withIn [1, 2, 3, 4]).pcur + 4 = (withIn [1, 2, 3, 4]).lenIn ∧
    (withIn [1, 2, 3]).lenIn < (withIn [1, 2, 3]).pcur + 4 := by decide
end Sys2Proof.Machine.Tests
end

section
/-! What one step of the engine can do to the registers that the host's interface, the order of the phases and the sizes
rest on. An element of a running job goes on, takes the fault entry, or finishes the job (R14, R290, R296, R315). -/

namespace Sys2Proof.Machine

/-- The part of the state that no element writes before its job ends: the parameters, the host's side, the interface
registers, the latched length, `FAULT` and `IN`; every other field at its reset value. -/
def hostSide (s : State) : State :=
  { State.reset with
    cfg := s.cfg, host := s.host, hostRead := s.hostRead, status := s.status, cause := s.cause, inLen := s.inLen,
    imgWidth := s.imgWidth, imgHeight := s.imgHeight, imgBpp := s.imgBpp, imgStride := s.imgStride, pixLen := s.pixLen,
    lenIn := s.lenIn, faultCode := s.faultCode, inSpace := s.inSpace, inDraw := s.inDraw }

/-- The host's side, the phase and what fixes the size of the image (R32, R56): what the elements keep that move no phase
and latch no header. -/
def stageView (s : State) : State :=
  { hostSide s with phase := s.phase, w := s.w, h := s.h, bpp := s.bpp }

/-- A part of a running job has led from `s` to `t`: the host's side is kept, the phase is the same or the next one (R30),
the IHDR's sizes change in phase PNG alone (R44), which is left only with sizes that fit (R293). -/
structure GoesOn (s t : State) : Prop where
  kept : hostSide t = hostSide s
  running : isRunning t.phase = true
  phase : t.phase = s.phase ∨ (s.phase, t.phase) ∈ phaseMoves
  header : s.phase ≠ .png → t.w = s.w ∧ t.h = s.h ∧ t.bpp = s.bpp
  fits : s.phase = .png → t.phase ≠ .png → need t < 2 ^ s.cfg.addrBits

/-- What a step of the engine can do in a running job. -/
inductive JobMove (s : State) : State → Prop
  /-- The job goes on. -/
  | goesOn {t : State} (h : GoesOn s t) : JobMove s t
  /-- The fault entry (R315), never with the host's own cause (R326). -/
  | faults {u : State} {c : Cause} (h : GoesOn s u) (hc : c ≠ .ioSource) : JobMove s (raise c u)
  /-- The end of the job (R296), from the defilter, or from the trailer of an image of no rows (assumption 18). -/
  | finishes {u : State} (h : GoesOn s u) (hu : u.phase = .defilter)
      (hs : s.phase = .defilter ∨ s.phase = .zlibTrl ∧ s.h.toNat = 0) : JobMove s (finishJob u)

theorem hostSide_of_stageView {s t : State} (h : stageView t = stageView s) : hostSide t = hostSide s :=
  (congrArg hostSide h :)

theorem phase_of_stageView {s t : State} (h : stageView t = stageView s) : t.phase = s.phase := (congrArg State.phase h :)

theorem sizes_of_stageView {s t : State} (h : stageView t = stageView s) : t.w = s.w ∧ t.h = s.h ∧ t.bpp = s.bpp :=
  ⟨(congrArg State.w h :), (congrArg State.h h :), (congrArg State.bpp h :)⟩

theorem cfg_of_hostSide {s t : State} (h : hostSide t = hostSide s) : t.cfg = s.cfg := (congrArg State.cfg h :)

/-- `NEED` is a matter of the three size registers (R56). -/
theorem need_congr {s t : State} (h : t.w = s.w ∧ t.h = s.h ∧ t.bpp = s.bpp) : need t = need s := by
  obtain ⟨hw, hh, hb⟩ := h
  simp only [need, stride, hw, hh, hb]

theorem GoesOn.of_stageView {s t : State} (hs : isRunning s.phase = true) (h : stageView t = stageView s) : GoesOn s t where
  kept := hostSide_of_stageView h
  running := by rw [phase_of_stageView h]; exact hs
  phase := .inl (phase_of_stageView h)
  header _ := sizes_of_stageView h
  fits hp hn := absurd ((phase_of_stageView h).trans hp) hn

/-- A part that starts from a state with the same view leads from the first one too. -/
theorem GoesOn.after {s u t : State} (h : stageView u = stageView s) (k : GoesOn u t) : GoesOn s t := by
  have hp := phase_of_stageView h
  obtain ⟨hw, hh, hb⟩ := sizes_of_stageView h
  obtain ⟨kept, running, phase, header, fits⟩ := k
  rw [hp] at phase header fits
  rw [hw, hh, hb] at header
  rw [cfg_of_hostSide (hostSide_of_stageView h)] at fits
  exact ⟨kept.trans (hostSide_of_stageView h), running, phase, header, fits⟩

theorem JobMove.after {s u t : State} (h : stageView u = stageView s) (k : JobMove u t) : JobMove s t := by
  cases k with
  | goesOn k => exact .goesOn (k.after h)
  | faults k hc => exact .faults (k.after h) hc
  | finishes k hu hs =>
    rw [phase_of_stageView h, (sizes_of_stageView h).2.1] at hs
    exact .finishes (k.after h) hu hs

/-- An element whose parts all keep the job going goes on, or takes the fault entry. -/
theorem Run.Ends.jobMove {s t : State} {r : Run Unit} (h : r.Ends (GoesOn s) (· ≠ .ioSource))
    (ht : r.outcome = .next t) : JobMove s t :=
  h.outcome (fun _ hu => .goesOn hu) (fun _ _ hc hu => .faults hu hc) ht

/-- The common case: an element that keeps the view of its stage. -/
theorem Run.Ends.stageMove {s t : State} {r : Run Unit} (hs : isRunning s.phase = true)
    (h : r.Ends (stageView · = stageView s) (· ≠ .ioSource)) (ht : r.outcome = .next t) : JobMove s t :=
  Run.Ends.jobMove (h.mono (fun _ hu => .of_stageView hs hu) fun _ hc => hc) ht

theorem ne_ioSource_of_outOfData (c : Cause) (h : c = .outOfData) : c ≠ .ioSource := by rw [h]; decide

/-! ### The elements of phase PNG -/

/-- The host's side is kept and the phase is still PNG. -/
def InPng (s u : State) : Prop := hostSide u = hostSide s ∧ u.phase = .png

theorem InPng.goesOn {s u : State} (hs : s.phase = .png) (h : InPng s u) : GoesOn s u where
  kept := h.1
  running := by rw [h.2]; rfl
  phase := .inl (h.2.trans hs.symm)
  header hn := absurd hs hn
  fits _ hn := absurd h.2 hn

theorem rd8_inPng {s u : State} (h : InPng s u) : (rd8 u).Ends (InPng s) (· ≠ .ioSource) :=
  (rd8_cursor u).mono (fun t ht => by rw [ht.1]; exact h) ne_ioSource_of_outOfData

theorem rd32_inPng {s u : State} (h : InPng s u) : (rd32 u).Ends (InPng s) (· ≠ .ioSource) :=
  (rd32_cursor u).mono (fun t ht => by rw [ht.1]; exact h) ne_ioSource_of_outOfData

theorem rdn_inPng {s u : State} (n : Nat) (h : InPng s u) : (rdn n u).Ends (InPng s) (· ≠ .ioSource) := by
  unfold rdn
  split
  · exact ⟨by decide, h⟩
  · exact h

theorem skip_inPng {s u : State} (n : Nat) (h : InPng s u) : (skip n u).Ends (InPng s) (· ≠ .ioSource) := by
  unfold skip
  split
  · exact ⟨by decide, h⟩
  · exact h

theorem skipChunk_inPng {s u : State} (len : Word) (h : InPng s u) : (skipChunk len u).Ends (InPng s) (· ≠ .ioSource) :=
  (skip_inPng _ h).andThen (fun _ _ hu => skip_inPng 4 hu) fun _ hu => hu

/-- The checks of the header raise, or latch `BPP` (R235 to R242). -/
theorem ihdrChecks_inPng {s u : State} (h : InPng s u) : (ihdrChecks u).Ends (InPng s) (· ≠ .ioSource) := by
  unfold ihdrChecks
  split_ifs
  iterate 6 exact ⟨by decide, h⟩
  all_goals exact h

theorem execSig_move {s t : State} (hs : s.phase = .png) (ht : exec .sig s = .next t) : JobMove s t := by
  refine Run.Ends.jobMove ((rdn_inPng 8 ⟨rfl, hs⟩).andThen (fun _ u hu => ?_) fun _ hu => hu.goesOn hs) ht
  exact InPng.goesOn (u := { u with pngPos := .firstChunk }) hs hu

theorem execChunkIhdr_move {width height crc : Word} {depth ctype cmeth fmeth imeth : Byte} {s t : State}
    (hs : s.phase = .png) (ht : exec (.chunkIhdr width height depth ctype cmeth fmeth imeth crc) s = .next t) :
    JobMove s t := by
  refine Run.Ends.jobMove (Run.Ends.mono (P := InPng s) ?_ (fun _ hu => hu.goesOn hs) fun _ hc => hc) ht
  refine (rd32_inPng ⟨rfl, hs⟩).andThen (fun _ s₁ h₁ => ?_) fun _ h => h
  refine (rd32_inPng (u := { s₁ with w := width }) h₁).andThen (fun _ s₂ h₂ => ?_) fun _ h => h
  refine (rd8_inPng (u := { s₂ with h := height }) h₂).andThen (fun _ s₃ h₃ => ?_) fun _ h => h
  refine (rd8_inPng (u := { s₃ with depth := depth }) h₃).andThen (fun _ s₄ h₄ => ?_) fun _ h => h
  refine (rd8_inPng (u := { s₄ with ctype := ctype }) h₄).andThen (fun _ s₅ h₅ => ?_) fun _ h => h
  refine (rd8_inPng (u := { s₅ with cmeth := cmeth }) h₅).andThen (fun _ s₆ h₆ => ?_) fun _ h => h
  refine (rd8_inPng (u := { s₆ with fmeth := fmeth }) h₆).andThen (fun _ s₇ h₇ => ?_) fun _ h => h
  refine (skip_inPng 4 (u := { s₇ with imeth := imeth }) h₇).andThen (fun _ s₈ h₈ => ?_) fun _ h => h
  exact (ihdrChecks_inPng h₈).andThen (fun _ _ h₉ => h₉) fun _ h => h

theorem execChunkIdat_move {len crc : Word} {payload : List Byte} {s t : State} (hs : s.phase = .png)
    (ht : exec (.chunkIdat len payload crc) s = .next t) : JobMove s t := by
  refine Run.Ends.jobMove (Run.Ends.mono (P := InPng s) ?_ (fun _ hu => hu.goesOn hs) fun _ hc => hc) ht
  exact (rdn_inPng _ ⟨rfl, hs⟩).andThen
    (fun _ u hu => skip_inPng 4 (u := { u with zbuf := Memory.appendAll u.zbuf payload }) hu) fun _ hu => hu

theorem execChunkOther_move {type len crc : Word} {payload : List Byte} {s t : State} (hs : s.phase = .png)
    (ht : exec (.chunkOther type len payload crc) s = .next t) : JobMove s t :=
  Run.Ends.jobMove ((skipChunk_inPng len ⟨rfl, hs⟩).mono (fun _ hu => hu.goesOn hs) fun _ hc => hc) ht

/-- IEND leaves phase PNG only with sizes that fit (R293). -/
theorem execChunkIend_move {len crc : Word} {payload : List Byte} {s t : State} (hs : s.phase = .png)
    (ht : exec (.chunkIend len payload crc) s = .next t) : JobMove s t := by
  refine Run.Ends.jobMove ((skipChunk_inPng len ⟨rfl, hs⟩).andThen (fun _ u hu => ?_) fun _ hu => hu.goesOn hs) ht
  rcases enterZlib_cases u with ⟨_, he⟩ | ⟨hfit, he⟩
  · rw [he]; exact ⟨by decide, hu.goesOn hs⟩
  · rw [he]
    exact
      { kept := hu.1
        running := rfl
        phase := .inr (by rw [hs]; exact (by decide : (Phase.png, Phase.zlibHdr) ∈ phaseMoves))
        header := fun hn => absurd hs hn
        fits := fun _ _ => by rw [cfg_of_hostSide hu.1] at hfit; exact hfit }

/-! ### The zlib elements -/

theorem readByte_view (s : State) : (readByte s).Ends (stageView · = stageView s) (· ≠ .ioSource) :=
  (readByte_ends s).mono (fun t ht => by rw [ht]; rfl) ne_ioSource_of_outOfData

theorem readBytes_view (n : Nat) (s : State) : (readBytes n s).Ends (stageView · = stageView s) (· ≠ .ioSource) :=
  (readBytes_ends n s).mono (fun t ht => by rw [ht]; rfl) ne_ioSource_of_outOfData

theorem readBits_view (n : Nat) (s : State) : (readBits n s).Ends (stageView · = stageView s) (· ≠ .ioSource) :=
  (readBits_ends n s).mono (fun t ht => by rw [ht]; rfl) ne_ioSource_of_outOfData

/-- The checks of the zlib header raise, or change nothing (R211 to R215). -/
theorem zlibChecks_ends (s : State) : (zlibChecks s).Ends (· = s) (· ≠ .ioSource) := by
  unfold zlibChecks
  split_ifs
  iterate 4 exact ⟨by decide, rfl⟩
  rfl

/-- A part run in a state of the same view. -/
theorem Run.Ends.after {α : Type} {s u : State} {r : Run α} {Q : Cause → Prop}
    (h : r.Ends (stageView · = stageView u) Q) (hu : stageView u = stageView s) : r.Ends (stageView · = stageView s) Q :=
  h.mono (fun _ ht => ht.trans hu) fun _ hc => hc

theorem execZhdr_move {cmf flg : Byte} {s t : State} (hs : s.phase = .zlibHdr) (ht : exec (.zhdr cmf flg) s = .next t) :
    JobMove s t := by
  have hr : isRunning s.phase = true := by rw [hs]; rfl
  refine Run.Ends.jobMove ((readByte_view s).andThen (fun _ u hu => ?_) fun _ => .of_stageView hr) ht
  refine (Run.Ends.after (u := { u with cmf := cmf }) (readByte_view _) hu).andThen (fun _ v hv => ?_)
    fun _ => .of_stageView hr
  refine (zlibChecks_ends { v with flg := flg }).andThen (fun _ w hw => ?_) fun w hw => ?_
  · exact
      { kept := by rw [hw]; exact (hostSide_of_stageView hv :)
        running := rfl
        phase := .inr (by rw [hs]; exact (by decide : (Phase.zlibHdr, Phase.inflate) ∈ phaseMoves))
        header := fun _ => by rw [hw]; exact (sizes_of_stageView hv :)
        fits := fun hp => by rw [hs] at hp; cases hp }
  · exact .of_stageView hr (by rw [hw]; exact hv)

/-- The start of the defilter, from the trailer (R260). -/
theorem GoesOn.defilter {s t : State} (hs : s.phase = .zlibTrl) (h : stageView t = { stageView s with phase := .defilter }) :
    GoesOn s t where
  kept := (congrArg hostSide h :)
  running := by rw [show t.phase = .defilter from (congrArg State.phase h :)]; rfl
  phase := .inr (by rw [hs, show t.phase = .defilter from (congrArg State.phase h :)]; decide)
  header _ := ⟨(congrArg State.w h :), (congrArg State.h h :), (congrArg State.bpp h :)⟩
  fits hp := by rw [hs] at hp; cases hp

theorem execZtrl_move {adler : Word} {s t : State} (hs : s.phase = .zlibTrl) (ht : exec (.ztrl adler) s = .next t) :
    JobMove s t := by
  have hr : isRunning s.phase = true := by rw [hs]; rfl
  have hv : (readBytes 4 { s with phase := .zlibTrl }).Ends (stageView · = stageView s) (· ≠ .ioSource) :=
    (readBytes_view 4 _).after (by rw [← hs])
  change ((readBytes 4 { s with phase := .zlibTrl }).andThen fun _ u => enterDefilter u).outcome = _ at ht
  cases hb : readBytes 4 { s with phase := .zlibTrl } with
  | stop f => rw [hb] at ht; cases ht
  | raised c u =>
    rw [hb] at ht hv
    cases ht
    exact .faults (.of_stageView hr hv.2) hv.1
  | ok v u =>
    rw [hb] at ht hv
    have hu : stageView u = stageView s := hv
    have hd (w : State) (hw : stageView w = { stageView u with phase := .defilter }) : GoesOn s w :=
      .defilter hs (by rw [hw, hu])
    rw [Run.andThen_ok] at ht
    rcases enterDefilter_cases u with ⟨_, he⟩ | ⟨_, h0, he⟩ | ⟨_, _, he⟩
    · rw [he] at ht; cases ht
      exact .faults (hd _ rfl) (by decide)
    · rw [he] at ht; cases ht
      exact .finishes (hd (defilterStart u) rfl) rfl (.inr ⟨hs, by rw [← (sizes_of_stageView hu).2.1]; exact h0⟩)
    · rw [he] at ht; cases ht
      exact .goesOn (hd _ rfl)

end Sys2Proof.Machine
end

section
/-! Which elements the decoder answers at each place of the stream (R34), and that their meanings are the shared parts. -/

namespace Sys2Proof

/-- A code-length symbol is a length, a repeat of the previous one, or a run of zeros (R83). -/
theorem clElement_cases (sym : Nat) (bits : List Bool) :
    (∃ v, clParts (clElement sym bits) = some v) ∨ (∃ rep, clElement sym bits = .cl16 rep) ∨
    (∃ rep, clElement sym bits = .cl17 rep) ∨ ∃ rep, clElement sym bits = .cl18 rep := by
  unfold clElement
  split
  case h_17 => exact .inr (.inl ⟨_, rfl⟩)
  case h_18 => exact .inr (.inr (.inl ⟨_, rfl⟩))
  case h_19 => exact .inr (.inr (.inr ⟨_, rfl⟩))
  all_goals exact .inl ⟨_, rfl⟩

/-- A literal/length symbol is a literal, the end of the block, a length, or invalid (R84). -/
theorem llElement_cases {sym : Nat} {bits : List Bool} {i : Instr} (h : llElement sym bits = .element i) :
    (∃ b, i = .lit b) ∨ i = .eob ∨ (∃ p, lenParts i = some p) ∨ i = .len286Invalid ∨ i = .len287Invalid := by
  unfold llElement at h
  split at h
  · cases h; exact .inl ⟨_, rfl⟩
  · split at h
    case h_1 => cases h; exact .inr (.inl rfl)
    case h_31 => cases h; exact .inr (.inr (.inr (.inl rfl)))
    case h_32 => cases h; exact .inr (.inr (.inr (.inr rfl)))
    case h_33 => cases h
    all_goals cases h; exact .inr (.inr (.inl ⟨_, rfl⟩))

/-- A distance symbol is a distance, or invalid (R85). -/
theorem distElement_cases {sym : Nat} {bits : List Bool} {i : Instr} (h : distElement sym bits = .element i) :
    (∃ p, distParts i = some p) ∨ i = .dist30Invalid ∨ i = .dist31Invalid := by
  unfold distElement at h
  split at h
  case h_31 => cases h; exact .inr (.inl rfl)
  case h_32 => cases h; exact .inr (.inr rfl)
  case h_33 => cases h
  all_goals cases h; exact .inl ⟨_, rfl⟩

/-- A chunk of the chunk loop is an IDAT, an IEND or another one (R243). -/
theorem decodeChunk_cases {bits : List Bool} {i : Instr} (h : decodeChunk bits = .element i) :
    (∃ len payload crc, i = .chunkIdat len payload crc) ∨ (∃ len payload crc, i = .chunkIend len payload crc) ∨
    ∃ type len payload crc, i = .chunkOther type len payload crc := by
  simp only [decodeChunk] at h
  split_ifs at h <;> cases h
  · exact .inl ⟨_, _, _, rfl⟩
  · exact .inr (.inl ⟨_, _, _, rfl⟩)
  · exact .inr (.inr ⟨_, _, _, _, rfl⟩)

/-- A block header is one of the four block types (R78). -/
theorem decodeBlk_cases {bits : List Bool} {i : Instr} (h : decodeBlk bits = .element i) :
    ∃ f, i = .blkStored f ∨ i = .blkFixed f ∨ i = .blkDynamic f ∨ i = .blkReserved f := by
  unfold decodeBlk at h
  split at h <;> cases h
  · exact ⟨_, .inl rfl⟩
  · exact ⟨_, .inr (.inl rfl)⟩
  · exact ⟨_, .inr (.inr (.inl rfl))⟩
  · exact ⟨_, .inr (.inr (.inr rfl))⟩

/-- A scanline has a predictor, or an invalid filter type (R88). -/
theorem decodeRow_cases {stride : Nat} {bits : List Bool} {i : Instr} (h : decodeRow stride bits = .element i) :
    (∃ p, Machine.rowParts i = some p) ∨ ∃ ft, i = .rowInvalid ft := by
  simp only [decodeRow] at h
  split_ifs at h <;> cases h
  iterate 5 exact .inl ⟨_, rfl⟩
  exact .inr ⟨_, rfl⟩

/-- A coded element is the element of the symbol that the walk finds (R81, R128). -/
theorem decodeCoded_element {mb : MissingBranch} {t : Tree} {of : Nat → List Bool → Decoded} {bits : List Bool} {i : Instr}
    (h : decodeCoded mb t of bits = .element i) : ∃ sym rest, of sym rest = .element i := by
  unfold decodeCoded at h
  split at h
  · exact ⟨_, _, h⟩
  all_goals cases h

/-- A walk that goes wrong inside a tree is at an absent branch (R129). -/
theorem Machine.walkFrom_bad {t : Tree} {mb : MissingBranch} {bits : List Bool} {k used n : Nat} {c : Cause}
    (h : Machine.walkFrom t mb k used bits = .bad c n) : c = .missingBranch := by
  induction bits generalizing k used with
  | nil =>
    simp only [walkFrom] at h
    split at h
    · cases h
    · split_ifs at h
  | cons b bs ih =>
    simp only [walkFrom] at h
    split at h
    · cases h
    · split_ifs at h
      · split at h
        · cases h; rfl
        · exact ih h
      · exact ih h

/-- The faults of a walk (R129, R130). -/
theorem Machine.walk_bad {t : Tree} {mb : MissingBranch} {bits : List Bool} {n : Nat} {c : Cause}
    (h : Machine.walk t mb bits = .bad c n) : c = .emptyTree ∨ c = .missingBranch := by
  unfold walk at h
  split_ifs at h
  · cases h; exact .inl rfl
  · exact .inr (walkFrom_bad h)

theorem decodeCoded_ne_ioSource {mb : MissingBranch} {t : Tree} {of : Nat → List Bool → Decoded} (bits : List Bool)
    (hof : ∀ sym rest, of sym rest ≠ .illegal .ioSource) : decodeCoded mb t of bits ≠ .illegal .ioSource := by
  unfold decodeCoded
  split
  · exact hof _ _
  · rename_i hw
    rcases Machine.walk_bad hw with rfl | rfl <;> nofun
  all_goals nofun

theorem llElement_ne_ioSource (sym : Nat) (bits : List Bool) : llElement sym bits ≠ .illegal .ioSource := by
  unfold llElement
  split
  · nofun
  · split <;> nofun

theorem distElement_ne_ioSource (sym : Nat) (bits : List Bool) : distElement sym bits ≠ .illegal .ioSource := by
  unfold distElement
  split <;> nofun

/-- The decoder never raises the host's own cause (R326). -/
theorem decode_ne_ioSource (mb : MissingBranch) (e : Expect) (bits : List Bool) :
    decode mb e bits ≠ .illegal .ioSource := by
  cases e with
  | signature => simp only [decode, decodeSignature]; split_ifs <;> nofun
  | firstChunk => simp only [decode, decodeFirstChunk]; split_ifs <;> nofun
  | chunk => simp only [decode, decodeChunk]; split_ifs <;> nofun
  | blockHeader => simp only [decode]; unfold decodeBlk; split <;> nofun
  | codeLength t =>
    exact decodeCoded_ne_ioSource (of := fun sym rest => .element (clElement sym rest)) bits fun _ _ => nofun
  | symbol t => exact decodeCoded_ne_ioSource bits llElement_ne_ioSource
  | distance t => exact decodeCoded_ne_ioSource bits distElement_ne_ioSource
  | row stride => simp only [decode, decodeRow]; split_ifs <;> nofun
  | zlibHeader | storedBlock | dynHeader | trailer => nofun

end Sys2Proof

namespace Sys2Proof.Machine

theorem exec_cl {i : Instr} {v : Nat} (h : clParts i = some v) (s : State) : exec i s = (runCl v s).outcome := by
  cases i <;> cases h <;> rfl

theorem exec_len {i : Instr} {p : Nat × Nat} (h : lenParts i = some p) (s : State) :
    exec i s = (runLen p.1 p.2 s).outcome := by
  cases i <;> cases h <;> rfl

theorem exec_dist {i : Instr} {p : Nat × Nat} (h : distParts i = some p) (s : State) :
    exec i s = (runDist p.1 p.2 s).outcome := by
  cases i <;> cases h <;> rfl

theorem exec_row {i : Instr} {p : (Byte → Byte → Byte → Byte) × List Byte} (h : rowParts i = some p) (s : State) :
    exec i s = (runRow p.1 p.2 s).outcome := by
  cases i <;> cases h <;> rfl

/-- What a step of the engine can do where the fetch reads ahead of the element (R14, R34). -/
theorem engineStep_fetchAfter {s t : State} {r : Run Unit} {d : Decoded} (hf : fetch s = fetchAfter r d)
    (h : engineStep s = .next t) :
    (∃ c u, r = .raised c u ∧ t = raise c u) ∨ (∃ i u, r = .ok () u ∧ d = .element i ∧ exec i u = .next t) ∨
    (∃ c u, r = .ok () u ∧ d = .illegal c ∧ t = raise c u) ∨
    ∃ u, r = .ok () u ∧ d = .truncated ∧ t = raise .outOfData u := by
  cases r with
  | raised c u => rw [engineStep_raised hf] at h; cases h; exact .inl ⟨c, u, rfl, rfl⟩
  | stop f => rw [engineStep_stop hf] at h; cases h
  | ok a u =>
    cases d with
    | element i => rw [engineStep_element hf] at h; exact .inr (.inl ⟨i, u, rfl, rfl, h⟩)
    | illegal c => rw [engineStep_raised hf] at h; cases h; exact .inr (.inr (.inl ⟨c, u, rfl, rfl, rfl⟩))
    | truncated => rw [engineStep_raised hf] at h; cases h; exact .inr (.inr (.inr ⟨u, rfl, rfl, rfl⟩))
    | noNode => rw [engineStep_stop hf] at h; cases h

end Sys2Proof.Machine
end

section
/-! What a step of the engine can do in a running job, place by place, and the sum of it. -/

namespace Sys2Proof.Machine

theorem isRunning_of_inflate {s : State} (hs : s.phase = .inflate) : isRunning s.phase = true := by rw [hs]; rfl

/-! ### The elements of phase INFLATE -/

theorem setBlock_view (final : Bool) (type : BitVec 2) (s : State) : stageView (setBlock final type s) = stageView s := rfl

theorem afterLengths_view (s : State) : stageView (afterLengths s) = stageView s := by rw [afterLengths_shape]; rfl

/-- The end of a block stays in the phase, or moves to the trailer (R150, R217). -/
theorem GoesOn.endBlock {s u : State} (hs : s.phase = .inflate) (h : stageView u = stageView s) :
    GoesOn s (Machine.endBlock u) := by
  unfold Machine.endBlock
  cases u.bfinal
  · exact .of_stageView (isRunning_of_inflate hs) h
  · exact
      { kept := (hostSide_of_stageView h :)
        running := rfl
        phase := .inr (by rw [hs]; exact (by decide : (Phase.inflate, Phase.zlibTrl) ∈ phaseMoves))
        header := fun _ => (sizes_of_stageView h :)
        fits := fun hp => by rw [hs] at hp; cases hp }

theorem execBlk_move {f : Bool} {i : Instr} {s t : State} (hs : s.phase = .inflate)
    (hi : i = .blkStored f ∨ i = .blkFixed f ∨ i = .blkDynamic f ∨ i = .blkReserved f) (ht : exec i s = .next t) :
    JobMove s t := by
  have hr := isRunning_of_inflate hs
  rcases hi with rfl | rfl | rfl | rfl <;> cases ht
  iterate 3 exact .goesOn (.of_stageView hr rfl)
  exact .faults (.of_stageView hr (setBlock_view f 3 s)) (by decide)

theorem storedLoop_view (n : Nat) (vs : List Byte) (s : State) :
    (storedLoop n vs s).Ends (stageView · = stageView s) (· ≠ .ioSource) :=
  (storedLoop_ends n vs s).mono (fun t ht => by rw [ht.1]; rfl) fun c hc => by rcases hc with rfl | rfl <;> decide

theorem execStored_move {len nlen : Half} {payload : List Byte} {s t : State} (hs : s.phase = .inflate)
    (ht : exec (.stored len nlen payload) s = .next t) : JobMove s t := by
  have on (u : State) : stageView u = stageView s → GoesOn s u := .of_stageView (isRunning_of_inflate hs)
  refine Run.Ends.jobMove ((readBytes_view 2 s).andThen (fun _ u hu => ?_) on) ht
  refine (Run.Ends.after (u := { u with slen := len }) (readBytes_view 2 _) hu).andThen (fun _ v hv => ?_) on
  refine (Run.Ends.after (u := { v with snlen := nlen }) (storedLoop_view _ payload _) hv).andThen (fun _ w hw => ?_) on
  exact GoesOn.endBlock hs hw

theorem readClLens_view (syms vs : List Nat) (s : State) :
    (readClLens syms vs s).Ends (stageView · = stageView s) (· ≠ .ioSource) :=
  (readClLens_ends syms vs s).mono (fun t ht => by rw [ht]; rfl) ne_ioSource_of_outOfData

theorem execDyn_move {hlit hdist hclen : Nat} {cl : List Nat} {s t : State} (hs : s.phase = .inflate)
    (ht : exec (.dyn hlit hdist hclen cl) s = .next t) : JobMove s t := by
  refine Run.Ends.stageMove (isRunning_of_inflate hs) ((readBits_view 5 s).andThen (fun _ u hu => ?_) fun _ h => h) ht
  refine (Run.Ends.after (u := { u with hlit := hlit }) (readBits_view 5 _) hu).andThen (fun _ v hv => ?_) fun _ h => h
  refine (Run.Ends.after (u := { v with hdist := hdist }) (readBits_view 4 _) hv).andThen (fun _ w hw => ?_) fun _ h => h
  exact (Run.Ends.after (u := { w with hclen := hclen, clLens := List.replicate nsymCl 0 })
    (readClLens_view clOrder cl _) hw).andThen (fun _ _ hx => hx) fun _ h => h

theorem runCl_view (v : Nat) (s : State) : (runCl v s).Ends (stageView · = stageView s) (· ≠ .ioSource) :=
  afterLengths_view { s with lens := s.lens ++ [v] }

theorem runRepeatPrev_view (rep : Nat) (s : State) :
    (runRepeatPrev rep s).Ends (stageView · = stageView s) (· ≠ .ioSource) :=
  (runRepeatPrev_ends rep s).mono (fun t ht => by rw [ht]; rfl) fun c hc => by rcases hc with rfl | rfl | rfl <;> decide

theorem runZeros_view (nbits rep : Nat) (s : State) :
    (runZeros nbits rep s).Ends (stageView · = stageView s) (· ≠ .ioSource) :=
  (runZeros_ends nbits rep s).mono (fun t ht => by rw [ht]; rfl) fun c hc => by rcases hc with rfl | rfl <;> decide

theorem clElement_move {sym : Nat} {bits : List Bool} {s t : State} (hs : s.phase = .inflate)
    (ht : exec (clElement sym bits) s = .next t) : JobMove s t := by
  have hr := isRunning_of_inflate hs
  rcases clElement_cases sym bits with ⟨v, hi⟩ | ⟨rep, hi⟩ | ⟨rep, hi⟩ | ⟨rep, hi⟩
  · rw [exec_cl hi] at ht; exact (runCl_view v s).stageMove hr ht
  all_goals rw [hi] at ht
  · exact (runRepeatPrev_view rep s).stageMove hr ht
  · exact (runZeros_view 3 rep s).stageMove hr ht
  · exact (runZeros_view 7 rep s).stageMove hr ht

theorem emit_view (v : Byte) (s : State) : (emit v s).Ends (stageView · = stageView s) (· ≠ .ioSource) := by
  rcases emit_cases v s with ⟨_, he⟩ | ⟨_, he⟩ <;> rw [he]
  · rfl
  · exact ⟨by decide, rfl⟩

/-- A length symbol reads its extra bits and latches the length (R183). -/
theorem runLen_move {sym extra : Nat} {s t : State} (hs : isRunning s.phase = true)
    (ht : (runLen sym extra s).outcome = .next t) : JobMove s t := by
  unfold runLen at ht
  generalize lenExtra.getD (sym - 257) 0 = n at ht
  generalize lenBase.getD (sym - 257) 0 + extra = length at ht
  refine Run.Ends.stageMove hs ((readBits_view n s).andThen (fun _ u hu => ?_) fun _ hu => hu) ht
  exact hu

theorem runDist_view (sym extra : Nat) (s : State) :
    (runDist sym extra s).Ends (stageView · = stageView s) (· ≠ .ioSource) :=
  (runDist_ends sym extra s).mono (fun t ht => by rw [ht.1]; rfl) fun c hc => by rcases hc with rfl | rfl | rfl <;> decide

theorem llElement_move {sym : Nat} {bits : List Bool} {i : Instr} {s t : State} (hs : s.phase = .inflate)
    (hi : llElement sym bits = .element i) (ht : exec i s = .next t) : JobMove s t := by
  have hr := isRunning_of_inflate hs
  rcases llElement_cases hi with ⟨b, rfl⟩ | rfl | ⟨p, hp⟩ | rfl | rfl
  · exact (emit_view b s).stageMove hr ht
  · cases ht; exact .goesOn (.endBlock hs rfl)
  · rw [exec_len hp] at ht; exact runLen_move hr ht
  all_goals cases ht; exact .faults (.of_stageView hr rfl) (by decide)

theorem distElement_move {sym : Nat} {bits : List Bool} {i : Instr} {s t : State} (hs : s.phase = .inflate)
    (hi : distElement sym bits = .element i) (ht : exec i s = .next t) : JobMove s t := by
  have hr := isRunning_of_inflate hs
  rcases distElement_cases hi with ⟨p, hp⟩ | rfl | rfl
  · rw [exec_dist hp] at ht; exact (runDist_view p.1 p.2 s).stageMove hr ht
  all_goals cases ht; exact .faults (.of_stageView hr rfl) (by decide)

/-! ### The scanlines -/

theorem decodeRow_move {n : Nat} {bits : List Bool} {i : Instr} {s t : State} (hs : s.phase = .defilter)
    (hi : decodeRow n bits = .element i) (ht : exec i s = .next t) : JobMove s t := by
  have hr : isRunning s.phase = true := by rw [hs]; rfl
  rcases decodeRow_cases hi with ⟨⟨pred, x⟩, hp⟩ | ⟨ft, rfl⟩
  · rw [exec_row hp] at ht
    rcases runRow_cases pred x s with ⟨f, he⟩ | ⟨cur, _, he⟩
    · rw [he] at ht; cases ht
    · rw [he] at ht; cases ht
      rcases nextRow_cases { s with cur := cur, pix := Memory.writeAll s.pix (s.row * stride s) cur } with ⟨_, hn⟩ | ⟨_, hn⟩
      · rw [hn]; exact .finishes (.of_stageView hr rfl) hs (.inl hs)
      · rw [hn]; exact .goesOn (.of_stageView hr rfl)
  · cases ht; exact .faults (.of_stageView hr rfl) (by decide)

/-! ### The engine's step -/

theorem chunkHeader_view (s : State) : (chunkHeader s).Ends (stageView · = stageView s) (· ≠ .ioSource) :=
  (chunkHeader_cursor s).mono (fun t ht => by rw [ht.1]; rfl) ne_ioSource_of_outOfData

theorem blkHeader_view (s : State) : (blkHeader s).Ends (stageView · = stageView s) (· ≠ .ioSource) :=
  (blkHeader_ends s).mono (fun t ht => by rw [ht]; rfl) ne_ioSource_of_outOfData

/-- A Huffman decode moves the reader alone, and raises one of its own causes (R128 to R130). -/
theorem huffDecode_view (tree : Tree) (s : State) :
    (huffDecode tree s).Ends (stageView · = stageView s) (· ≠ .ioSource) := by
  unfold huffDecode
  split
  · exact (readBits_view _ s).andThen (fun _ _ hu => hu) fun _ hu => hu
  · rename_i hw
    refine (readBits_view _ s).andThen (fun _ _ hu => ⟨?_, hu⟩) fun _ hu => hu
    rcases walk_bad hw with rfl | rfl <;> decide
  · exact (readBits_view _ s).andThen (fun _ _ hu => ⟨by decide, hu⟩) fun _ hu => hu
  · trivial

/-- Where the fetch reads ahead of the element and keeps the view of the stage, the step does what the element does, or
raises. -/
theorem fetchAfter_move {s t : State} {r : Run Unit} {e : Expect} {bits : List Bool} (hs : isRunning s.phase = true)
    (hf : fetch s = fetchAfter r (decode s.cfg.missingBranch e bits))
    (hr : r.Ends (stageView · = stageView s) (· ≠ .ioSource))
    (hi : ∀ i u, decode s.cfg.missingBranch e bits = .element i → u.phase = s.phase → exec i u = .next t → JobMove u t)
    (ht : engineStep s = .next t) : JobMove s t := by
  rcases engineStep_fetchAfter hf ht with ⟨c, u, rfl, rfl⟩ | ⟨i, u, rfl, hd, he⟩ | ⟨c, u, rfl, hd, rfl⟩ | ⟨u, rfl, -, rfl⟩
  · exact .faults (.of_stageView hs hr.2) hr.1
  · exact (hi i u hd (phase_of_stageView hr) he).after hr
  · exact .faults (.of_stageView hs hr) fun hc => decode_ne_ioSource _ _ _ (hc ▸ hd)
  · exact .faults (.of_stageView hs hr) (by decide)

theorem fetchChunk_move {s t : State} {e : Expect} (hs : s.phase = .png) (hf : fetch s = fetchChunk e s)
    (hi : ∀ i u, decode s.cfg.missingBranch e (inBitsAhead s) = .element i → u.phase = .png → exec i u = .next t →
      JobMove u t) (ht : engineStep s = .next t) : JobMove s t :=
  fetchAfter_move (by rw [hs]; rfl) hf (chunkHeader_view s) (hs ▸ hi) ht

theorem fetchCoded_move {s t : State} {tree : Tree} {e : Expect} (hs : s.phase = .inflate)
    (hf : fetch s = fetchCoded tree e s)
    (hi : ∀ i u, decode s.cfg.missingBranch e (bitsAhead s) = .element i → u.phase = .inflate → exec i u = .next t →
      JobMove u t) (ht : engineStep s = .next t) : JobMove s t :=
  fetchAfter_move (isRunning_of_inflate hs) hf ((huffDecode_view tree s).andThen (fun _ _ hu => hu) fun _ hu => hu)
    (hs ▸ hi) ht

/-- What the step of the engine can do before the signature is accepted (R231). -/
theorem fetchSignature_cases (s : State) :
    fetchSignature s = .element .sig s ∨ (∃ c, c ≠ .ioSource ∧ fetchSignature s = .raised c s) ∨
    ∃ c, c ≠ .ioSource ∧ fetchSignature s = .raised c { s with pcur := s.pcur + 8 } := by
  unfold fetchSignature
  by_cases h : s.lenIn < s.pcur + 8
  · rw [rdn_short h]; exact .inr (.inl ⟨_, by decide, rfl⟩)
  · rw [rdn_ok (by omega)]
    simp only [decode, decodeSignature]
    split_ifs
    · exact .inr (.inr ⟨_, by decide, rfl⟩)
    · exact .inl rfl
    · exact .inr (.inr ⟨_, by decide, rfl⟩)

theorem engineStep_png {s t : State} (hs : s.phase = .png) (ht : engineStep s = .next t) : JobMove s t := by
  have hr : isRunning s.phase = true := by rw [hs]; rfl
  cases hp : s.pngPos with
  | signature =>
    have hf := fetch_signature hs hp
    rcases fetchSignature_cases s with h | ⟨c, hc, h⟩ | ⟨c, hc, h⟩
    · rw [engineStep_element (hf.trans h)] at ht; exact execSig_move hs ht
    all_goals
      rw [engineStep_raised (hf.trans h)] at ht; cases ht
      exact .faults (.of_stageView hr rfl) hc
  | firstChunk =>
    refine fetchChunk_move hs (fetch_firstChunk hs hp) (fun i u hd hu he => ?_) ht
    simp only [decode, decodeFirstChunk] at hd
    split_ifs at hd
    cases hd
    exact execChunkIhdr_move hu he
  | chunkLoop =>
    refine fetchChunk_move hs (fetch_chunkLoop hs hp) (fun i u hd hu he => ?_) ht
    rcases decodeChunk_cases hd with ⟨_, _, _, rfl⟩ | ⟨_, _, _, rfl⟩ | ⟨_, _, _, _, rfl⟩
    · exact execChunkIdat_move hu he
    · exact execChunkIend_move hu he
    · exact execChunkOther_move hu he

theorem engineStep_inflate {s t : State} (hs : s.phase = .inflate) (ht : engineStep s = .next t) : JobMove s t := by
  cases hp : s.infPos with
  | blockHeader =>
    refine fetchAfter_move (e := .blockHeader) (isRunning_of_inflate hs) (fetch_blockHeader hs hp) (blkHeader_view s)
      (fun i u hd hu he => ?_) ht
    obtain ⟨f, hi⟩ := decodeBlk_cases hd
    exact execBlk_move (hu.trans hs) hi he
  | storedBlock => rw [engineStep_element (fetch_storedBlock hs hp)] at ht; exact execStored_move hs ht
  | dynHeader => rw [engineStep_element (fetch_dynHeader hs hp)] at ht; exact execDyn_move hs ht
  | codeLengths =>
    refine fetchCoded_move hs (fetch_codeLengths hs hp) (fun i u hd hu he => ?_) ht
    obtain ⟨sym, rest, hi⟩ := decodeCoded_element (of := fun sym rest => .element (clElement sym rest)) hd
    cases hi
    exact clElement_move hu he
  | symbols =>
    refine fetchCoded_move hs (fetch_symbols hs hp) (fun i u hd hu he => ?_) ht
    obtain ⟨sym, rest, hi⟩ := decodeCoded_element hd
    exact llElement_move hu hi he
  | distance =>
    refine fetchCoded_move hs (fetch_distance hs hp) (fun i u hd hu he => ?_) ht
    obtain ⟨sym, rest, hi⟩ := decodeCoded_element hd
    exact distElement_move hu hi he

theorem engineStep_defilter {s t : State} (hs : s.phase = .defilter) (ht : engineStep s = .next t) : JobMove s t := by
  have hf := fetch_defilter hs
  unfold fetchRow at hf
  split at hf
  · rename_i hd
    rw [engineStep_element hf] at ht
    exact decodeRow_move hs hd ht
  · rw [engineStep_stop hf] at ht; cases ht

/-- What a step of the engine can do in a running job (R14, R30, R290, R315). -/
theorem engineStep_move {s t : State} (hs : isRunning s.phase = true) (ht : engineStep s = .next t) : JobMove s t := by
  cases hp : s.phase with
  | png => exact engineStep_png hp ht
  | zlibHdr => rw [engineStep_element (fetch_zlibHdr hp)] at ht; exact execZhdr_move hp ht
  | inflate => exact engineStep_inflate hp ht
  | zlibTrl => rw [engineStep_element (fetch_zlibTrl hp)] at ht; exact execZtrl_move hp ht
  | defilter => exact engineStep_defilter hp ht
  | idle | done | error => rw [hp] at hs; cases hs

end Sys2Proof.Machine
end

section
/-! What one step of the machine can do, the host's moves included (R21, R291, R297, R342). -/

namespace Sys2Proof.Machine

/-- A write of `CTRL` (R22). -/
theorem hostWriteReg_ctrl (s : State) (v : Nat) :
    hostWriteReg s 0 v = if v.testBit 0 = true ∧ isBusy s = false then startJob s else s := by
  simp [hostWriteReg]

/-- A write of every register but `CTRL` (R21). -/
theorem hostWriteReg_of_ne_zero (s : State) {k : Nat} (v : Nat) (hk : k ≠ 0) :
    hostWriteReg s k v = if k = 3 ∧ isBusy s = false then { s with inLen := v % 2 ^ s.cfg.addrBits } else s := by
  by_cases h3 : k = 3
  · subst h3
    cases h : isBusy s <;> simp [hostWriteReg, h]
  · rw [if_neg fun h => h3 h.1]
    unfold hostWriteReg
    split
    · exact absurd rfl hk
    · exact absurd rfl h3
    · rfl

/-- What a host write of an interface register can do (R21, R22). -/
theorem hostWriteReg_cases (s : State) (k v : Nat) :
    hostWriteReg s k v = s ∨
    (k = 0 ∧ v.testBit 0 = true ∧ isBusy s = false ∧ hostWriteReg s k v = startJob s) ∨
    (k = 3 ∧ isBusy s = false ∧ hostWriteReg s k v = { s with inLen := v % 2 ^ s.cfg.addrBits }) := by
  by_cases hk : k = 0
  · subst hk
    rw [hostWriteReg_ctrl]
    split_ifs with h
    · exact .inr (.inl ⟨rfl, h.1, h.2, rfl⟩)
    · exact .inl rfl
  · rw [hostWriteReg_of_ne_zero s v hk]
    split_ifs with h
    · exact .inr (.inr ⟨h.1, h.2, rfl⟩)
    · exact .inl rfl

/-- A read of each register (R21). -/
theorem hostReadReg_eq (s : State) (k : Nat) :
    hostReadReg s k =
      if k = 1 then s.status.toNat else if k = 2 then s.cause.toNat else if k = 3 then s.inLen
      else if k = 4 then s.imgWidth.toNat else if k = 5 then s.imgHeight.toNat else if k = 6 then s.imgBpp.toNat
      else if k = 7 then s.imgStride else if k = 8 then s.pixLen else 0 := by
  unfold hostReadReg
  split <;> simp_all

/-- What a step of the machine can do. -/
inductive AgentMove (s : State) : State → Prop
  /-- A move of the host that writes no register, or one that lets an engine with no job step. -/
  | quiet {t : State} (h : t = { s with host := t.host, hostRead := t.hostRead, inSpace := t.inSpace }) : AgentMove s t
  /-- The host writes `IN_LEN` (R25). -/
  | lengthWritten {rest : List HostMove} {v : Nat} (hb : isBusy s = false) :
      AgentMove s { s with host := rest, inLen := v % 2 ^ s.cfg.addrBits }
  /-- The host starts a job (R22, R291). -/
  | start {rest : List HostMove} {v : Nat} (h : s.host = .writeReg 0 v :: rest) (hv : v.testBit 0 = true)
      (hb : isBusy s = false) : AgentMove s (startJob { s with host := rest })
  /-- Power-on reset (R342). -/
  | powerOn {rest : List HostMove} (h : s.host = .powerOn :: rest) :
      AgentMove s (Machine.powerOn { s with host := rest })
  /-- The engine of a running job steps. -/
  | engine {host : List HostMove} {t : State} (hs : isRunning s.phase = true) (h : JobMove { s with host := host } t) :
      AgentMove s t

/-- The engine steps once the host's move is taken: nothing happens unless a job runs (R341). -/
theorem AgentMove.of_engineStep {s t : State} (host : List HostMove) (ht : engineStep { s with host := host } = .next t) :
    AgentMove s t := by
  cases hs : isRunning s.phase with
  | true => exact .engine hs (engineStep_move (s := { s with host := host }) hs ht)
  | false =>
    rw [engineStep_idle (fetch_idle (s := { s with host := host }) hs)] at ht
    cases ht
    exact .quiet rfl

theorem step_move {s t : State} (ht : step s = .next t) : AgentMove s t := by
  cases hh : s.host with
  | nil => rw [step_engine hh] at ht; exact .of_engineStep s.host ht
  | cons m rest =>
    rw [step_host hh] at ht
    cases m with
    | load offset bytes =>
      simp only [hostLoad] at ht
      split_ifs at ht
      cases ht
      exact .quiet rfl
    | writeReg k v =>
      simp only [Host.Outcome.next.injEq] at ht
      rcases hostWriteReg_cases { s with host := rest } k v with h | ⟨rfl, hv, hb, h⟩ | ⟨-, hb, h⟩
      · rw [← ht, h]; exact .quiet rfl
      · rw [← ht, h]; exact .start hh hv hb
      · rw [← ht, h]; exact .lengthWritten hb
    | readReg k => cases ht; exact .quiet rfl
    | readPix offset =>
      simp only [hostReadPix] at ht
      split_ifs at ht
      split at ht <;> cases ht
      exact .quiet rfl
    | tick => exact .of_engineStep rest ht
    | wait =>
      simp only at ht
      split_ifs at ht
      · exact .of_engineStep s.host ht
      · cases ht; exact .quiet rfl
    | powerOn => cases ht; exact .powerOn hh

/-! ### The interface registers -/

theorem interfaceInv_of_running {s : State} (hs : isRunning s.phase = true) :
    InterfaceInv s ↔ s.status = statusBusy ∧ s.cause = 0 ∧ noResult s := by
  unfold InterfaceInv
  cases hp : s.phase with
  | png | zlibHdr | inflate | zlibTrl | defilter => rfl
  | idle | done | error => rw [hp] at hs; cases hs

theorem interfaceInv_startJob (s : State) : InterfaceInv (startJob s) := ⟨rfl, rfl, rfl, rfl, rfl, rfl, rfl⟩

theorem interfaceInv_powerOn (s : State) : InterfaceInv (powerOn s) := ⟨rfl, rfl, rfl, rfl, rfl, rfl, rfl⟩

theorem interfaceInv_finishJob (s : State) : InterfaceInv (finishJob s) := ⟨rfl, rfl, rfl, rfl, rfl, rfl, rfl⟩

theorem interfaceInv_raise {c : Cause} (hc : c ≠ .ioSource) (s : State) : InterfaceInv (raise c s) :=
  ⟨rfl, ⟨rfl, rfl, rfl, rfl, rfl⟩, c, hc, rfl, rfl⟩

/-- A job that goes on leaves the interface registers alone (R23 to R28). -/
theorem GoesOn.interfaceInv {s t : State} (h : GoesOn s t) (hs : isRunning s.phase = true) (hi : InterfaceInv s) :
    InterfaceInv t := by
  rw [interfaceInv_of_running hs] at hi
  rw [interfaceInv_of_running h.running]
  change (hostSide t).status = _ ∧ (hostSide t).cause = _ ∧ noResult (hostSide t)
  rw [h.kept]
  exact hi

theorem JobMove.interfaceInv {s t : State} (h : JobMove s t) (hs : isRunning s.phase = true) (hi : InterfaceInv s) :
    InterfaceInv t := by
  cases h with
  | goesOn h => exact h.interfaceInv hs hi
  | faults _ hc => exact interfaceInv_raise hc _
  | finishes _ _ _ => exact interfaceInv_finishJob _

/-- Settles O55: the host's moves that write registers establish the invariant anew, the engine of a running job leaves the
interface registers alone until it raises or finishes. -/
theorem interfaceKept : Obligations.InterfaceKept := by
  intro s t hi ht
  cases step_move ht with
  | quiet h => rw [h]; exact hi
  | lengthWritten _ => exact hi
  | start _ _ _ => exact interfaceInv_startJob _
  | powerOn _ => exact interfaceInv_powerOn _
  | engine hs h => exact h.interfaceInv hs hi

/-! ### The phase -/

/-- When STATUS is not BUSY, the phase is one from which a job may start (R22, R30). -/
theorem startable_of_interfaceInv {s : State} (hi : InterfaceInv s) (hb : isBusy s = false) :
    (s.phase, Phase.png) ∈ phaseMoves := by
  cases hr : isRunning s.phase with
  | true =>
    have hstat := ((interfaceInv_of_running hr).1 hi).1
    rw [isBusy, hstat] at hb
    cases hb
  | false =>
    cases hp : s.phase with
    | idle | done | error => decide
    | png | zlibHdr | inflate | zlibTrl | defilter => rw [hp] at hr; cases hr

/-- The engine's part of R30. -/
theorem JobMove.phase_forward {s t : State} (h : JobMove s t) (hs : isRunning s.phase = true)
    (hh : headerAccepted s = true → 0 < s.h.toNat) :
    t.phase = s.phase ∨ (s.phase, t.phase) ∈ phaseMoves ∨ (isRunning s.phase = true ∧ t.phase = .error) := by
  cases h with
  | goesOn h => exact h.phase.imp_right .inl
  | faults _ _ => exact .inr (.inr ⟨hs, rfl⟩)
  | finishes _ _ hd =>
    rcases hd with hd | ⟨hd, h0⟩
    · rw [hd]; exact .inr (.inl (by decide : (Phase.defilter, Phase.done) ∈ phaseMoves))
    · have := hh (by rw [headerAccepted, hd])
      omega

/-- Settles O53: an engine with a job keeps the phase, moves it one on, or takes the fault entry; the host starts a job only
from IDLE, DONE or ERROR. -/
theorem phaseForward : Obligations.PhaseForward := by
  intro s t hi hh ht
  cases step_move ht with
  | quiet h => rw [h]; exact .inl rfl
  | lengthWritten _ => exact .inl rfl
  | start _ _ hb => exact .inr (.inl (startable_of_interfaceInv hi hb))
  | powerOn h => exact .inr (.inr (.inr ⟨by rw [h]; rfl, rfl⟩))
  | engine hs h =>
    rcases h.phase_forward hs hh with h | h | h
    · exact .inl h
    · exact .inr (.inl h)
    · exact .inr (.inr (.inl h))

/-! ### The sizes -/

/-- From phase ZLIB_HDR on the bytes the defilter needs fit (R293). -/
theorem SizesFit.need_lt {s : State} (h : SizesFit s) (hs : isRunning s.phase = true) (hp : s.phase ≠ .png) :
    need s < 2 ^ s.cfg.addrBits := by
  obtain ⟨-, -, hn⟩ := h
  cases hph : s.phase with
  | zlibHdr | inflate | zlibTrl | defilter => rw [hph] at hn; exact hn
  | png => exact absurd hph hp
  | idle | done | error => rw [hph] at hs; cases hs

theorem GoesOn.sizesFit {s t : State} (h : GoesOn s t) (hs : isRunning s.phase = true) (hf : SizesFit s) :
    SizesFit t := by
  have hcfg := cfg_of_hostSide h.kept
  have hin : t.inLen = s.inLen := (congrArg State.inLen h.kept :)
  have hlat : t.lenIn = s.lenIn := (congrArg State.lenIn h.kept :)
  have hneed (ht : t.phase ≠ .png) : need t < 2 ^ s.cfg.addrBits := by
    by_cases hp : s.phase = .png
    · exact h.fits hp ht
    · rw [need_congr (h.header hp)]; exact hf.need_lt hs hp
  rw [← hcfg] at hneed
  refine ⟨by rw [hin, hcfg]; exact hf.1, by rw [hlat, hcfg]; exact hf.2.1, ?_⟩
  cases hp : t.phase with
  | zlibHdr | inflate | zlibTrl | defilter | done => exact hneed (by rw [hp]; decide)
  | idle | png | error => trivial

theorem JobMove.sizesFit {s t : State} (h : JobMove s t) (hs : isRunning s.phase = true) (hf : SizesFit s) :
    SizesFit t := by
  cases h with
  | goesOn h => exact h.sizesFit hs hf
  | faults h _ =>
    obtain ⟨hin, hlat, -⟩ := h.sizesFit hs hf
    exact ⟨hin, hlat, trivial⟩
  | finishes h hu _ =>
    have hfit := h.sizesFit hs hf
    exact ⟨hfit.1, hfit.2.1, hfit.need_lt h.running (by rw [hu]; decide)⟩

/-- Settles O56: the host writes a length modulo the address space, a start latches it, and the engine leaves phase PNG only
with sizes that fit. -/
theorem sizesKept : Obligations.SizesKept := by
  intro s t hf ht
  have hpos : 0 < 2 ^ s.cfg.addrBits := Nat.two_pow_pos _
  cases step_move ht with
  | quiet h => rw [h]; exact hf
  | lengthWritten _ => exact ⟨Nat.mod_lt _ hpos, hf.2⟩
  | start _ _ _ => exact ⟨hf.1, hf.1, trivial⟩
  | powerOn _ => exact ⟨hpos, hpos, trivial⟩
  | engine hs h => exact h.sizesFit hs hf

end Sys2Proof.Machine
end

section
/-! The statements about single steps: discarded bits (R43), the registers from the host's side (R21, R22), and the element
that a step runs (R34, R290). -/

namespace Sys2Proof.Machine

/-! ### Discarded bits -/

/-- The state with other pending bits at the same byte position (R33). -/
def withPending (acc : Byte) (cnt : Nat) (s : State) : State :=
  { s with br := { pos := s.br.pos, acc := acc, cnt := cnt } }

/-- A byte read begins by discarding the pending bits (R102). -/
theorem readByte_withPending (acc : Byte) (cnt : Nat) (s : State) : readByte (withPending acc cnt s) = readByte s := rfl

theorem readBytes_withPending (n : Nat) (acc : Byte) (cnt : Nat) (s : State) :
    readBytes (n + 1) (withPending acc cnt s) = readBytes (n + 1) s := by
  simp only [readBytes, readByte_withPending]

theorem exec_zhdr_withPending (cmf flg acc : Byte) (cnt : Nat) (s : State) :
    exec (.zhdr cmf flg) (withPending acc cnt s) = exec (.zhdr cmf flg) s := by
  simp only [exec, execZhdr, readByte_withPending]

theorem exec_stored_withPending (len nlen : Half) (payload : List Byte) (acc : Byte) (cnt : Nat) (s : State) :
    exec (.stored len nlen payload) (withPending acc cnt s) = exec (.stored len nlen payload) s := by
  simp only [exec, execStored, readBytes_withPending]

theorem exec_ztrl_withPending (adler : Word) (acc : Byte) (cnt : Nat) (s : State) :
    exec (.ztrl adler) (withPending acc cnt s) = exec (.ztrl adler) s :=
  congrArg (fun r => (r.andThen fun _ u => enterDefilter u).outcome)
    (readBytes_withPending 3 acc cnt { s with phase := .zlibTrl })

/-- Settles O15: the operands come from the byte boundary on, and each of the three elements begins with a byte read, which
discards the pending bits. -/
theorem paddingUnseen : Obligations.PaddingUnseen := by
  intro s acc cnt hh hp
  change step (withPending acc cnt s) = step s
  rw [step_engine hh, step_engine (s := withPending acc cnt s) hh]
  rcases hp with hp | hp | ⟨hp, hi⟩
  · rw [engineStep_element (fetch_zlibHdr hp), engineStep_element (fetch_zlibHdr (s := withPending acc cnt s) hp)]
    exact exec_zhdr_withPending _ _ acc cnt s
  · rw [engineStep_element (fetch_zlibTrl hp), engineStep_element (fetch_zlibTrl (s := withPending acc cnt s) hp)]
    exact exec_ztrl_withPending _ acc cnt s
  · rw [engineStep_element (fetch_storedBlock hp hi),
      engineStep_element (fetch_storedBlock (s := withPending acc cnt s) hp hi)]
    exact exec_stored_withPending _ _ _ acc cnt s

/-! ### The interface registers from the host's side -/

/-- Settles O2, register by register. -/
theorem registerFile : Obligations.RegisterFile := by
  refine ⟨fun s rest k hh => ?_, fun s rest k v hh hk => ?_⟩
  · rw [step_host hh]
    simp only [hostReadReg_eq]
  · rw [step_host hh]
    simp only [hostWriteReg_of_ne_zero _ v hk]
    rfl

/-- Settles O3: a write starts a job exactly when bit 0 is set and no job runs. -/
theorem controlRegister : Obligations.ControlRegister := by
  refine ⟨fun s rest v hh => ?_, fun s rest hh => by rw [step_host hh]; rfl⟩
  have hstep : step s = .next
      (if v.testBit 0 = true ∧ isBusy s = false then startJob { s with host := rest } else { s with host := rest }) := by
    rw [step_host hh]
    simp only [hostWriteReg_ctrl]
    rfl
  refine ⟨fun hb hv => ?_, fun hb => ?_, fun hv => ?_⟩
  · rw [hstep, if_pos ⟨hv, hb⟩]
  · rw [hstep, if_neg fun h => by simp [hb] at h]
  · rw [hstep, if_neg fun h => by simp [hv] at h]

/-! ### The element at the stream position -/

/-- Where the reads of the loop raise, the step is the fault entry (R14, R315). -/
theorem step_of_fetchAfter_raised {s u : State} {r : Run Unit} {d : Decoded} {c : Cause} (hh : s.host = [])
    (hf : fetch s = fetchAfter r d) (hr : r = .raised c u) : step s = .next (raise c u) := by
  rw [step_engine hh, engineStep_raised (hf.trans (by rw [hr]; rfl))]

/-- Where the reads of the loop end and the bits ahead decode, the step is the element (R14, R34). -/
theorem step_of_fetchAfter_ok {s u : State} {r : Run Unit} {d : Decoded} {i : Instr} (hh : s.host = [])
    (hf : fetch s = fetchAfter r d) (hr : r = .ok () u) (hd : d = .element i) : step s = exec i u := by
  rw [step_engine hh, engineStep_element (hf.trans (by rw [hr, hd]; rfl))]

/-- An element whose fetch reads nothing runs in the state it is fetched in. -/
theorem step_of_fetch_element {s : State} {i j : Instr} (hh : s.host = []) (hf : fetch s = .element j s)
    (hd : Decoded.element j = .element i) : step s = exec i s := by
  cases hd
  rw [step_engine hh, engineStep_element hf]

theorem step_of_fetchCoded_raised {s u : State} {t : Tree} {e : Expect} {c : Cause} (hh : s.host = [])
    (hf : fetch s = fetchCoded t e s) (hr : huffDecode t s = .raised c u) : step s = .next (raise c u) :=
  step_of_fetchAfter_raised hh hf (by rw [hr]; rfl)

theorem step_of_fetchCoded_ok {s u : State} {t : Tree} {e : Expect} {i : Instr} {sym : Nat} (hh : s.host = [])
    (hf : fetch s = fetchCoded t e s) (hr : huffDecode t s = .ok sym u)
    (hd : decode s.cfg.missingBranch e (bitsAhead s) = .element i) : step s = exec i u :=
  step_of_fetchAfter_ok hh hf (by rw [hr]; rfl) hd

theorem fetchSignature_raised {s u : State} {c : Cause} (h : rdn 8 s = .raised c u) : fetchSignature s = .raised c u := by
  simp only [fetchSignature, h]

theorem fetchSignature_element {s u : State} {v : List Byte} {i : Instr} (h : rdn 8 s = .ok v u)
    (hd : decode s.cfg.missingBranch .signature (inBitsAhead s) = .element i) : fetchSignature s = .element i s := by
  simp only [fetchSignature, h, hd]

theorem fetchRow_element {s : State} {i : Instr}
    (hd : decode s.cfg.missingBranch (.row (stride s)) (rowBits s) = .element i) : fetchRow s = .element i s := by
  simp only [fetchRow, hd]

/-- A chunk header is read before every chunk (R232, R290). -/
theorem fetch_chunk {s : State} (hp : s.phase = .png) (hn : s.pngPos ≠ .signature) : ∃ e, fetch s = fetchChunk e s := by
  cases hpos : s.pngPos with
  | signature => exact absurd hpos hn
  | firstChunk => exact ⟨_, fetch_firstChunk hp hpos⟩
  | chunkLoop => exact ⟨_, fetch_chunkLoop hp hpos⟩

/-- Settles O28, position by position, from the fetch there. -/
theorem stepRunsTheElement : Obligations.StepRunsTheElement := by
  constructor
  · intro s u c hh
    refine ⟨fun hp hq hr => ?_, fun hp hq hr => ?_, fun hp hq => ?_, fun hp hq => ?_, fun hp hq => ?_, fun hp hq => ?_⟩
    · rw [step_engine hh, engineStep_raised ((fetch_signature hp hq).trans (fetchSignature_raised hr))]
    · obtain ⟨e, hf⟩ := fetch_chunk hp hq
      exact step_of_fetchAfter_raised hh hf hr
    · exact step_of_fetchAfter_raised hh (fetch_blockHeader hp hq)
    · exact step_of_fetchCoded_raised hh (fetch_codeLengths hp hq)
    · exact step_of_fetchCoded_raised hh (fetch_symbols hp hq)
    · exact step_of_fetchCoded_raised hh (fetch_distance hp hq)
  · intro s u i v sym hh
    refine ⟨fun hp hq hr hd => ?_, fun hp hq => ?_, fun hp hq => ?_, fun hp => ?_, fun hp hq => ?_, fun hp hq => ?_,
      fun hp hq => ?_, fun hp hq => ?_, fun hp hq => ?_, fun hp hq => ?_, fun hp => ?_, fun hp hd => ?_⟩
    · rw [step_engine hh, engineStep_element ((fetch_signature hp hq).trans (fetchSignature_element hr hd))]
    · exact step_of_fetchAfter_ok hh (fetch_firstChunk hp hq)
    · exact step_of_fetchAfter_ok hh (fetch_chunkLoop hp hq)
    · exact step_of_fetch_element hh (fetch_zlibHdr hp)
    · exact step_of_fetchAfter_ok hh (fetch_blockHeader hp hq)
    · exact step_of_fetch_element hh (fetch_storedBlock hp hq)
    · exact step_of_fetch_element hh (fetch_dynHeader hp hq)
    · exact step_of_fetchCoded_ok hh (fetch_codeLengths hp hq)
    · exact step_of_fetchCoded_ok hh (fetch_symbols hp hq)
    · exact step_of_fetchCoded_ok hh (fetch_distance hp hq)
    · exact step_of_fetch_element hh (fetch_zlibTrl hp)
    · rw [step_engine hh, engineStep_element ((fetch_defilter hp).trans (fetchRow_element hd))]

end Sys2Proof.Machine
end

section
/-! The engine and the host's side: a step of the engine reads `IN` and changes neither it nor anything of the host's (R51,
R230). -/

namespace Sys2Proof.Machine

/-- The part of the state that no step of the engine changes (R9, R51): the input with its lengths, the parameters and the
host's moves and reads; every other field at its reset value. -/
def inputSide (s : State) : State :=
  { State.reset with
    cfg := s.cfg, host := s.host, hostRead := s.hostRead, inLen := s.inLen, lenIn := s.lenIn, inSpace := s.inSpace,
    inDraw := s.inDraw }

/-- Going on, the fault entry and the end of a job all leave the input alone (R51). -/
theorem JobMove.inputSide {s t : State} (h : JobMove s t) : inputSide t = inputSide s := by
  cases h with
  | goesOn h | faults h _ | finishes h _ _ => exact (congrArg Machine.inputSide h.kept :)

/-- With no job running, a step of the engine does nothing (R341). -/
theorem engineStep_eq_of_not_running {s t : State} (hs : isRunning s.phase = false) (ht : engineStep s = .next t) :
    t = s := by
  rw [engineStep_idle (fetch_idle hs)] at ht
  cases ht; rfl

theorem engineStep_inputSide {s t : State} (ht : engineStep s = .next t) : inputSide t = inputSide s := by
  cases hs : isRunning s.phase with
  | true => exact (engineStep_move hs ht).inputSide
  | false => rw [engineStep_eq_of_not_running hs ht]

/-- Settles O51: the engine keeps the whole input side, and each read of `IN` either finds its bytes below the length or
raises. -/
theorem inputUntouched : Obligations.InputUntouched := by
  constructor
  · intro s t hh ht
    rw [step_engine hh] at ht
    have h := engineStep_inputSide ht
    exact ⟨(congrArg State.inSpace h :), (congrArg State.inDraw h :), (congrArg State.inLen h :),
      (congrArg State.lenIn h :), (congrArg State.cfg h :), (congrArg State.host h :).trans hh,
      (congrArg State.hostRead h :)⟩
  · intro s n
    refine ⟨fun a v => inByte_of_read, rd8_ok, rd8_short, rd32_ok, rd32_short, fun h => ⟨skip_ok h, ?_⟩,
      fun h => ⟨rdn_short h, skip_short h⟩⟩
    exact ⟨_, rdn_ok h, length_inBytes s s.pcur n, fun k hk => by rw [getElem?_inBytes, if_pos hk]⟩

end Sys2Proof.Machine
end

section
/-! What each phase may do to the spaces the engine writes (R50 to R54), and that the parts of every element keep to it. -/

namespace Sys2Proof.Machine

/-- The spaces the engine writes, and its cursor in `IN` (R31, R52 to R54). -/
structure Spaces where
  zbuf : Memory
  out : Memory
  pix : Memory
  pcur : Nat

/-- What a state holds of them. -/
def spaces (s : State) : Spaces := { zbuf := s.zbuf, out := s.out, pix := s.pix, pcur := s.pcur }

/-- What a part of an element may do to the spaces in phase `p` (R50): `ZBUF` and `OUT` are appended to, `PIX` stays
canonical, the cursor never moves back, and each of them moves in its own phase alone. -/
structure SpacesMoved (p : Phase) (m n : Spaces) : Prop where
  zbuf : ∃ vs, n.zbuf = Memory.appendAll m.zbuf vs
  zbufKept : p ≠ .png → n.zbuf = m.zbuf
  out : ∃ vs, n.out = Memory.appendAll m.out vs
  outKept : p ≠ .inflate → n.out = m.out
  pix : Memory.wf m.pix = true → Memory.wf n.pix = true
  pixKept : p ≠ .defilter → n.pix = m.pix
  pcur : m.pcur ≤ n.pcur
  pcurKept : p ≠ .png → n.pcur = m.pcur

theorem SpacesMoved.refl (p : Phase) (m : Spaces) : SpacesMoved p m m :=
  ⟨⟨[], rfl⟩, fun _ => rfl, ⟨[], rfl⟩, fun _ => rfl, id, fun _ => rfl, le_refl _, fun _ => rfl⟩

theorem SpacesMoved.of_eq {p : Phase} {m n : Spaces} (h : n = m) : SpacesMoved p m n := h ▸ .refl p m

/-- What is appended in two parts is appended at once. -/
theorem Memory.appendAll_trans {m n k : Memory} (h : ∃ vs, n = Memory.appendAll m vs)
    (g : ∃ vs, k = Memory.appendAll n vs) : ∃ vs, k = Memory.appendAll m vs := by
  obtain ⟨xs, hx⟩ := h
  obtain ⟨ys, hy⟩ := g
  exact ⟨xs ++ ys, by rw [hy, hx, Memory.appendAll_concat]⟩

theorem SpacesMoved.trans {p : Phase} {m n k : Spaces} (h : SpacesMoved p m n) (g : SpacesMoved p n k) :
    SpacesMoved p m k where
  zbuf := Memory.appendAll_trans h.zbuf g.zbuf
  zbufKept hp := (g.zbufKept hp).trans (h.zbufKept hp)
  out := Memory.appendAll_trans h.out g.out
  outKept hp := (g.outKept hp).trans (h.outKept hp)
  pix := g.pix ∘ h.pix
  pixKept hp := (g.pixKept hp).trans (h.pixKept hp)
  pcur := h.pcur.trans g.pcur
  pcurKept hp := (g.pcurKept hp).trans (h.pcurKept hp)

/-- Phase PNG reads on in `IN` and appends to `ZBUF` (R44, R52). -/
theorem SpacesMoved.png (m : Spaces) (vs : List Byte) {q : Nat} (h : m.pcur ≤ q) :
    SpacesMoved .png m { m with zbuf := Memory.appendAll m.zbuf vs, pcur := q } :=
  ⟨⟨vs, rfl⟩, (absurd rfl ·), ⟨[], rfl⟩, fun _ => rfl, id, fun _ => rfl, h, (absurd rfl ·)⟩

/-- Phase INFLATE appends to `OUT` (R53). -/
theorem SpacesMoved.inflate (m : Spaces) (vs : List Byte) :
    SpacesMoved .inflate m { m with out := Memory.appendAll m.out vs } :=
  ⟨⟨[], rfl⟩, fun _ => rfl, ⟨vs, rfl⟩, (absurd rfl ·), id, fun _ => rfl, le_refl _, fun _ => rfl⟩

/-- Phase DEFILTER writes `PIX` (R54, R271). -/
theorem SpacesMoved.defilter (m : Spaces) (a : Nat) (vs : List Byte) :
    SpacesMoved .defilter m { m with pix := Memory.writeAll m.pix a vs } :=
  ⟨⟨[], rfl⟩, fun _ => rfl, ⟨[], rfl⟩, fun _ => rfl, fun h => Memory.wf_writeAll h a vs, (absurd rfl ·), le_refl _,
    fun _ => rfl⟩

theorem spaces_raise (c : Cause) (s : State) : spaces (raise c s) = spaces s := rfl

theorem spaces_endBlock (s : State) : spaces (endBlock s) = spaces s := by simp [spaces]

theorem spaces_afterLengths (s : State) : spaces (afterLengths s) = spaces s := by rw [afterLengths_shape]; rfl

/-- The end of a row writes no space (R260, R296). -/
theorem spaces_nextRow (s : State) : spaces (nextRow s) = spaces s := by
  rcases nextRow_cases s with ⟨_, h⟩ | ⟨_, h⟩ <;> rw [h] <;> rfl

/-! ### The parts of the elements -/

/-- A part run from `s` in phase `p` does to the spaces what the phase may, whether it ends or raises. -/
def Run.Moves {α : Type} (p : Phase) (s : State) (r : Run α) : Prop :=
  r.Ends (fun t => SpacesMoved p (spaces s) (spaces t)) fun _ => True

theorem Run.Moves.ok {α : Type} {p : Phase} {s t : State} {a : α} (h : spaces t = spaces s) : (Run.ok a t).Moves p s :=
  SpacesMoved.of_eq h

theorem Run.Moves.raised {α : Type} {p : Phase} {s t : State} {c : Cause} (h : spaces t = spaces s) :
    (Run.raised c t : Run α).Moves p s := ⟨trivial, .of_eq h⟩

theorem Run.Moves.andThen {α β : Type} {p : Phase} {s : State} {r : Run α} {k : α → State → Run β} (h : r.Moves p s)
    (hk : ∀ a u, (k a u).Moves p u) : (r.andThen k).Moves p s :=
  Run.Ends.andThen h (fun a u hu => (hk a u).mono (fun _ ht => hu.trans ht) fun _ hc => hc) fun _ hu => hu

theorem Run.Moves.outcome {p : Phase} {s t : State} {r : Run Unit} (h : r.Moves p s) (ht : r.outcome = .next t) :
    SpacesMoved p (spaces s) (spaces t) :=
  Run.Ends.outcome h (fun _ hu => hu) (fun _ _ _ hu => hu) ht

/-- A part that writes no space. -/
theorem Run.Ends.moves {α : Type} {P : State → Prop} {Q : Cause → Prop} {p : Phase} {s : State} {r : Run α}
    (h : r.Ends P Q) (hs : ∀ t, P t → spaces t = spaces s) : r.Moves p s :=
  h.mono (fun t ht => .of_eq (hs t ht)) fun _ _ => trivial

section reader
variable {p : Phase} (s : State)

theorem spaces_of_readerOnly {t : State} (h : readerOnly s t) : spaces t = spaces s := by rw [h]; rfl

theorem readByte_moves : (readByte s).Moves p s := (readByte_ends s).moves fun _ => spaces_of_readerOnly s

theorem readBytes_moves (n : Nat) : (readBytes n s).Moves p s := (readBytes_ends n s).moves fun _ => spaces_of_readerOnly s

theorem readBits_moves (n : Nat) : (readBits n s).Moves p s := (readBits_ends n s).moves fun _ => spaces_of_readerOnly s

theorem huffDecode_moves (tree : Tree) : (huffDecode tree s).Moves p s :=
  (huffDecode_ends tree s).moves fun _ => spaces_of_readerOnly s

theorem blkHeader_moves : (blkHeader s).Moves p s := (blkHeader_ends s).moves fun t ht => by rw [ht]; rfl

end reader

/-! ### Phase PNG -/

section png
variable (s : State)

/-- A part that moves the cursor on and writes nothing else. -/
theorem Run.Ends.moves_cursor {α : Type} {Q : Cause → Prop} {s : State} {r : Run α}
    (h : r.Ends (fun t => t = { s with pcur := t.pcur } ∧ s.pcur ≤ t.pcur) Q) : r.Moves .png s :=
  h.mono (fun t ht => by rw [ht.1]; exact .png (spaces s) [] ht.2) fun _ _ => trivial

theorem rd8_moves : (rd8 s).Moves .png s := (rd8_cursor s).moves_cursor

theorem rd32_moves : (rd32 s).Moves .png s := (rd32_cursor s).moves_cursor

theorem chunkHeader_moves : (chunkHeader s).Moves .png s := (chunkHeader_cursor s).moves_cursor

theorem rdn_moves (n : Nat) : (rdn n s).Moves .png s := by
  unfold rdn
  split
  · exact .raised rfl
  · exact SpacesMoved.png (spaces s) [] (Nat.le_add_right _ n)

theorem skip_moves (n : Nat) : (skip n s).Moves .png s := by
  unfold skip
  split
  · exact .raised rfl
  · exact SpacesMoved.png (spaces s) [] (Nat.le_add_right _ n)

theorem skipChunk_moves (len : Word) : (skipChunk len s).Moves .png s :=
  (skip_moves s _).andThen fun _ u => skip_moves u 4

theorem ihdrChecks_moves : (ihdrChecks s).Moves .png s := by
  unfold ihdrChecks
  split_ifs
  iterate 6 exact .raised rfl
  all_goals exact .ok rfl

theorem enterZlib_moves : (enterZlib s).Moves .png s := by
  rcases enterZlib_cases s with ⟨_, h⟩ | ⟨_, h⟩ <;> rw [h]
  · exact .raised rfl
  · exact .ok rfl

variable {s} {t : State}

theorem execSig_moved (ht : exec .sig s = .next t) : SpacesMoved .png (spaces s) (spaces t) := by
  refine Run.Moves.outcome ((rdn_moves s 8).andThen fun _ u => ?_) ht
  exact .ok rfl

theorem execChunkIhdr_moved {width height crc : Word} {depth ctype cmeth fmeth imeth : Byte}
    (ht : exec (.chunkIhdr width height depth ctype cmeth fmeth imeth crc) s = .next t) :
    SpacesMoved .png (spaces s) (spaces t) := by
  refine Run.Moves.outcome ((rd32_moves s).andThen fun _ s₁ => ?_) ht
  refine Run.Moves.andThen (rd32_moves { s₁ with w := width }) fun _ s₂ => ?_
  refine Run.Moves.andThen (rd8_moves { s₂ with h := height }) fun _ s₃ => ?_
  refine Run.Moves.andThen (rd8_moves { s₃ with depth := depth }) fun _ s₄ => ?_
  refine Run.Moves.andThen (rd8_moves { s₄ with ctype := ctype }) fun _ s₅ => ?_
  refine Run.Moves.andThen (rd8_moves { s₅ with cmeth := cmeth }) fun _ s₆ => ?_
  refine Run.Moves.andThen (rd8_moves { s₆ with fmeth := fmeth }) fun _ s₇ => ?_
  refine Run.Moves.andThen (skip_moves { s₇ with imeth := imeth } 4) fun _ s₈ => ?_
  exact (ihdrChecks_moves s₈).andThen fun _ _ => .ok rfl

/-- An IDAT appends its payload to `ZBUF` (R244). -/
theorem execChunkIdat_moved {len crc : Word} {payload : List Byte} (ht : exec (.chunkIdat len payload crc) s = .next t) :
    SpacesMoved .png (spaces s) (spaces t) := by
  refine Run.Moves.outcome ((rdn_moves s _).andThen fun _ u => ?_) ht
  exact (skip_moves { u with zbuf := Memory.appendAll u.zbuf payload } 4).mono
    (fun _ hv => (SpacesMoved.png (spaces u) payload (le_refl _)).trans hv) fun _ hc => hc

theorem execChunkIend_moved {len crc : Word} {payload : List Byte} (ht : exec (.chunkIend len payload crc) s = .next t) :
    SpacesMoved .png (spaces s) (spaces t) :=
  ((skipChunk_moves s len).andThen fun _ u => enterZlib_moves u).outcome ht

theorem execChunkOther_moved {type len crc : Word} {payload : List Byte}
    (ht : exec (.chunkOther type len payload crc) s = .next t) : SpacesMoved .png (spaces s) (spaces t) :=
  (skipChunk_moves s len).outcome ht

end png

/-! ### The zlib elements -/

section zlib
variable {p : Phase} {s t : State}

theorem execZhdr_moved {cmf flg : Byte} (ht : exec (.zhdr cmf flg) s = .next t) : SpacesMoved p (spaces s) (spaces t) := by
  refine Run.Moves.outcome ((readByte_moves s).andThen fun _ u => ?_) ht
  refine Run.Moves.andThen (readByte_moves { u with cmf := cmf }) fun _ v => ?_
  refine Run.Moves.andThen ((zlibChecks_ends { v with flg := flg }).moves fun _ hw => by rw [hw]; rfl) fun _ _ => ?_
  exact .ok rfl

/-- The start of the defilter writes no space (R260). -/
theorem enterDefilter_moves (s : State) : (enterDefilter s).Moves p s := by
  rcases enterDefilter_cases s with ⟨_, h⟩ | ⟨_, _, h⟩ | ⟨_, _, h⟩ <;> rw [h]
  · exact .raised rfl
  all_goals exact .ok rfl

theorem execZtrl_moved {adler : Word} (ht : exec (.ztrl adler) s = .next t) : SpacesMoved p (spaces s) (spaces t) :=
  Run.Moves.outcome (Run.Moves.andThen (readBytes_moves { s with phase := .zlibTrl } 4) fun _ u => enterDefilter_moves u) ht

end zlib

/-! ### Phase INFLATE -/

section inflate
variable {s t : State}

/-- A part that changes no space but `OUT`, which grows at its end. -/
theorem SpacesMoved.of_outGrown (hs : spaces t = { spaces s with out := t.out }) (h : outGrown s t) :
    SpacesMoved .inflate (spaces s) (spaces t) := by
  obtain ⟨vs, hv⟩ := h
  rw [hs, hv]
  exact .inflate (spaces s) vs

theorem execBlk_moved {p : Phase} {f : Bool} {i : Instr}
    (hi : i = .blkStored f ∨ i = .blkFixed f ∨ i = .blkDynamic f ∨ i = .blkReserved f) (ht : exec i s = .next t) :
    SpacesMoved p (spaces s) (spaces t) := by
  rcases hi with rfl | rfl | rfl | rfl <;> cases ht <;> exact .refl _ _

theorem storedLoop_moves (n : Nat) (vs : List Byte) (s : State) : (storedLoop n vs s).Moves .inflate s :=
  (storedLoop_ends n vs s).mono (fun t ht => .of_outGrown (by rw [ht.1]; rfl) ht.2) fun _ _ => trivial

theorem execStored_moved {len nlen : Half} {payload : List Byte} (ht : exec (.stored len nlen payload) s = .next t) :
    SpacesMoved .inflate (spaces s) (spaces t) := by
  refine Run.Moves.outcome ((readBytes_moves s 2).andThen fun _ u => ?_) ht
  refine Run.Moves.andThen (readBytes_moves { u with slen := len } 2) fun _ v => ?_
  refine Run.Moves.andThen (storedLoop_moves _ payload { v with snlen := nlen }) fun _ w => ?_
  exact .ok (spaces_endBlock w)

theorem execDyn_moved {p : Phase} {hlit hdist hclen : Nat} {cl : List Nat}
    (ht : exec (.dyn hlit hdist hclen cl) s = .next t) : SpacesMoved p (spaces s) (spaces t) := by
  refine Run.Moves.outcome ((readBits_moves s 5).andThen fun _ u => ?_) ht
  refine Run.Moves.andThen (readBits_moves { u with hlit := hlit } 5) fun _ v => ?_
  refine Run.Moves.andThen (readBits_moves { v with hdist := hdist } 4) fun _ w => ?_
  refine Run.Moves.andThen ((readClLens_ends clOrder cl _).moves fun x hx => ?_) fun _ _ => .ok rfl
  rw [hx]; rfl

theorem execClElement_moved {p : Phase} {sym : Nat} {bits : List Bool} (ht : exec (clElement sym bits) s = .next t) :
    SpacesMoved p (spaces s) (spaces t) := by
  have zeros (nbits rep : Nat) : (runZeros nbits rep s).Moves p s := (runZeros_ends nbits rep s).moves fun u hu => by
    rw [hu]; rfl
  rcases clElement_cases sym bits with ⟨v, hi⟩ | ⟨rep, hi⟩ | ⟨rep, hi⟩ | ⟨rep, hi⟩
  · rw [exec_cl hi] at ht
    exact Run.Moves.outcome (r := runCl v s) (.ok (spaces_afterLengths _)) ht
  all_goals rw [hi] at ht
  · exact ((runRepeatPrev_ends rep s).moves fun u hu => by rw [hu]; rfl).outcome ht
  · exact (zeros 3 rep).outcome ht
  · exact (zeros 7 rep).outcome ht

theorem emit_moves (v : Byte) (s : State) : (emit v s).Moves .inflate s := by
  rcases emit_cases v s with ⟨_, h⟩ | ⟨_, h⟩ <;> rw [h]
  · exact SpacesMoved.inflate (spaces s) [v]
  · exact .raised rfl

/-- A length symbol reads its extra bits and latches the length (R183). -/
theorem runLen_moved {p : Phase} {sym extra : Nat} (ht : (runLen sym extra s).outcome = .next t) :
    SpacesMoved p (spaces s) (spaces t) := by
  unfold runLen at ht
  generalize lenExtra.getD (sym - 257) 0 = n at ht
  generalize lenBase.getD (sym - 257) 0 + extra = length at ht
  refine Run.Moves.outcome ((readBits_moves s n).andThen fun _ u => ?_) ht
  exact .ok rfl

theorem runDist_moves (sym extra : Nat) (s : State) : (runDist sym extra s).Moves .inflate s :=
  (runDist_ends sym extra s).mono (fun t ht => .of_outGrown (by rw [ht.1]; rfl) ht.2) fun _ _ => trivial

theorem execLlElement_moved {sym : Nat} {bits : List Bool} {i : Instr} (hi : llElement sym bits = .element i)
    (ht : exec i s = .next t) : SpacesMoved .inflate (spaces s) (spaces t) := by
  rcases llElement_cases hi with ⟨b, rfl⟩ | rfl | ⟨p, hp⟩ | rfl | rfl
  · exact (emit_moves b s).outcome ht
  · cases ht; exact .of_eq (spaces_endBlock s)
  · rw [exec_len hp] at ht; exact runLen_moved ht
  all_goals cases ht; exact .of_eq (spaces_raise _ s)

theorem execDistElement_moved {sym : Nat} {bits : List Bool} {i : Instr} (hi : distElement sym bits = .element i)
    (ht : exec i s = .next t) : SpacesMoved .inflate (spaces s) (spaces t) := by
  rcases distElement_cases hi with ⟨p, hp⟩ | rfl | rfl
  · rw [exec_dist hp] at ht; exact (runDist_moves p.1 p.2 s).outcome ht
  all_goals cases ht; exact .of_eq (spaces_raise _ s)

end inflate

/-! ### The scanlines -/

/-- A row is written to `PIX`, unless its filter type is invalid (R269, R271). -/
theorem execRow_moved {n : Nat} {bits : List Bool} {i : Instr} {s t : State} (hi : decodeRow n bits = .element i)
    (ht : exec i s = .next t) : SpacesMoved .defilter (spaces s) (spaces t) := by
  rcases decodeRow_cases hi with ⟨⟨pred, x⟩, hp⟩ | ⟨ft, rfl⟩
  · rw [exec_row hp] at ht
    rcases runRow_cases pred x s with ⟨f, he⟩ | ⟨cur, _, he⟩ <;> rw [he] at ht <;> cases ht
    rw [spaces_nextRow]
    exact .defilter (spaces s) _ cur
  · cases ht; exact .of_eq (spaces_raise _ s)

end Sys2Proof.Machine
end

section
/-! What a step does to the spaces: each phase writes its own (R50 to R54), and every space keeps its canonical form. -/

namespace Sys2Proof.Machine

/-- Where the fetch reads ahead of the element, the step moves the spaces as the reads and the element do. -/
theorem fetchAfter_moved {p : Phase} {s t : State} {r : Run Unit} {d : Decoded} (hf : fetch s = fetchAfter r d)
    (hr : r.Moves p s)
    (hi : ∀ i u, d = .element i → exec i u = .next t → SpacesMoved p (spaces u) (spaces t))
    (ht : engineStep s = .next t) : SpacesMoved p (spaces s) (spaces t) := by
  rcases engineStep_fetchAfter hf ht with ⟨c, u, rfl, rfl⟩ | ⟨i, u, rfl, hd, he⟩ | ⟨c, u, rfl, -, rfl⟩ | ⟨u, rfl, -, rfl⟩
  · exact hr.2
  · exact SpacesMoved.trans hr (hi i u hd he)
  all_goals exact hr

theorem fetchCoded_moved {p : Phase} {s t : State} {tree : Tree} {e : Expect} (hf : fetch s = fetchCoded tree e s)
    (hi : ∀ i u, decode s.cfg.missingBranch e (bitsAhead s) = .element i → exec i u = .next t →
      SpacesMoved p (spaces u) (spaces t))
    (ht : engineStep s = .next t) : SpacesMoved p (spaces s) (spaces t) :=
  fetchAfter_moved hf ((huffDecode_moves s tree).andThen fun _ _ => .ok rfl) hi ht

theorem engineStep_moved_png {s t : State} (hs : s.phase = .png) (ht : engineStep s = .next t) :
    SpacesMoved .png (spaces s) (spaces t) := by
  cases hp : s.pngPos with
  | signature =>
    have hf := fetch_signature hs hp
    rcases fetchSignature_cases s with h | ⟨c, _, h⟩ | ⟨c, _, h⟩
    · rw [engineStep_element (hf.trans h)] at ht; exact execSig_moved ht
    all_goals rw [engineStep_raised (hf.trans h)] at ht; cases ht
    · exact .of_eq (spaces_raise c s)
    · exact .png (spaces s) [] (Nat.le_add_right _ 8)
  | firstChunk =>
    refine fetchAfter_moved (fetch_firstChunk hs hp) (chunkHeader_moves s) (fun i u hd he => ?_) ht
    simp only [decode, decodeFirstChunk] at hd
    split_ifs at hd
    cases hd
    exact execChunkIhdr_moved he
  | chunkLoop =>
    refine fetchAfter_moved (fetch_chunkLoop hs hp) (chunkHeader_moves s) (fun i u hd he => ?_) ht
    rcases decodeChunk_cases hd with ⟨_, _, _, rfl⟩ | ⟨_, _, _, rfl⟩ | ⟨_, _, _, _, rfl⟩
    · exact execChunkIdat_moved he
    · exact execChunkIend_moved he
    · exact execChunkOther_moved he

theorem engineStep_moved_inflate {s t : State} (hs : s.phase = .inflate) (ht : engineStep s = .next t) :
    SpacesMoved .inflate (spaces s) (spaces t) := by
  cases hp : s.infPos with
  | blockHeader =>
    refine fetchAfter_moved (fetch_blockHeader hs hp) (blkHeader_moves s) (fun i u hd he => ?_) ht
    obtain ⟨f, hi⟩ := decodeBlk_cases hd
    exact execBlk_moved hi he
  | storedBlock => rw [engineStep_element (fetch_storedBlock hs hp)] at ht; exact execStored_moved ht
  | dynHeader => rw [engineStep_element (fetch_dynHeader hs hp)] at ht; exact execDyn_moved ht
  | codeLengths =>
    refine fetchCoded_moved (fetch_codeLengths hs hp) (fun i u hd he => ?_) ht
    obtain ⟨sym, rest, hi⟩ := decodeCoded_element (of := fun sym rest => .element (clElement sym rest)) hd
    cases hi
    exact execClElement_moved he
  | symbols =>
    refine fetchCoded_moved (fetch_symbols hs hp) (fun i u hd he => ?_) ht
    obtain ⟨sym, rest, hi⟩ := decodeCoded_element hd
    exact execLlElement_moved hi he
  | distance =>
    refine fetchCoded_moved (fetch_distance hs hp) (fun i u hd he => ?_) ht
    obtain ⟨sym, rest, hi⟩ := decodeCoded_element hd
    exact execDistElement_moved hi he

theorem engineStep_moved_defilter {s t : State} (hs : s.phase = .defilter) (ht : engineStep s = .next t) :
    SpacesMoved .defilter (spaces s) (spaces t) := by
  have hf := fetch_defilter hs
  unfold fetchRow at hf
  split at hf
  · rename_i hd
    rw [engineStep_element hf] at ht
    exact execRow_moved hd ht
  · rw [engineStep_stop hf] at ht; cases ht

/-- What a step of the engine does to the spaces (R50, R52 to R54). -/
theorem engineStep_moved {s t : State} (ht : engineStep s = .next t) : SpacesMoved s.phase (spaces s) (spaces t) := by
  cases hp : s.phase with
  | png => exact engineStep_moved_png hp ht
  | zlibHdr => rw [engineStep_element (fetch_zlibHdr hp)] at ht; exact execZhdr_moved ht
  | inflate => exact engineStep_moved_inflate hp ht
  | zlibTrl => rw [engineStep_element (fetch_zlibTrl hp)] at ht; exact execZtrl_moved ht
  | defilter => exact engineStep_moved_defilter hp ht
  | idle | done | error => rw [engineStep_eq_of_not_running (by rw [hp]; rfl) ht]; exact .refl _ _

/-- The header's sizes change in phase PNG alone (R44). -/
theorem engineStep_sizes {s t : State} (hp : s.phase ≠ .png) (ht : engineStep s = .next t) :
    t.w = s.w ∧ t.h = s.h ∧ t.bpp = s.bpp := by
  cases hs : isRunning s.phase with
  | false => rw [engineStep_eq_of_not_running hs ht]; exact ⟨rfl, rfl, rfl⟩
  | true =>
    cases engineStep_move hs ht with
    | goesOn h | faults h _ | finishes h _ _ => exact h.header hp

/-- Settles O52, from what each phase does to the spaces. -/
theorem spacesWritten : Obligations.SpacesWritten := by
  intro s t hh ht
  rw [step_engine hh] at ht
  have h := engineStep_moved ht
  exact ⟨h.zbuf, h.zbufKept, h.out, h.outKept, h.pixKept, h.pcur, fun hp => ⟨h.pcurKept hp, engineStep_sizes hp ht⟩⟩

/-! ### The canonical form -/

theorem memoryWf_iff (s : State) :
    s.memoryWf = true ↔
      Memory.wf s.inSpace = true ∧ Memory.wf s.zbuf = true ∧ Memory.wf s.out = true ∧ Memory.wf s.pix = true := by
  simp [State.memoryWf, and_assoc]

/-- A step of the engine keeps `IN`, appends to `ZBUF` and `OUT`, and keeps the form of `PIX`. -/
theorem engineStep_memoryWf {s t : State} (hs : s.memoryWf = true) (ht : engineStep s = .next t) : t.memoryWf = true := by
  rw [memoryWf_iff] at hs ⊢
  obtain ⟨hin, hzbuf, hout, hpix⟩ := hs
  have hkept : t.inSpace = s.inSpace := (congrArg State.inSpace (engineStep_inputSide ht) :)
  have hmoved := engineStep_moved ht
  obtain ⟨xs, hx⟩ := hmoved.zbuf
  obtain ⟨ys, hy⟩ := hmoved.out
  exact ⟨hkept ▸ hin, (congrArg Memory.wf hx).trans (Memory.wf_appendAll hzbuf xs),
    (congrArg Memory.wf hy).trans (Memory.wf_appendAll hout ys), hmoved.pix hpix⟩

/-- The host's load keeps the form of `IN` (R297). -/
theorem hostLoad_memoryWf {s t : State} {offset : Nat} {bytes : List Byte} (hs : s.memoryWf = true)
    (ht : hostLoad s offset bytes = .next t) : t.memoryWf = true := by
  rw [memoryWf_iff] at hs
  obtain ⟨hin, hrest⟩ := hs
  simp only [hostLoad] at ht
  split_ifs at ht
  cases ht
  exact (memoryWf_iff _).2 ⟨Memory.wf_writeAll hin offset bytes, hrest⟩

/-- A job starts with `IN` as it is and the other spaces empty (R45). -/
theorem startJob_memoryWf {s : State} (hs : s.memoryWf = true) : (startJob s).memoryWf = true :=
  (memoryWf_iff _).2 ⟨((memoryWf_iff s).1 hs).1, rfl, rfl, rfl⟩

theorem hostWriteReg_memoryWf {s : State} (k v : Nat) (hs : s.memoryWf = true) : (hostWriteReg s k v).memoryWf = true := by
  rcases hostWriteReg_cases s k v with h | ⟨-, -, -, h⟩ | ⟨-, -, h⟩ <;> rw [h]
  · exact hs
  · exact startJob_memoryWf hs
  · exact hs

theorem hostReadPix_memoryWf {s t : State} {offset : Nat} (hs : s.memoryWf = true)
    (ht : hostReadPix s offset = .next t) : t.memoryWf = true := by
  simp only [hostReadPix] at ht
  split_ifs at ht
  split at ht <;> cases ht
  exact hs

/-- Settles O54, move by move: the host writes `IN` through its load alone, a start and a reset empty spaces, and the engine
keeps the form. -/
theorem memoryFormKept : Obligations.MemoryFormKept := by
  intro s t hs ht
  cases hh : s.host with
  | nil => rw [step_engine hh] at ht; exact engineStep_memoryWf hs ht
  | cons m rest =>
    rw [step_host hh] at ht
    have hrest : State.memoryWf { s with host := rest } = true := hs
    cases m with
    | load offset bytes => exact hostLoad_memoryWf hrest ht
    | writeReg k v => cases ht; exact hostWriteReg_memoryWf k v hrest
    | readReg k => cases ht; exact hs
    | readPix offset => exact hostReadPix_memoryWf hrest ht
    | tick => exact engineStep_memoryWf hrest ht
    | wait =>
      simp only at ht
      split_ifs at ht
      · exact engineStep_memoryWf hs ht
      · cases ht; exact hs
    | powerOn => cases ht; rfl

end Sys2Proof.Machine
end

section
/-! What the coded elements are made of (R81 to R85): the symbol and the extra field that the encoder writes are those that the
decoder reads, and each symbol has its element. -/

namespace Sys2Proof

/-- The decoder takes the code of a symbol off and reads the element from the extra field on (R81, R82, R128). -/
theorem decodeCoded_codedBits {t : Tree} {sym n extra : Nat} {bits : List Bool} (h : codedBits t sym n extra = some bits)
    (mb : MissingBranch) (of : Nat → List Bool → Decoded) (rest : List Bool) :
    decodeCoded mb t of (bits ++ rest) = of sym (fieldBits n extra ++ rest) := by
  obtain ⟨p, hp, rfl⟩ := Option.map_eq_some_iff.1 h
  simp only [decodeCoded, List.append_assoc, Machine.walk_codeOf hp, List.drop_left]

/-- A field read into a bit vector of its width keeps its value (R82). -/
theorem toNat_ofNat_takeField (n : Nat) (bits : List Bool) :
    (BitVec.ofNat n (takeField n bits).1).toNat = bitsVal (bits.take n) := by
  rw [BitVec.toNat_ofNat, Nat.mod_eq_of_lt (takeField_lt n bits)]
  rfl

/-- A bit vector written as a field is read back (R82). -/
theorem ofNat_takeField_fieldBits {n : Nat} (x : BitVec n) (rest : List Bool) :
    BitVec.ofNat n (takeField n (fieldBits n x.toNat ++ rest)).1 = x := by
  rw [takeField_fieldBits x.isLt, BitVec.ofNat_toNat, BitVec.setWidth_eq]

/-! ### From symbols to elements -/

theorem clParts_clElement {sym : Nat} (h : sym ≤ 15) (bits : List Bool) : clParts (clElement sym bits) = some sym := by
  interval_cases sym <;> rfl

theorem llElement_lit (b : Byte) (bits : List Bool) : llElement b.toNat bits = .element (.lit b) := by
  unfold llElement
  rw [if_pos (Nat.le_of_lt_succ b.isLt), BitVec.ofNat_toNat, BitVec.setWidth_eq]

/-- The element of a length symbol, with the extra field read (R84). -/
theorem llElement_len {sym : Nat} (hlo : 257 ≤ sym) (hhi : sym ≤ 285) (bits : List Bool) :
    ∃ i, llElement sym bits = .element i ∧
      lenParts i = some (sym, bitsVal (bits.take (lenExtra.getD (sym - 257) 0))) := by
  interval_cases sym <;> refine ⟨_, rfl, ?_⟩ <;> simp only [lenParts, toNat_ofNat_takeField] <;> rfl

/-- The element of a distance symbol, with the extra field read (R85). -/
theorem distElement_dist {sym : Nat} (hhi : sym ≤ 29) (bits : List Bool) :
    ∃ i, distElement sym bits = .element i ∧ distParts i = some (sym, bitsVal (bits.take (distExtra.getD sym 0))) := by
  interval_cases sym <;> refine ⟨_, rfl, ?_⟩ <;> simp only [distParts, toNat_ofNat_takeField] <;> rfl

/-- Settles O27, symbol range by symbol range. -/
theorem symbolMaps : Obligations.SymbolMaps := by
  intro bits
  exact ⟨fun _ h => clParts_clElement h bits, rfl, rfl, rfl, fun b => llElement_lit b bits, rfl,
    fun _ hlo hhi => llElement_len hlo hhi bits, rfl, rfl, fun _ hhi => distElement_dist hhi bits, rfl, rfl⟩

/-! ### From elements to symbols -/

theorem clElement_of_clParts {i : Instr} {v : Nat} (h : clParts i = some v) (bits : List Bool) : clElement v bits = i := by
  cases i <;> cases h <;> rfl

/-- A LEN element is the element of its symbol and its extra field (R84). -/
theorem llElement_of_lenParts {i : Instr} {p : Nat × Nat} (h : lenParts i = some p) (rest : List Bool) :
    llElement p.1 (fieldBits (lenExtra.getD (p.1 - 257) 0) p.2 ++ rest) = .element i := by
  cases i <;> cases h <;> simp [llElement, lenExtra, ofNat_takeField_fieldBits]

/-- A DIST element is the element of its symbol and its extra field (R85). -/
theorem distElement_of_distParts {i : Instr} {p : Nat × Nat} (h : distParts i = some p) (rest : List Bool) :
    distElement p.1 (fieldBits (distExtra.getD p.1 0) p.2 ++ rest) = .element i := by
  cases i <;> cases h <;> simp [distElement, distExtra, ofNat_takeField_fieldBits]

/-- How CL 0 to CL 15 are encoded, and where they stand (R83). -/
theorem format_of_clParts {i : Instr} {v : Nat} (h : clParts i = some v) (c : Context) :
    encode c i = codedBits c.cl v 0 0 ∧ expectOf c i = .codeLength c.cl := by
  cases i <;> cases h <;> exact ⟨rfl, rfl⟩

/-- How a LEN element is encoded, and where it stands (R84). -/
theorem format_of_lenParts {i : Instr} {p : Nat × Nat} (h : lenParts i = some p) (c : Context) :
    encode c i = lenBits c p ∧ expectOf c i = .symbol c.lit := by
  cases i <;> cases h <;> exact ⟨rfl, rfl⟩

/-- How a DIST element is encoded, and where it stands (R85). -/
theorem format_of_distParts {i : Instr} {p : Nat × Nat} (h : distParts i = some p) (c : Context) :
    encode c i = distBits c p ∧ expectOf c i = .distance c.dist := by
  cases i <;> cases h <;> exact ⟨rfl, rfl⟩

end Sys2Proof
end

section
/-! Decoding what the encoder wrote, format by format (R72 to R88). -/

namespace Sys2Proof

/-! ### The byte-granular formats -/

theorem length_chunkBits (type len : Word) (payload : List Byte) (crc : Word) :
    (chunkBits type len payload crc).length = 64 + 8 * payload.length + 32 := by
  simp [chunkBits, be32Bytes]
  omega

/-- The header words of a chunk, read back; what follows them are payload and CRC (R73). -/
theorem takeBe32_chunkBits (type len : Word) (payload : List Byte) (crc : Word) (rest : List Bool) :
    takeBe32 (chunkBits type len payload crc ++ rest) =
      (len, bytesBits (be32Bytes type) ++ (bytesBits payload ++ (bytesBits (be32Bytes crc) ++ rest))) := by
  simp only [chunkBits, bytesBits_append, List.append_assoc, takeBe32_be32Bytes]

theorem decodeFirstChunk_chunkBits {payload : List Byte} (crc : Word) (rest : List Bool) :
    decodeFirstChunk (chunkBits typeIhdr 13 payload crc ++ rest) =
      .element (decodeIhdr (bytesBits payload ++ (bytesBits (be32Bytes crc) ++ rest))) := by
  have hl : ¬ (chunkBits typeIhdr 13 payload crc ++ rest).length < 64 := by
    rw [List.length_append, length_chunkBits]; omega
  simp only [decodeFirstChunk, takeBe32_chunkBits, takeBe32_be32Bytes, if_neg hl, ne_eq, not_true_eq_false, if_false]

/-- The payload of an IHDR chunk, in the order of F_IHDR (R74). -/
theorem decodeIhdr_bytesBits (w h crc : Word) (d ct m f im : Byte) (rest : List Bool) :
    decodeIhdr (bytesBits (be32Bytes w ++ be32Bytes h ++ [d, ct, m, f, im]) ++ (bytesBits (be32Bytes crc) ++ rest)) =
      .chunkIhdr w h d ct m f im crc := by
  have hf (rest : List Bool) : bytesBits [d, ct, m, f, im] ++ rest =
      byteBits d ++ (byteBits ct ++ (byteBits m ++ (byteBits f ++ (byteBits im ++ rest)))) := by
    simp only [bytesBits, List.append_assoc, List.nil_append]
  simp only [decodeIhdr, bytesBits_append, List.append_assoc, takeBe32_be32Bytes, hf, takeByte_byteBits]

theorem decodeChunk_chunkBits {type len : Word} {payload : List Byte} (hp : wfPayload len.toNat payload = true)
    (crc : Word) (rest : List Bool) :
    decodeChunk (chunkBits type len payload crc ++ rest) =
      if type = typeIdat then .element (.chunkIdat len payload crc)
      else if type = typeIend then .element (.chunkIend len payload crc)
      else .element (.chunkOther type len payload crc) := by
  have hl : ¬ (chunkBits type len payload crc ++ rest).length < 64 := by
    rw [List.length_append, length_chunkBits]; omega
  have hpay := takeBytes_bytesBits payload (beq_iff_eq.1 hp)
  simp only [decodeChunk, takeBe32_chunkBits, takeBe32_be32Bytes, hpay, if_neg hl]

theorem decodeZhdr_bytesBits (cmf flg : Byte) (rest : List Bool) :
    decodeZhdr (bytesBits [cmf, flg] ++ rest) = .zhdr cmf flg := by
  simp only [decodeZhdr, bytesBits, List.append_assoc, takeByte_byteBits]

theorem decodeStored_bytesBits {len : Half} {payload : List Byte} (nlen : Half)
    (hp : wfPayload len.toNat payload = true) (rest : List Bool) :
    decodeStored (bytesBits (le16Bytes len ++ le16Bytes nlen ++ payload) ++ rest) = .stored len nlen payload := by
  simp only [decodeStored, bytesBits_append, List.append_assoc, takeLe16_le16Bytes,
    takeBytes_bytesBits payload (beq_iff_eq.1 hp)]

/-- A row: its filter type selects the element (R88). -/
theorem decodeRow_bytesBits (ft : Byte) (x : List Byte) (rest : List Bool) :
    decodeRow x.length (bytesBits (ft :: x) ++ rest) =
      .element (if ft = 0 then .row0 x else if ft = 1 then .row1 x else if ft = 2 then .row2 x
        else if ft = 3 then .row3 x else if ft = 4 then .row4 x else .rowInvalid ft) := by
  have hl : ¬ (bytesBits (ft :: x) ++ rest).length < 8 := by
    rw [List.length_append, length_bytesBits, List.length_cons]; omega
  simp only [decodeRow, if_neg hl]
  simp only [bytesBits, List.append_assoc, takeByte_byteBits, takeBytes_bytesBits x rfl, apply_ite Decoded.element]

/-- An invalid filter type is none of the five valid ones (R88, R269). -/
theorem filterType_ne_of_le {ft : Byte} (h : 5 ≤ ft.toNat) :
    ft ≠ 0 ∧ ft ≠ 1 ∧ ft ≠ 2 ∧ ft ≠ 3 ∧ ft ≠ 4 := by
  refine ⟨?_, ?_, ?_, ?_, ?_⟩ <;> rintro rfl <;> exact absurd h (by decide)

/-! ### The dynamic header -/

theorem takeClList_flatMap {cl : List Nat} (h : ∀ v ∈ cl, v < 8) (rest : List Bool) :
    takeClList cl.length (cl.flatMap (fieldBits 3) ++ rest) = cl := by
  induction cl with
  | nil => rfl
  | cons v vs ih =>
    simp only [List.length_cons, takeClList, List.flatMap_cons, List.append_assoc,
      takeField_fieldBits (show v < 2 ^ 3 from h v (by simp)), ih fun w hw => h w (by simp [hw])]

/-- The three counts and the code-length lengths, read back (R80). -/
theorem decodeDyn_encode {hlit hdist hclen : Nat} {cl : List Nat}
    (hwf : WellFormed (.dyn hlit hdist hclen cl) = true) (rest : List Bool) :
    decodeDyn (fieldBits 5 (hlit - 257) ++ fieldBits 5 (hdist - 1) ++ fieldBits 4 (hclen - 4) ++
      cl.flatMap (fieldBits 3) ++ rest) = .dyn hlit hdist hclen cl := by
  simp only [WellFormed, wfClList, Bool.and_eq_true, decide_eq_true_eq, beq_iff_eq, List.all_eq_true] at hwf
  obtain ⟨⟨⟨⟨hl, hl'⟩, hd, hd'⟩, hc, hc'⟩, rfl, hcl⟩ := hwf
  simp only [decodeDyn, List.append_assoc, takeField_fieldBits (show hlit - 257 < 2 ^ 5 by omega),
    takeField_fieldBits (show hdist - 1 < 2 ^ 5 by omega),
    takeField_fieldBits (show cl.length - 4 < 2 ^ 4 by omega), Nat.sub_add_cancel hl, Nat.sub_add_cancel hd,
    Nat.sub_add_cancel hc, takeClList_flatMap hcl]

/-! ### The coded elements -/

theorem decode_of_clParts {i : Instr} {v : Nat} (hi : clParts i = some v) {c : Context} {bits : List Bool}
    (h : encode c i = some bits) (mb : MissingBranch) (rest : List Bool) :
    decode mb (expectOf c i) (bits ++ rest) = .element i := by
  obtain ⟨he, hx⟩ := format_of_clParts hi c
  rw [hx, decode, decodeCoded_codedBits (he.symm.trans h), clElement_of_clParts hi]

theorem decode_of_lenParts {i : Instr} {p : Nat × Nat} (hi : lenParts i = some p) {c : Context} {bits : List Bool}
    (h : encode c i = some bits) (mb : MissingBranch) (rest : List Bool) :
    decode mb (expectOf c i) (bits ++ rest) = .element i := by
  obtain ⟨he, hx⟩ := format_of_lenParts hi c
  rw [hx, decode, decodeCoded_codedBits (he.symm.trans h), llElement_of_lenParts hi]

theorem decode_of_distParts {i : Instr} {p : Nat × Nat} (hi : distParts i = some p) {c : Context} {bits : List Bool}
    (h : encode c i = some bits) (mb : MissingBranch) (rest : List Bool) :
    decode mb (expectOf c i) (bits ++ rest) = .element i := by
  obtain ⟨he, hx⟩ := format_of_distParts hi c
  rw [hx, decode, decodeCoded_codedBits (he.symm.trans h), distElement_of_distParts hi]

/-- A repeat symbol: its count is its base and its extra field (R83). -/
theorem decode_of_repeat {t : Tree} {sym n base rep : Nat} {bits : List Bool} {make : Nat → Instr}
    (hmake : ∀ bits, clElement sym bits = make (base + (takeField n bits).1)) (hlo : base ≤ rep) (hhi : rep < base + 2 ^ n)
    (h : codedBits t sym n (rep - base) = some bits) (mb : MissingBranch) (rest : List Bool) :
    decode mb (.codeLength t) (bits ++ rest) = .element (make rep) := by
  rw [decode, decodeCoded_codedBits h, hmake, takeField_fieldBits (by omega), Nat.add_sub_cancel' hlo]

/-- Settles O24: the coded elements from the code of their symbol on, the others from the fields of their formats. -/
theorem decodeEncode : Obligations.DecodeEncode := by
  intro c i mb bits rest hwf hps he
  cases hcl : clParts i with
  | some v => exact decode_of_clParts hcl he mb rest
  | none =>
  cases hlen : lenParts i with
  | some p => exact decode_of_lenParts hlen he mb rest
  | none =>
  cases hdist : distParts i with
  | some p => exact decode_of_distParts hdist he mb rest
  | none =>
  cases i with
  | sig =>
    cases he
    simp only [expectOf, decode, decodeSignature, takeBytes_bytesBits signatureBytes (show _ = 8 from rfl)]
    rfl
  | chunkIhdr => cases he; exact (decodeFirstChunk_chunkBits _ rest).trans (congrArg _ (decodeIhdr_bytesBits ..))
  | chunkIdat => cases he; exact (decodeChunk_chunkBits hwf _ rest).trans (if_pos rfl)
  | chunkIend => cases he; exact decodeChunk_chunkBits hwf _ rest
  | chunkOther =>
    cases he
    simp only [WellFormed, Bool.and_eq_true, bne_iff_ne] at hwf
    obtain ⟨⟨hdat, hend⟩, hp⟩ := hwf
    exact (decodeChunk_chunkBits hp _ rest).trans (by rw [if_neg hdat, if_neg hend])
  | zhdr cmf flg => cases he; exact congrArg _ (decodeZhdr_bytesBits cmf flg rest)
  | ztrl v => cases he; simp only [expectOf, decode, takeLe32_le32Bytes]
  | blkStored | blkFixed | blkDynamic | blkReserved => cases he; rfl
  | stored len nlen payload => cases he; exact congrArg _ (decodeStored_bytesBits nlen hwf rest)
  | dyn => cases he; exact congrArg _ (decodeDyn_encode hwf rest)
  | cl16 | cl17 | cl18 =>
    simp only [WellFormed, Bool.and_eq_true, decide_eq_true_eq] at hwf
    exact decode_of_repeat (fun _ => rfl) hwf.1 (by omega) he mb rest
  | lit b => exact (decodeCoded_codedBits he mb _ rest).trans (llElement_lit b _)
  | eob | len286Invalid | len287Invalid => exact decodeCoded_codedBits he mb llElement rest
  | dist30Invalid | dist31Invalid => exact decodeCoded_codedBits he mb distElement rest
  | row0 x | row1 x | row2 x | row3 x | row4 x => cases he; rw [expectOf, decode, decodeRow_bytesBits]; rfl
  | rowInvalid ft =>
    cases he
    obtain ⟨h0, h1, h2, h3, h4⟩ := filterType_ne_of_le (of_decide_eq_true hwf)
    exact (decodeRow_bytesBits ft [] rest).trans (by rw [if_neg h0, if_neg h1, if_neg h2, if_neg h3, if_neg h4])
  | _ => simp [clParts, lenParts, distParts, isPseudo] at hcl hlen hdist hps

end Sys2Proof
end

section
/-! The symbols of a match (R84, R85, R91): the range that holds a length or a distance gives its symbol and its extra
value. -/

namespace Sys2Proof

/-- Counting the bases that a value reaches finds the range that holds it. -/
theorem length_filter_le_range {base : Nat → Nat} {n d : Nat} (hmono : ∀ i j, i ≤ j → j < n → base i ≤ base j)
    (hn : 0 < n) (h0 : base 0 ≤ d) :
    ∃ k < n, ((List.range n).filter fun j => base j ≤ d).length = k + 1 ∧ base k ≤ d ∧
      (k + 1 < n → d < base (k + 1)) := by
  induction n with
  | zero => omega
  | succ n ih =>
    by_cases hd : base n ≤ d
    · have hall : (List.range (n + 1)).filter (fun j => base j ≤ d) = List.range (n + 1) :=
        List.filter_eq_self.2 fun j hj => decide_eq_true
          (le_trans (hmono j n (Nat.le_of_lt_succ (List.mem_range.1 hj)) (Nat.lt_succ_self n)) hd)
      exact ⟨n, Nat.lt_succ_self n, by rw [hall, List.length_range], hd, fun h => absurd h (lt_irrefl _)⟩
    · have hpos : 0 < n := Nat.pos_of_ne_zero fun h => hd (h ▸ h0)
      obtain ⟨k, hk, hlen, hle, hlt⟩ := ih (fun i j hij hj => hmono i j hij (Nat.lt_succ_of_lt hj)) hpos
      refine ⟨k, Nat.lt_succ_of_lt hk, ?_, hle, fun _ => ?_⟩
      · rw [List.range_succ, List.filter_append, List.filter_singleton]
        simpa [hd] using hlen
      · rcases Nat.lt_or_eq_of_le (Nat.succ_le_of_lt hk) with h | h
        · exact hlt h
        · rw [show k + 1 = n from h]; exact not_le.1 hd

/-- The ranges of the length symbols but 285 follow one another (R84). -/
theorem lenBase_ranges :
    (∀ j < 28, ∀ i ≤ j, lenBase.getD i 0 ≤ lenBase.getD j 0) ∧
    ∀ k < 27, lenBase.getD (k + 1) 0 = lenBase.getD k 0 + 2 ^ lenExtra.getD k 0 := by decide

/-- The ranges of the distance symbols follow one another (R85). -/
theorem distBase_ranges :
    (∀ j < 30, ∀ i ≤ j, distBase.getD i 0 ≤ distBase.getD j 0) ∧
    ∀ k < 29, distBase.getD (k + 1) 0 = distBase.getD k 0 + 2 ^ distExtra.getD k 0 := by decide

/-- The symbol and the extra value of a length (R84, R91). -/
theorem lenSymbol_spec {length : Nat} (hlo : 3 ≤ length) (hhi : length ≤ 258) :
    257 ≤ (lenSymbol length).1 ∧ (lenSymbol length).1 ≤ 285 ∧
    (lenSymbol length).2 < 2 ^ lenExtra.getD ((lenSymbol length).1 - 257) 0 ∧
    lenBase.getD ((lenSymbol length).1 - 257) 0 + (lenSymbol length).2 = length := by
  by_cases h258 : length = 258
  · subst h258; decide
  · obtain ⟨k, hk, hlen, hle, hlt⟩ := length_filter_le_range (base := fun j => lenBase.getD j 0)
      (fun i j hij hj => lenBase_ranges.1 j hj i hij) (by decide : 0 < 28) (show 3 ≤ length from hlo)
    have hsym : lenSymbol length = (257 + k, length - lenBase.getD k 0) := by
      simp only [lenSymbol, if_neg h258, hlen, Nat.add_sub_cancel]
    have hfit : length < lenBase.getD k 0 + 2 ^ lenExtra.getD k 0 := by
      by_cases hk' : k < 27
      · rw [← lenBase_ranges.2 k hk']; exact hlt (by omega)
      · obtain rfl : k = 27 := by omega
        exact (show length < 259 by omega)
    simp only [hsym, Nat.add_sub_cancel_left]
    omega

/-- The symbol and the extra value of a distance (R85, R91). -/
theorem distSymbol_spec {distance : Nat} (hlo : 1 ≤ distance) (hhi : distance ≤ 32768) :
    (distSymbol distance).1 ≤ 29 ∧ (distSymbol distance).2 < 2 ^ distExtra.getD (distSymbol distance).1 0 ∧
    distBase.getD (distSymbol distance).1 0 + (distSymbol distance).2 = distance := by
  obtain ⟨k, hk, hlen, hle, hlt⟩ := length_filter_le_range (base := fun j => distBase.getD j 0)
    (fun i j hij hj => distBase_ranges.1 j hj i hij) (by decide : 0 < 30) (show 1 ≤ distance from hlo)
  have hsym : distSymbol distance = (k, distance - distBase.getD k 0) := by
    simp only [distSymbol, hlen, Nat.add_sub_cancel]
  have hfit : distance < distBase.getD k 0 + 2 ^ distExtra.getD k 0 := by
    by_cases hk' : k < 29
    · rw [← distBase_ranges.2 k hk']; exact hlt (by omega)
    · obtain rfl : k = 29 := by omega
      exact (show distance < 32769 by omega)
  simp only [hsym]
  omega

/-- Every length symbol and extra value make a LEN element (R84). -/
theorem exists_lenParts {sym extra : Nat} (hlo : 257 ≤ sym) (hhi : sym ≤ 285)
    (hx : extra < 2 ^ lenExtra.getD (sym - 257) 0) : ∃ i, lenParts i = some (sym, extra) := by
  obtain ⟨i, -, hi⟩ := llElement_len hlo hhi (fieldBits (lenExtra.getD (sym - 257) 0) extra)
  rw [List.take_of_length_le (by rw [length_fieldBits]), bitsVal_fieldBits hx] at hi
  exact ⟨i, hi⟩

/-- Every distance symbol and extra value make a DIST element (R85). -/
theorem exists_distParts {sym extra : Nat} (hhi : sym ≤ 29) (hx : extra < 2 ^ distExtra.getD sym 0) :
    ∃ i, distParts i = some (sym, extra) := by
  obtain ⟨i, -, hi⟩ := distElement_dist hhi (fieldBits (distExtra.getD sym 0) extra)
  rw [List.take_of_length_le (by rw [length_fieldBits]), bitsVal_fieldBits hx] at hi
  exact ⟨i, hi⟩

/-- Settles O25: the symbols of a match make a LEN and a DIST, the others are the encoder's own equations. -/
theorem pseudoEncodings : Obligations.PseudoEncodings := by
  intro c
  refine ⟨fun length distance h3 h258 h1 h32k => ?_, fun n _ hn => if_pos hn, fun n hn _ => if_neg (by omega),
    fun _ _ _ => rfl, rfl⟩
  obtain ⟨hlo, hhi, hx, hlen⟩ := lenSymbol_spec h3 h258
  obtain ⟨hd, hdx, hdist⟩ := distSymbol_spec h1 h32k
  obtain ⟨i, hi⟩ := exists_lenParts hlo hhi hx
  obtain ⟨j, hj⟩ := exists_distParts hd hdx
  refine ⟨i, j, hi, hj, hlen, hdist, fun h => by rw [h]; rfl, ?_⟩
  rw [(format_of_lenParts hi c).1, (format_of_distParts hj c).1]
  rfl

end Sys2Proof
end

section
/-! The operands that the decoder takes from the bytes ahead (R76, R77, R79, R88, R261). -/

namespace Sys2Proof.Machine

/-- Where bytes are held one by one, the bytes from there on begin with them (R52, R53). -/
theorem Memory.bytesFrom_of_reads {m : Memory} (hm : Memory.wf m = true) {a : Nat} {vs : List Byte}
    (h : ∀ k < vs.length, Memory.read m (a + k) = vs[k]?) :
    Memory.bytesFrom a m = vs ++ Memory.bytesFrom (a + vs.length) m := by
  induction vs generalizing a with
  | nil => rfl
  | cons v vs ih =>
    have hv : Memory.read m a = some v := h 0 (Nat.succ_pos _)
    have htail : ∀ k < vs.length, Memory.read m (a + 1 + k) = vs[k]? := fun k hk => by
      rw [Nat.add_assoc, Nat.add_comm 1 k]
      exact h (k + 1) (Nat.succ_lt_succ hk)
    rw [Memory.bytesFrom_of_read hm hv, ih htail, List.length_cons, Nat.add_right_comm, List.cons_append, Nat.add_assoc]

/-- The aligned bits ahead, where `ZBUF` holds the bytes `vs` at the reader's position (R102). -/
theorem alignedBitsAhead_of_reads {s : State} (hm : Memory.wf s.zbuf = true) {vs : List Byte}
    (h : ∀ k < vs.length, Memory.read s.zbuf (s.br.pos + k) = vs[k]?) :
    ∃ rest, alignedBitsAhead s = bytesBits vs ++ rest :=
  ⟨_, by rw [alignedBitsAhead, Memory.bytesFrom_of_reads hm h, bytesBits_append]⟩

/-- A row's bits, where `OUT` holds its filter type and its filtered bytes (R261). -/
theorem rowBits_of_reads {s : State} (hm : Memory.wf s.out = true) {ft : Byte} {x : List Byte} (hx : x.length = stride s)
    (h : ∀ k < 1 + stride s, Memory.read s.out (s.row * (stride s + 1) + k) = (ft :: x)[k]?) :
    rowBits s = bytesBits (ft :: x) := by
  have hlen : (ft :: x).length = stride s + 1 := congrArg (· + 1) hx
  rw [rowBits, Memory.bytesFrom_of_reads hm fun k hk => h k (by omega), ← hlen, List.take_left]

/-- The operands of a stored block, little-endian (R79, R103). -/
theorem decodeStored_bytes (b0 b1 b2 b3 : Byte) {payload : List Byte} (hp : payload.length = (le16 b0 b1).toNat)
    (rest : List Bool) :
    decodeStored (bytesBits (b0 :: b1 :: b2 :: b3 :: payload) ++ rest) = .stored (le16 b0 b1) (le16 b2 b3) payload := by
  simp only [decodeStored, takeLe16, bytesBits, List.append_assoc, takeByte_byteBits, takeBytes_bytesBits payload hp]

/-- The trailer's four bytes, little-endian (R77, R103). -/
theorem takeLe32_bytes (b0 b1 b2 b3 : Byte) (rest : List Bool) :
    (takeLe32 (bytesBits [b0, b1, b2, b3] ++ rest)).1 = le32 b0 b1 b2 b3 := by
  simp only [takeLe32, bytesBits, List.append_assoc, takeByte_byteBits]

/-- Settles O29: the bytes ahead are the bytes held there, and each format takes its operands from them. -/
theorem streamOperands : Obligations.StreamOperands := by
  refine ⟨fun s cmf flg hh hp hm hcmf hflg => ?_, fun s b0 b1 b2 b3 payload hh hp hq hm hl hr => ?_,
    fun s b0 b1 b2 b3 hh hp hm hr => ?_, fun s ft x hh hp hm hx hr => ?_⟩
  · have hr : ∀ k < [cmf, flg].length, Memory.read s.zbuf (s.br.pos + k) = [cmf, flg][k]? := by
      intro k hk
      simp only [List.length_cons, List.length_nil] at hk
      interval_cases k
      · exact hcmf
      · exact hflg
    obtain ⟨rest, ha⟩ := alignedBitsAhead_of_reads hm hr
    rw [step_engine hh, engineStep_element (fetch_zlibHdr hp), ha, decodeZhdr_bytesBits]
  · obtain ⟨rest, ha⟩ := alignedBitsAhead_of_reads hm (vs := b0 :: b1 :: b2 :: b3 :: payload) fun k hk =>
      hr k (by simp only [List.length_cons] at hk; omega)
    rw [step_engine hh, engineStep_element (fetch_storedBlock hp hq), ha, decodeStored_bytes _ _ _ _ hl]
  · obtain ⟨rest, ha⟩ := alignedBitsAhead_of_reads hm (vs := [b0, b1, b2, b3]) hr
    rw [step_engine hh, engineStep_element (fetch_zlibTrl hp), ha, takeLe32_bytes]
  · have hd := decodeRow_bytesBits ft x []
    rw [List.append_nil, hx, ← rowBits_of_reads hm hx hr] at hd
    rw [step_engine hh, engineStep_element ((fetch_defilter hp).trans (fetchRow_element hd))]

end Sys2Proof.Machine
end

section
/-! What the parts of a match do where its bits are there (R183, R187, R188), and the match as a whole (R91). -/

namespace Sys2Proof.Machine

/-- The reads depend on the reader and on `ZBUF` alone (R100). -/
theorem BitsRead.reframe {n : Nat} {s t s' : State} (h : BitsRead n s t) (hb : s'.br = s.br) (hz : s'.zbuf = s.zbuf) :
    BitsRead n s' { s' with br := t.br } := by
  have htz : t.zbuf = s'.zbuf := by rw [h.only, hz]
  refine ⟨rfl, ?_, ?_, ?_⟩
  · have ha := h.ahead
    simp only [bitsAhead, htz, ← hb, ← hz] at ha ⊢
    exact ha
  · have hp := h.bitpos
    simp only [Machine.bitpos, ← hb] at hp ⊢
    exact hp
  · have hr := h.reader
    simp only [ReaderOk, htz] at hr ⊢
    exact hr

/-- A field whose bits are there moves the reader alone (R101). -/
theorem readBits_ok_reader {s : State} (h : StreamOk s) {n : Nat} (hn : n ≤ (bitsAhead s).length) :
    ∃ v r, readBits n s = .ok v { s with br := r } ∧ BitsRead n s { s with br := r } := by
  obtain ⟨t, ht, hr⟩ := readBits_bitsRead h hn
  rw [hr.only] at ht hr
  exact ⟨_, _, ht, hr⟩

/-- A Huffman decode that finds a symbol consumes its code (R128). -/
theorem huffDecode_found {tree : Tree} {s : State} (h : StreamOk s) {sym used : Nat}
    (hw : walk tree s.cfg.missingBranch (bitsAhead s) = .found sym used) (hn : used ≤ (bitsAhead s).length) :
    ∃ r, huffDecode tree s = .ok sym { s with br := r } ∧ BitsRead used s { s with br := r } := by
  obtain ⟨v, r, hr, hread⟩ := readBits_ok_reader h hn
  exact ⟨r, by simp only [huffDecode, hw, hr, Run.andThen_ok], hread⟩

/-- A length symbol whose extra bits are there latches the length (R183). -/
theorem runLen_ok {s : State} (h : StreamOk s) {sym : Nat} (extra : Nat)
    (hn : lenExtra.getD (sym - 257) 0 ≤ (bitsAhead s).length) :
    ∃ r, runLen sym extra s =
        .ok () { s with br := r, matchLen := lenBase.getD (sym - 257) 0 + extra, infPos := .distance } ∧
      BitsRead (lenExtra.getD (sym - 257) 0) s { s with br := r } := by
  obtain ⟨v, r, hr, hread⟩ := readBits_ok_reader h hn
  exact ⟨r, by simp only [runLen, hr, Run.andThen_ok], hread⟩

/-- A distance symbol whose extra bits are there, with a distance within `OUT` and room for the match, copies it
(R183, R187, R188). -/
theorem runDist_ok {s : State} (h : StreamOk s) {sym extra : Nat} (hn : distExtra.getD sym 0 ≤ (bitsAhead s).length)
    (hfar : distBase.getD sym 0 + extra ≤ Memory.len s.out) (hroom : roomFor s s.matchLen) {m : Memory}
    (hm : copyBytes (distBase.getD sym 0 + extra) s.matchLen s.out = some m) :
    ∃ r, runDist sym extra s = .ok () { s with br := r, out := m, infPos := .symbols } ∧
      BitsRead (distExtra.getD sym 0) s { s with br := r } := by
  obtain ⟨v, r, hr, hread⟩ := readBits_ok_reader h hn
  have hroom' : hasRoom { s with br := r } s.matchLen = true := (hasRoom_iff _ _).2 hroom
  refine ⟨r, ?_, hread⟩
  simp only [runDist, hr, Run.andThen_ok, if_neg (not_lt.2 hfar), copyMatch, if_pos hroom', hm]

/-- Settles O48: `PAD` is the discarding of R102, and a `MATCH` is its length, the code of its distance symbol, and its
distance, each read after the other. -/
theorem pseudoMeanings : Obligations.PseudoMeanings := by
  refine ⟨fun s => rfl, ?_⟩
  intro length distance used s hs hout h3 h258 h1 hfar h32k hroom hwalk hbits
  obtain ⟨-, -, -, hlen⟩ := lenSymbol_spec h3 h258
  obtain ⟨-, -, hdist⟩ := distSymbol_spec h1 h32k
  obtain ⟨m, hm⟩ := copyBytes_isSome (d := distance) h1 length hout hfar
  obtain ⟨r₁, hrun₁, hread₁⟩ := runLen_ok (sym := (lenSymbol length).1) hs (lenSymbol length).2 (by omega)
  have hleft₁ := congrArg List.length hread₁.ahead
  rw [hlen] at hrun₁
  rw [List.length_drop] at hleft₁
  rw [← hread₁.ahead] at hwalk
  obtain ⟨r₂, hrun₂, hread₂⟩ := huffDecode_found (tree := s.distTree)
    (s := { s with br := r₁, matchLen := length, infPos := .distance }) (hread₁.stream hs) hwalk
    (le_of_le_of_eq (by omega) hleft₁.symm)
  have hread₁₂ := hread₁.trans (hread₂.reframe (s' := { s with br := r₁ }) rfl rfl)
  have hleft₂ := congrArg List.length hread₁₂.ahead
  rw [List.length_drop] at hleft₂
  obtain ⟨r₃, hrun₃, hread₃⟩ := runDist_ok (sym := (distSymbol distance).1) (extra := (distSymbol distance).2) (m := m)
    (s := { s with br := r₂, matchLen := length, infPos := .distance }) (hread₁₂.stream hs)
    (le_of_le_of_eq (by omega) hleft₂.symm) (le_of_eq_of_le hdist hfar) hroom (by rw [hdist]; exact hm)
  refine ⟨{ s with br := r₃ }, m, hread₁₂.trans (hread₃.reframe (s' := { s with br := r₂ }) rfl rfl), hm, ?_⟩
  simp only [exec, execMatchPair, hrun₁, hrun₂, hrun₃, Run.andThen_ok, Run.outcome_ok]

end Sys2Proof.Machine
end

section
/-! The arena of a Huffman tree as the list of its nodes' paths from the root (R124, R125), and the walk through it (R128). -/

namespace Sys2Proof.Machine

/-- The arena `nodes` has one node for each path of `ps`, in order: the root first, and the children of a node are the nodes
of its path with one bit more. -/
structure Arena (nodes : List Node) (ps : List (List Bool)) : Prop where
  size : nodes.length = ps.length
  root : ps[0]? = some []
  nodup : ps.Nodup
  closed : ∀ q b, q ++ [b] ∈ ps → q ∈ ps
  link : ∀ k p b j, ps[k]? = some p →
    (ps[j]? = some (p ++ [b]) ↔ j ≠ 0 ∧ childOf (nodes.getD k emptyNode) b = j)

theorem Arena.rootTree : Arena rootTree.nodes [[]] where
  size := rfl
  root := rfl
  nodup := List.nodup_singleton _
  closed := by simp
  link k p b j hk := by
    obtain ⟨rfl, rfl⟩ : k = 0 ∧ p = [] := by cases k <;> simp_all
    cases j <;> cases b <;> simp [Machine.rootTree, emptyNode, childOf]

section arena
variable {nodes : List Node} {ps : List (List Bool)}

theorem Arena.prefix_mem (h : Arena nodes ps) {p q : List Bool} (hp : p ∈ ps) (hq : q <+: p) : q ∈ ps := by
  obtain ⟨r, rfl⟩ := hq
  induction r using List.reverseRecOn with
  | nil => simpa using hp
  | append_singleton r b ih => exact ih (h.closed _ b (by rwa [List.append_assoc]))

theorem Arena.index_unique (h : Arena nodes ps) {p : List Bool} {j k : Nat} (hj : ps[j]? = some p) (hk : ps[k]? = some p) :
    j = k :=
  (List.getElem?_inj (List.getElem?_eq_some_iff.1 hj).1 h.nodup).1 (hj.trans hk.symm)

/-- A present child is the node of the longer path (R125). -/
theorem Arena.child_of_mem (h : Arena nodes ps) {k : Nat} {p : List Bool} {b : Bool} (hk : ps[k]? = some p)
    (hb : p ++ [b] ∈ ps) :
    childOf (nodes.getD k emptyNode) b ≠ 0 ∧ ps[childOf (nodes.getD k emptyNode) b]? = some (p ++ [b]) := by
  obtain ⟨j, hj⟩ := List.mem_iff_getElem?.1 hb
  obtain ⟨hj0, hc⟩ := (h.link k p b j hk).1 hj
  rw [hc]
  exact ⟨hj0, hj⟩

/-- An absent child: the longer path has no node. -/
theorem Arena.child_eq_zero (h : Arena nodes ps) {k : Nat} {p : List Bool} {b : Bool} (hk : ps[k]? = some p) :
    childOf (nodes.getD k emptyNode) b = 0 ↔ p ++ [b] ∉ ps := by
  refine ⟨fun h0 hb => (h.child_of_mem hk hb).1 h0, fun hb => ?_⟩
  by_contra h0
  exact hb (List.mem_of_getElem? ((h.link k p b _ hk).2 ⟨h0, rfl⟩))

theorem Arena.getElem?_node (h : Arena nodes ps) {k : Nat} {p : List Bool} (hk : ps[k]? = some p) :
    nodes[k]? = some (nodes.getD k emptyNode) := by
  have hlt : k < nodes.length := h.size ▸ (List.getElem?_eq_some_iff.1 hk).1
  rw [List.getElem?_eq_getElem hlt, List.getD_eq_getElem _ _ hlt]

theorem getD_set {α : Type} (l : List α) {j : Nat} (hj : j < l.length) (i : Nat) (a d : α) :
    (l.set i a).getD j d = if i = j then a else l.getD j d := by
  rw [List.getD_eq_getElem?_getD, List.getElem?_set, List.getD_eq_getElem?_getD]
  split_ifs with hij hlt
  · rfl
  · exact absurd (hij ▸ hj) hlt
  · rfl

theorem childOf_linkChild (n : Node) (b b' : Bool) (k : Nat) :
    childOf (linkChild n b k) b' = if b' = b then k else childOf n b' := by
  cases b <;> cases b' <;> rfl

/-- The arena with a new child, as the walk of R124 makes it. -/
def grow (nodes : List Node) (k : Nat) (b : Bool) : List Node :=
  (nodes ++ [emptyNode]).set k (linkChild (nodes.getD k emptyNode) b nodes.length)

theorem getD_grow {k : Nat} (hk : k < nodes.length) (b : Bool) (j : Nat) :
    (grow nodes k b).getD j emptyNode =
      if j = k then linkChild (nodes.getD k emptyNode) b nodes.length else nodes.getD j emptyNode := by
  simp only [grow, List.getD_eq_getElem?_getD, List.getElem?_set, List.length_append, List.length_singleton]
  by_cases hj : j = k
  · simp [hj, Nat.lt_succ_of_lt hk]
  · rw [if_neg (Ne.symm hj), if_neg hj, List.getElem?_append]
    split
    · rfl
    · rw [List.getElem?_eq_none (l := nodes) (by omega)]
      cases j - nodes.length <;> simp

theorem childOf_grow {k : Nat} (hk : k < nodes.length) (b : Bool) (j : Nat) (b' : Bool) :
    childOf ((grow nodes k b).getD j emptyNode) b' =
      if j = k ∧ b' = b then nodes.length else childOf (nodes.getD j emptyNode) b' := by
  rw [getD_grow hk]
  by_cases hj : j = k
  · simp only [hj, if_true, true_and, childOf_linkChild]
  · simp only [hj, if_false, false_and]

theorem symbol_grow {k : Nat} (hk : k < nodes.length) (b : Bool) (j : Nat) :
    ((grow nodes k b).getD j emptyNode).symbol = (nodes.getD j emptyNode).symbol := by
  rw [getD_grow hk]
  split_ifs with hj
  · rw [hj]; cases b <;> rfl
  · rfl

theorem getElem?_concat_iff {α : Type} (l : List α) (x y : α) (j : Nat) :
    (l ++ [x])[j]? = some y ↔ l[j]? = some y ∨ (j = l.length ∧ x = y) := by
  rw [List.getElem?_append]
  split
  · simp; omega
  · rw [List.getElem?_eq_none (l := l) (by omega)]
    rcases h : j - l.length with _ | m
    · simp; omega
    · simp; omega

/-- A new child is a new path (R124). -/
theorem Arena.grow (h : Arena nodes ps) {k : Nat} {p : List Bool} {b : Bool} (hk : ps[k]? = some p) (hb : p ++ [b] ∉ ps) :
    Arena (grow nodes k b) (ps ++ [p ++ [b]]) := by
  have hkl : k < nodes.length := h.size ▸ (List.getElem?_eq_some_iff.1 hk).1
  refine ⟨by simp [Machine.grow, h.size], ?_, ?_, ?_, ?_⟩
  · exact (getElem?_concat_iff ..).2 (.inl h.root)
  · exact List.nodup_append.2 ⟨h.nodup, List.nodup_singleton _, fun a ha c hc => by
      rintro rfl; exact hb (List.mem_singleton.1 hc ▸ ha)⟩
  · intro q b' hq
    rw [List.mem_append, List.mem_singleton] at hq ⊢
    rcases hq with hq | hq
    · exact .inl (h.closed q b' hq)
    · obtain ⟨rfl, -⟩ := List.append_singleton_inj.1 hq
      exact .inl (List.mem_of_getElem? hk)
  · intro i q b' j hi
    rw [getElem?_concat_iff] at hi ⊢
    rw [childOf_grow hkl]
    rcases hi with hi | ⟨rfl, rfl⟩
    · by_cases hnew : i = k ∧ b' = b
      · obtain ⟨rfl, rfl⟩ := hnew
        obtain rfl : p = q := Option.some.inj (hk.symm.trans hi)
        have hold : ps[j]? ≠ some (p ++ [b']) := fun hj => hb (List.mem_of_getElem? hj)
        simp only [hold, ← h.size, if_true, false_or, and_true]
        omega
      · rw [if_neg hnew, ← h.link i q b' j hi, or_iff_left]
        rintro ⟨-, heq⟩
        obtain ⟨rfl, hbb⟩ := List.append_singleton_inj.1 heq
        exact hnew ⟨h.index_unique hi hk, hbb.symm⟩
    · have hnew : childOf (nodes.getD ps.length emptyNode) b' = 0 := by
        rw [← h.size, List.getD_eq_default _ _ (le_refl _)]; cases b' <;> rfl
      have hold : ps[j]? ≠ some (p ++ [b] ++ [b']) := fun hj => hb (h.closed _ b' (List.mem_of_getElem? hj))
      have hik : ps.length ≠ k := h.size ▸ hkl.ne'
      simp only [hnew, hold, hik, false_and, if_false, false_or, List.self_eq_append_right, List.cons_ne_nil, and_false,
        false_iff]
      omega

/-- What an insertion's walk leaves: an arena with the paths up to the code's, its terminal node, and the symbols that were
there (R124). -/
theorem insertPath_arena (bs : List Bool) {nodes : List Node} {ps : List (List Bool)} (h : Arena nodes ps) {k : Nat}
    {p : List Bool} (hk : ps[k]? = some p) :
    ∃ ps', Arena (insertPath bs k nodes).2 ps' ∧ ps'[(insertPath bs k nodes).1]? = some (p ++ bs) ∧
      (∀ q, q ∈ ps' ↔ q ∈ ps ∨ q <+: p ++ bs) ∧
      ∀ j q, ps[j]? = some q → ps'[j]? = some q ∧
        ((insertPath bs k nodes).2.getD j emptyNode).symbol = (nodes.getD j emptyNode).symbol := by
  induction bs generalizing nodes ps k p with
  | nil =>
    refine ⟨ps, h, by rwa [List.append_nil], fun q => ?_, fun _ _ hj => ⟨hj, rfl⟩⟩
    rw [List.append_nil, or_iff_left_of_imp (h.prefix_mem (List.mem_of_getElem? hk))]
  | cons b bs ih =>
    by_cases hc : childOf (nodes.getD k emptyNode) b = 0
    · have hb := (h.child_eq_zero hk).1 hc
      have hkl : k < nodes.length := h.size ▸ (List.getElem?_eq_some_iff.1 hk).1
      obtain ⟨ps', ha, hend, hmem, hsym⟩ :=
        ih (h.grow hk hb) ((getElem?_concat_iff ..).2 (.inr ⟨h.size, rfl⟩) : _ = some (p ++ [b]))
      have hins : insertPath (b :: bs) k nodes = insertPath bs nodes.length (Machine.grow nodes k b) := if_pos hc
      rw [hins]
      refine ⟨ps', ha, by rw [hend, List.append_assoc]; rfl, fun q => ?_, fun j q hj => ?_⟩
      · have hp : p ++ [b] <+: p ++ b :: bs := ⟨bs, by simp⟩
        rw [hmem, List.mem_append, List.mem_singleton, List.append_assoc, or_assoc]
        exact or_congr_right ⟨fun hq => hq.elim (fun h => h ▸ hp) id, .inr⟩
      · obtain ⟨hj', hs⟩ := hsym j q ((getElem?_concat_iff ..).2 (.inl hj))
        exact ⟨hj', hs.trans (symbol_grow hkl b j)⟩
    · obtain ⟨-, hchild⟩ := h.child_of_mem hk (not_not.1 fun hb => hc ((h.child_eq_zero hk).2 hb))
      have hins : insertPath (b :: bs) k nodes = insertPath bs (childOf (nodes.getD k emptyNode) b) nodes := if_neg hc
      obtain ⟨ps', ha, hend, hmem, hsym⟩ := ih h hchild
      rw [hins]
      exact ⟨ps', ha, by rw [hend, List.append_assoc]; rfl, fun q => by rw [hmem, List.append_assoc]; rfl, hsym⟩

/-- The walk down the nodes of a path (R128). -/
theorem walkFrom_arena {t : Tree} (h : Arena t.nodes ps) (mb : MissingBranch) (bs rest : List Bool) {k : Nat}
    {p : List Bool} (hk : ps[k]? = some p) (hp : p ++ bs ∈ ps) (used : Nat) :
    ∃ j, ps[j]? = some (p ++ bs) ∧ walkFrom t mb k used (bs ++ rest) = walkFrom t mb j (used + bs.length) rest := by
  induction bs generalizing k p used with
  | nil => exact ⟨k, by rwa [List.append_nil], rfl⟩
  | cons b bs ih =>
    have hpb : (p ++ [b]) ++ bs ∈ ps := by rwa [List.append_assoc]
    obtain ⟨hc, hchild⟩ := h.child_of_mem hk (h.prefix_mem hpb (List.prefix_append _ _))
    obtain ⟨j, hj, hw⟩ := ih hchild hpb (used + 1)
    have hleaf : isLeaf (t.nodes.getD k emptyNode) = false := by
      cases b <;> simp_all [isLeaf, childOf]
    refine ⟨j, by rw [hj, List.append_assoc]; rfl, ?_⟩
    simp only [List.cons_append, walkFrom, h.getElem?_node hk, hleaf, Bool.false_eq_true, if_false, hc, hw,
      List.length_cons, Nat.add_assoc, Nat.add_comm 1]

/-- The walk ends at a node with no longer path (R125, R128). -/
theorem walkFrom_leaf {t : Tree} (h : Arena t.nodes ps) (mb : MissingBranch) (bits : List Bool) {k : Nat} {p : List Bool}
    (hk : ps[k]? = some p) (hleaf : ∀ b, p ++ [b] ∉ ps) (used : Nat) :
    walkFrom t mb k used bits = .found (t.nodes.getD k emptyNode).symbol.toNat used := by
  have hl : (t.nodes.getD k emptyNode).left = 0 := (h.child_eq_zero (b := false) hk).2 (hleaf false)
  have hr : (t.nodes.getD k emptyNode).right = 0 := (h.child_eq_zero (b := true) hk).2 (hleaf true)
  have hn : isLeaf (t.nodes.getD k emptyNode) = true := by rw [isLeaf, hl, hr]; rfl
  cases bits <;> simp only [walkFrom, h.getElem?_node hk, hn, if_true]

end arena

end Sys2Proof.Machine
end

section
/-! Building a tree from codes of which none begins another: every code leads the walk to its symbol (R124, R126, R128). -/

namespace Sys2Proof.Machine

/-- The arena with a node's symbol stored (R124). -/
def setSymbol (nodes : List Node) (k : Nat) (x : Half) : List Node :=
  nodes.set k { nodes.getD k emptyNode with symbol := x }

theorem getD_setSymbol {nodes : List Node} {j : Nat} (hj : j < nodes.length) (k : Nat) (x : Half) :
    (setSymbol nodes k x).getD j emptyNode =
      if k = j then { nodes.getD j emptyNode with symbol := x } else nodes.getD j emptyNode := by
  rw [setSymbol, getD_set nodes hj]
  split_ifs with hk
  · rw [hk]
  · rfl

/-- The insertion of one symbol under its code's bits (R124). -/
def insertBits (t : Tree) (e : Nat × List Bool) : Tree :=
  let r := insertPath e.2 0 t.nodes
  { nodes := setSymbol r.2 r.1 (BitVec.ofNat 16 e.1), ncodes := t.ncodes + 1 }

/-- The symbols that have a code, in increasing order from symbol `sym` on, each with its code's bits (R123, R124). -/
def codeEntries (sym : Nat) : List Nat → List (Option Nat) → List (Nat × List Bool)
  | L :: ls, some c :: cs => (sym, codeBits L c) :: codeEntries (sym + 1) ls cs
  | _ :: ls, none :: cs => codeEntries (sym + 1) ls cs
  | _, _ => []

theorem insertAll_eq_foldl (t : Tree) (sym : Nat) (lens : List Nat) (codes : List (Option Nat)) :
    insertAll t sym lens codes = (codeEntries sym lens codes).foldl insertBits t := by
  induction lens generalizing t sym codes with
  | nil => cases codes <;> rfl
  | cons L ls ih =>
    rcases codes with _ | ⟨_ | c, cs⟩
    · rfl
    · exact ih t (sym + 1) cs
    · exact ih (insertCode t sym L c) (sym + 1) cs

theorem mem_codeEntries {sym : Nat} {lens : List Nat} {codes : List (Option Nat)} {e : Nat × List Bool} :
    e ∈ codeEntries sym lens codes ↔
      ∃ k L c, lens[k]? = some L ∧ codes[k]? = some (some c) ∧ e = (sym + k, codeBits L c) := by
  induction lens generalizing sym codes with
  | nil => cases codes <;> simp [codeEntries]
  | cons l ls ih =>
    rcases codes with _ | ⟨_ | c, cs⟩
    · simp [codeEntries]
    · rw [codeEntries, ih]
      constructor
      · rintro ⟨k, L, c, hl, hc, rfl⟩; exact ⟨k + 1, L, c, hl, hc, by rw [Nat.add_assoc, Nat.add_comm 1]⟩
      · rintro ⟨_ | k, L, c, hl, hc, rfl⟩
        · cases hc
        · exact ⟨k, L, c, hl, hc, by rw [Nat.add_assoc, Nat.add_comm 1]⟩
    · rw [codeEntries, List.mem_cons, ih]
      constructor
      · rintro (rfl | ⟨k, L, c, hl, hc, rfl⟩)
        · exact ⟨0, l, c, rfl, rfl, rfl⟩
        · exact ⟨k + 1, L, c, hl, hc, by rw [Nat.add_assoc, Nat.add_comm 1]⟩
      · rintro ⟨_ | k, L, c, hl, hc, rfl⟩
        · cases hl; cases hc; exact .inl rfl
        · exact .inr ⟨k, L, c, hl, hc, by rw [Nat.add_assoc, Nat.add_comm 1]⟩

/-- The tree holds exactly the codes of the entries `es`: the arena's nodes are their prefixes, and each code's node has its
symbol. -/
structure Holds (t : Tree) (es : List (Nat × List Bool)) (ps : List (List Bool)) : Prop where
  arena : Arena t.nodes ps
  paths : ∀ q, q ∈ ps ↔ q = [] ∨ ∃ e ∈ es, q <+: e.2
  symbols : ∀ e ∈ es, ∀ k, ps[k]? = some e.2 → (t.nodes.getD k emptyNode).symbol = BitVec.ofNat 16 e.1
  count : t.ncodes = es.length

theorem holds_rootTree : Holds rootTree [] [[]] :=
  ⟨.rootTree, by simp, by simp, rfl⟩

/-- Storing a symbol leaves the links. -/
theorem Arena.setSymbol {nodes : List Node} {ps : List (List Bool)} (h : Arena nodes ps) (k : Nat) (x : Half) :
    Arena (setSymbol nodes k x) ps := by
  refine ⟨(List.length_set ..).trans h.size, h.root, h.nodup, h.closed, fun i p b j hi => ?_⟩
  rw [h.link i p b j hi, getD_setSymbol (h.size ▸ (List.getElem?_eq_some_iff.1 hi).1)]
  split_ifs <;> rfl

/-- Inserting a code that no other symbol has (R124). -/
theorem Holds.insert {t : Tree} {es : List (Nat × List Bool)} {ps : List (List Bool)} (h : Holds t es ps)
    {e : Nat × List Bool} (hnew : ∀ d ∈ es, d.2 = e.2 → d = e) : ∃ ps', Holds (insertBits t e) (es ++ [e]) ps' := by
  obtain ⟨ps', ha, hend, hmem, hsym⟩ := insertPath_arena e.2 h.arena h.arena.root
  rw [List.nil_append] at hend
  refine ⟨ps', ha.setSymbol _ _, fun q => ?_, fun d hd k hk => ?_, by rw [insertBits, h.count, List.length_append]; rfl⟩
  · rw [hmem, h.paths, List.nil_append]
    simp only [List.mem_append, List.mem_singleton, or_and_right, exists_or, exists_eq_left, or_assoc]
  · have hlt : k < (insertPath e.2 0 t.nodes).2.length := ha.size ▸ (List.getElem?_eq_some_iff.1 hk).1
    rw [insertBits, getD_setSymbol hlt]
    have hend_iff : (insertPath e.2 0 t.nodes).1 = k ↔ d.2 = e.2 :=
      ⟨fun hj => Option.some.inj (hk.symm.trans (hj ▸ hend)), fun hde => ha.index_unique hend (hde ▸ hk)⟩
    rcases List.mem_append.1 hd with hd | hd
    · obtain ⟨j, hj⟩ := List.mem_iff_getElem?.1 ((h.paths d.2).2 (.inr ⟨d, hd, List.prefix_rfl⟩))
      obtain ⟨hj', hs⟩ := hsym j d.2 hj
      obtain rfl := ha.index_unique hj' hk
      split_ifs with hjk
      · rw [hnew d hd (hend_iff.1 hjk)]
      · rw [hs, h.symbols d hd j hj]
    · obtain rfl := List.mem_singleton.1 hd
      rw [if_pos (hend_iff.2 rfl)]

/-- No code begins another (R126). -/
def PrefixFree (es : List (Nat × List Bool)) : Prop := ∀ d ∈ es, ∀ e ∈ es, d.2 <+: e.2 → d = e

theorem Holds.foldl {t : Tree} {es : List (Nat × List Bool)} {ps : List (List Bool)} (h : Holds t es ps)
    (ds : List (Nat × List Bool)) (hfree : PrefixFree (es ++ ds)) :
    ∃ ps', Holds (ds.foldl insertBits t) (es ++ ds) ps' := by
  induction ds generalizing t es ps with
  | nil => exact ⟨ps, by rwa [List.append_nil]⟩
  | cons d ds ih =>
    have hnew : ∀ e ∈ es, e.2 = d.2 → e = d := fun e he heq =>
      hfree e (List.mem_append_left _ he) d (List.mem_append_right _ List.mem_cons_self) (heq ▸ List.prefix_rfl)
    obtain ⟨ps₁, h₁⟩ := h.insert hnew
    rw [List.append_cons] at hfree ⊢
    exact ih h₁ hfree

/-- The code of an entry leads the walk to its symbol (R128). -/
theorem Holds.walk {t : Tree} {es : List (Nat × List Bool)} {ps : List (List Bool)} (h : Holds t es ps)
    (hfree : PrefixFree es) {e : Nat × List Bool} (he : e ∈ es) (mb : MissingBranch) (rest : List Bool) :
    walk t mb (e.2 ++ rest) = .found (e.1 % 2 ^ 16) e.2.length := by
  have hmem : e.2 ∈ ps := (h.paths e.2).2 (.inr ⟨e, he, List.prefix_rfl⟩)
  obtain ⟨j, hj, hw⟩ := walkFrom_arena h.arena mb e.2 rest h.arena.root hmem 0
  have hleaf : ∀ b, e.2 ++ [b] ∉ ps := fun b hb => by
    rcases (h.paths _).1 hb with h0 | ⟨d, hd, hpre⟩
    · simp at h0
    · obtain rfl := hfree e he d hd ((List.prefix_append _ _).trans hpre)
      simpa using hpre.length_le
  have hn : t.ncodes ≠ 0 := h.count ▸ (List.length_pos_of_mem he).ne'
  rw [Machine.walk, if_neg hn, hw, walkFrom_leaf h.arena mb rest hj hleaf, h.symbols e he j hj, BitVec.toNat_ofNat,
    Nat.zero_add]

/-- A tree built from codes of which none begins another decodes each of them (R120 to R128). -/
theorem walk_build_of_prefixFree {lens : List Nat}
    (hfree : PrefixFree (codeEntries 0 lens (assignCodes (nextCodes lens) lens))) {e : Nat × List Bool}
    (he : e ∈ codeEntries 0 lens (assignCodes (nextCodes lens) lens)) (mb : MissingBranch) (rest : List Bool) :
    walk (build lens) mb (e.2 ++ rest) = .found (e.1 % 2 ^ 16) e.2.length := by
  obtain ⟨ps, h⟩ := holds_rootTree.foldl _ hfree
  rw [build, insertAll_eq_foldl]
  exact h.walk hfree he mb rest

end Sys2Proof.Machine
end

section
/-! The canonical codes of R121 to R123: where the lengths do not over-fill the code space, none begins another (R126). -/

namespace Sys2Proof.Machine

/-! ### The assignment -/

/-- A symbol's code is its length's counter, moved on by the symbols of that length before it (R123). -/
theorem assignCodes_getElem? {lens : List Nat} {next : List Nat} {sym L : Nat} (hs : lens[sym]? = some L)
    (hL : L < next.length) :
    (assignCodes next lens)[sym]? = some (if L = 0 then none else some (next.getD L 0 + (lens.take sym).count L)) := by
  induction lens generalizing next sym with
  | nil => cases hs
  | cons l ls ih =>
    cases sym with
    | zero =>
      obtain rfl : l = L := Option.some.inj hs
      rw [assignCodes]
      split_ifs <;> rfl
    | succ sym =>
      have hs' : ls[sym]? = some L := hs
      rw [assignCodes]
      by_cases hl : l = 0
      · rw [if_pos hl, List.getElem?_cons_succ, ih hs' hL, List.take_succ_cons, List.count_cons]
        by_cases hL0 : L = 0
        · rw [if_pos hL0, if_pos hL0]
        · rw [if_neg hL0, if_neg hL0, if_neg (by simp [hl, Ne.symm hL0]), Nat.add_zero]
      · rw [if_neg hl, List.getElem?_cons_succ, ih hs' (by rwa [List.length_set]), getD_set next hL,
          List.take_succ_cons, List.count_cons]
        by_cases hlL : l = L
        · simp only [hlL, if_true, BEq.rfl, Nat.add_assoc, Nat.add_comm 1]
        · simp only [hlL, if_false, beq_iff_eq, Nat.add_zero]

/-- The code of a symbol (R122, R123). -/
theorem canonicalCode {lens : List Nat} {sym L : Nat} (hs : lens[sym]? = some L) (hL : L ≤ maxBits) :
    (assignCodes (nextCodes lens) lens)[sym]? =
      some (if L = 0 then none else some (firstCode lens L + (lens.take sym).count L)) := by
  have hlt : L < (nextCodes lens).length := by simpa [nextCodes] using Nat.lt_succ_of_le hL
  have hnext : (nextCodes lens).getD L 0 = firstCode lens L := by
    simp [nextCodes, List.getD_eq_getElem?_getD, Nat.lt_succ_of_le hL]
  rw [assignCodes_getElem? hs hlt, hnext]

theorem canonicalCode_eq {lens : List Nat} {sym L c : Nat} (hs : lens[sym]? = some L) (hL : L ≤ maxBits)
    (hc : (assignCodes (nextCodes lens) lens)[sym]? = some (some c)) :
    0 < L ∧ c = firstCode lens L + (lens.take sym).count L := by
  rw [canonicalCode hs hL] at hc
  split_ifs at hc with h0
  · cases hc
  · cases hc; exact ⟨Nat.pos_of_ne_zero h0, rfl⟩

/-! ### The code space -/

theorem firstCode_succ (lens : List Nat) {L : Nat} (hL : 0 < L) :
    firstCode lens (L + 1) = 2 * (firstCode lens L + lens.count L) := by
  obtain ⟨L, rfl⟩ := Nat.exists_eq_succ_of_ne_zero hL.ne'
  rw [firstCode, lengthCount, if_neg (Nat.succ_ne_zero L), Nat.shiftLeft_eq, pow_one, Nat.mul_comm]

/-- The codes of a length begin above those of every shorter length, filled up (R122). -/
theorem firstCode_above (lens : List Nat) {L : Nat} (hL : 0 < L) (d : Nat) :
    (firstCode lens L + lens.count L) * 2 ^ (d + 1) ≤ firstCode lens (L + d + 1) := by
  induction d with
  | zero => rw [firstCode_succ lens hL]; omega
  | succ d ih =>
    rw [← Nat.add_assoc, firstCode_succ lens (show 0 < L + d + 1 by omega), pow_succ, ← Nat.mul_assoc]
    omega

theorem codeSpace_filter_succ (lens : List Nat) (L : Nat) :
    codeSpace (lens.filter (· ≤ L + 1)) =
      codeSpace (lens.filter (· ≤ L)) + lens.count (L + 1) * 2 ^ (maxBits - (L + 1)) := by
  induction lens with
  | nil => simp [codeSpace]
  | cons l ls ih =>
    simp only [codeSpace] at ih ⊢
    rcases lt_trichotomy l (L + 1) with h | h | h
    · simp [h.le, Nat.le_of_lt_succ h, h.ne, ih, Nat.add_assoc]
    · subst h
      simp [ih]
      ring
    · simp [h.not_ge, (Nat.lt_of_succ_lt h).not_ge, h.ne', ih]

/-- The first code of a length is the code space the shorter lengths take (R122, R126). -/
theorem firstCode_codeSpace (lens : List Nat) {L : Nat} (hL : L < maxBits) :
    firstCode lens (L + 1) * 2 ^ (maxBits - (L + 1)) = codeSpace (lens.filter (· ≤ L)) := by
  induction L with
  | zero =>
    rw [show firstCode lens 1 = 0 from rfl, Nat.zero_mul]
    refine (List.sum_eq_zero (List.forall_mem_map.2 fun l hl => if_pos ?_)).symm
    exact Nat.le_zero.1 (of_decide_eq_true (List.mem_filter.1 hl).2)
  | succ L ih =>
    rw [firstCode_succ lens (Nat.succ_pos L), codeSpace_filter_succ, ← ih (Nat.lt_of_succ_lt hL),
      show maxBits - (L + 1) = maxBits - (L + 1 + 1) + 1 by omega, pow_succ]
    ring

theorem codeSpace_filter_le (lens : List Nat) (p : Nat → Bool) : codeSpace (lens.filter p) ≤ codeSpace lens :=
  (List.filter_sublist.map _).sum_le_sum fun _ _ => Nat.zero_le _

/-- Where the code space is not over-filled, the codes of a length fit its bits (R126). -/
theorem firstCode_fits {lens : List Nat} (hspace : codeSpace lens ≤ 2 ^ maxBits) {L : Nat} (hL : 0 < L)
    (hL' : L ≤ maxBits) : firstCode lens L + lens.count L ≤ 2 ^ L := by
  obtain ⟨L, rfl⟩ := Nat.exists_eq_succ_of_ne_zero hL.ne'
  have h := codeSpace_filter_succ lens L
  rw [← firstCode_codeSpace lens hL', ← Nat.add_mul] at h
  have hle := h ▸ (codeSpace_filter_le lens (· ≤ L + 1)).trans hspace
  rw [show 2 ^ maxBits = 2 ^ (L + 1) * 2 ^ (maxBits - (L + 1)) by rw [← pow_add, Nat.add_sub_cancel' hL']] at hle
  exact Nat.le_of_mul_le_mul_right hle (Nat.two_pow_pos _)

/-! ### Codes as bits -/

theorem length_codeBits (L c : Nat) : (codeBits L c).length = L := by simp [codeBits]

theorem codeBits_inj {L c d : Nat} (hc : c < 2 ^ L) (hd : d < 2 ^ L) (h : codeBits L c = codeBits L d) : c = d := by
  refine Nat.eq_of_testBit_eq fun k => ?_
  by_cases hk : k < L
  · have hbit := congrArg (·[L - 1 - k]?) h
    simpa [codeBits, show L - 1 - k < L by omega, show L - 1 - (L - 1 - k) = k by omega] using hbit
  · have hpow : 2 ^ L ≤ 2 ^ k := Nat.pow_le_pow_right (by omega) (by omega)
    rw [Nat.testBit_lt_two_pow (hc.trans_le hpow), Nat.testBit_lt_two_pow (hd.trans_le hpow)]

/-- The first bits of a code are its high bits (R124). -/
theorem take_codeBits (L d c : Nat) : (codeBits (L + d) c).take L = codeBits L (c / 2 ^ d) := by
  refine List.ext_getElem (by simp [codeBits]) fun k hk _ => ?_
  have hkL : k < L := by simpa [codeBits] using hk
  simp [codeBits, Nat.testBit_div_two_pow, show L + d - 1 - k = L - 1 - k + d by omega]

/-- A code that begins another is its high bits. -/
theorem codeBits_prefix {L L' c c' : Nat} (hc : c < 2 ^ L) (hc' : c' < 2 ^ L') (h : codeBits L c <+: codeBits L' c') :
    ∃ d, L' = L + d ∧ c = c' / 2 ^ d := by
  have hle : L ≤ L' := by simpa [length_codeBits] using h.length_le
  obtain ⟨d, rfl⟩ := Nat.exists_eq_add_of_le hle
  have htake := List.prefix_iff_eq_take.1 h
  rw [length_codeBits, take_codeBits] at htake
  refine ⟨d, rfl, codeBits_inj hc ?_ htake⟩
  rw [pow_add, Nat.mul_comm] at hc'
  exact Nat.div_lt_of_lt_mul hc'

/-- The symbols of one length before a later symbol are more. -/
theorem count_take_lt {lens : List Nat} {L s s' : Nat} (hs : lens[s]? = some L) (hlt : s < s') :
    (lens.take s).count L < (lens.take s').count L := by
  have hle := (List.take_sublist_take_left (Nat.succ_le_of_lt hlt) : (lens.take (s + 1)).Sublist _).count_le L
  rw [List.take_add_one, hs, Option.toList_some, List.count_append, List.count_singleton_self] at hle
  exact hle

theorem count_lt_of_getElem? {lens : List Nat} {L s : Nat} (hs : lens[s]? = some L) :
    (lens.take s).count L < lens.count L := by
  have h := count_take_lt hs (List.getElem?_eq_some_iff.1 hs).1
  rwa [List.take_length] at h

/-- Where the code space is not over-filled, no canonical code begins another (R126). -/
theorem prefixFree_canonical {lens : List Nat} (hmax : ∀ l ∈ lens, l ≤ maxBits) (hspace : codeSpace lens ≤ 2 ^ maxBits) :
    PrefixFree (codeEntries 0 lens (assignCodes (nextCodes lens) lens)) := by
  intro d hd e he hpre
  obtain ⟨s, L, c, hs, hc, rfl⟩ := mem_codeEntries.1 hd
  obtain ⟨s', L', c', hs', hc', rfl⟩ := mem_codeEntries.1 he
  have hL := hmax L (List.mem_of_getElem? hs)
  have hL' := hmax L' (List.mem_of_getElem? hs')
  obtain ⟨hpos, hcode⟩ := canonicalCode_eq hs hL hc
  obtain ⟨hpos', hcode'⟩ := canonicalCode_eq hs' hL' hc'
  have hrank := count_lt_of_getElem? hs
  have hrank' := count_lt_of_getElem? hs'
  have hfit := firstCode_fits hspace hpos hL
  have hfit' := firstCode_fits hspace hpos' hL'
  obtain ⟨k, rfl, hk⟩ := codeBits_prefix (by omega) (by omega) hpre
  cases k with
  | zero =>
    rw [Nat.add_zero] at hs' hcode'
    rw [Nat.pow_zero, Nat.div_one] at hk
    rcases Nat.lt_trichotomy s s' with hlt | rfl | hlt
    · have := count_take_lt hs hlt; omega
    · rw [hk]; rfl
    · have := count_take_lt hs' hlt; omega
  | succ k =>
    have habove := firstCode_above lens hpos k
    have hnext : (c + 1) * 2 ^ (k + 1) ≤ c' := by
      calc (c + 1) * 2 ^ (k + 1) ≤ (firstCode lens L + lens.count L) * 2 ^ (k + 1) :=
            Nat.mul_le_mul_right _ (by omega)
        _ ≤ firstCode lens (L + k + 1) := habove
        _ ≤ c' := hcode' ▸ Nat.le_add_right _ _
    have := (Nat.le_div_iff_mul_le (Nat.two_pow_pos (k + 1))).2 hnext
    omega

/-- Where the code space is not over-filled, every symbol of nonzero length is decoded from its canonical code
(R120 to R128). -/
theorem walk_build_canonical {lens : List Nat} (hsize : lens.length ≤ 2 ^ 16) (hmax : ∀ l ∈ lens, l ≤ maxBits)
    (hspace : codeSpace lens ≤ 2 ^ maxBits) {sym L : Nat} (hs : lens[sym]? = some L) (hL : L ≠ 0) (mb : MissingBranch)
    (rest : List Bool) :
    walk (build lens) mb (codeBits L (firstCode lens L + (lens.take sym).count L) ++ rest) = .found sym L := by
  have hc := canonicalCode hs (hmax L (List.mem_of_getElem? hs))
  rw [if_neg hL] at hc
  have hmem := (mem_codeEntries (sym := 0)).2 ⟨sym, L, _, hs, hc, rfl⟩
  have hlt : 0 + sym < 2 ^ 16 := by rw [Nat.zero_add]; exact (List.getElem?_eq_some_iff.1 hs).1.trans_le hsize
  rw [walk_build_of_prefixFree (prefixFree_canonical hmax hspace) hmem, length_codeBits, Nat.mod_eq_of_lt hlt,
    Nat.zero_add]

end Sys2Proof.Machine
end

section
/-! The fixed trees (R86, R87, R131, R132) and words written out from the formats (R72 to R88). -/

namespace Sys2Proof.Machine

/-! ### The fixed literal/length tree -/

/-- Each range of R86: its code length, and how many symbols before one have that length (R131). -/
theorem fixedLitLens_ranges (sym : Nat) :
    (sym ≤ 143 → fixedLitLens[sym]? = some 8 ∧ (fixedLitLens.take sym).count 8 = sym) ∧
    (144 ≤ sym → sym ≤ 255 → fixedLitLens[sym]? = some 9 ∧ (fixedLitLens.take sym).count 9 = sym - 144) ∧
    (256 ≤ sym → sym ≤ 279 → fixedLitLens[sym]? = some 7 ∧ (fixedLitLens.take sym).count 7 = sym - 256) ∧
    (280 ≤ sym → sym ≤ 287 → fixedLitLens[sym]? = some 8 ∧ (fixedLitLens.take sym).count 8 = 144 + (sym - 280)) := by
  simp only [fixedLitLens, List.getElem?_append, List.getElem?_replicate, List.take_append, List.take_replicate,
    List.count_append, List.count_replicate, List.length_append, List.length_replicate]
  refine ⟨fun h => ?_, fun h h' => ?_, fun h h' => ?_, fun h h' => ?_⟩ <;> grind

theorem firstCode_fixedLit :
    firstCode fixedLitLens 7 = 0 ∧ firstCode fixedLitLens 8 = 0x30 ∧ firstCode fixedLitLens 9 = 0x190 := by
  decide +kernel

theorem fixedLitLens_fit :
    fixedLitLens.length ≤ 2 ^ 16 ∧ (∀ l ∈ fixedLitLens, l ≤ maxBits) ∧ codeSpace fixedLitLens ≤ 2 ^ maxBits := by
  decide +kernel

theorem fixedDistLens_fit :
    fixedDistLens.length ≤ 2 ^ 16 ∧ (∀ l ∈ fixedDistLens, l ≤ maxBits) ∧ codeSpace fixedDistLens ≤ 2 ^ maxBits := by
  decide +kernel

theorem walk_fixedLit {sym L c : Nat} (hs : fixedLitLens[sym]? = some L) (hL : L ≠ 0)
    (hc : firstCode fixedLitLens L + (fixedLitLens.take sym).count L = c) (mb : MissingBranch) (rest : List Bool) :
    walk fixedLit mb (codeBits L c ++ rest) = .found sym L := by
  obtain ⟨hsize, hmax, hspace⟩ := fixedLitLens_fit
  exact hc ▸ walk_build_canonical hsize hmax hspace hs hL mb rest

theorem walk_fixedDist {sym : Nat} (h : sym ≤ 29) (mb : MissingBranch) (rest : List Bool) :
    walk fixedDist mb (codeBits 5 sym ++ rest) = .found sym 5 := by
  obtain ⟨hsize, hmax, hspace⟩ := fixedDistLens_fit
  have hs : fixedDistLens[sym]? = some 5 := List.getElem?_replicate_of_lt (Nat.lt_succ_of_le h)
  have hc : firstCode fixedDistLens 5 + (fixedDistLens.take sym).count 5 = sym := by
    rw [show firstCode fixedDistLens 5 = 0 by decide +kernel, fixedDistLens, List.take_replicate,
      List.count_replicate_self, nsymFixedDist]
    omega
  have hw := walk_build_canonical hsize hmax hspace hs (by decide) mb rest
  rwa [hc] at hw

/-- A walk that has gone wrong does not look at what follows (R129). -/
theorem walkFrom_append_of_bad {t : Tree} {mb : MissingBranch} {bits : List Bool} {k used n : Nat} {c : Cause}
    (h : walkFrom t mb k used bits = .bad c n) (rest : List Bool) : walkFrom t mb k used (bits ++ rest) = .bad c n := by
  induction bits generalizing k used with
  | nil =>
    simp only [walkFrom] at h
    split at h
    · cases h
    · split_ifs at h
  | cons b bs ih =>
    simp only [walkFrom, List.cons_append] at h ⊢
    split at h
    · cases h
    · split_ifs at h ⊢
      · cases mb with
        | fault => exact h
        | restartRoot => exact ih h
      · exact ih h

/-- The absent patterns of the fixed distance tree, `11110` and `11111`: their fourth 1 (R87). -/
theorem walk_fixedDist_absent (rest : List Bool) :
    walk fixedDist .fault (true :: true :: true :: true :: rest) = .bad .missingBranch 4 := by
  have hn : fixedDist.ncodes ≠ 0 := by decide +kernel
  have hw : walkFrom fixedDist .fault 0 0 [true, true, true, true] = .bad .missingBranch 4 := by decide +kernel
  rw [walk, if_neg hn]
  exact walkFrom_append_of_bad hw rest

/-- Settles O21: the fixed lengths fill no more than the code space, and their canonical codes are those of the rule. -/
theorem fixedCodes : Obligations.FixedCodes := by
  obtain ⟨h7, h8, h9⟩ := firstCode_fixedLit
  refine ⟨fun sym mb rest => ?_, walk_fixedDist_absent⟩
  obtain ⟨r8, r9, r7, r8'⟩ := fixedLitLens_ranges sym
  refine ⟨fun h => ?_, fun h h' => ?_, fun h h' => ?_, fun h h' => ?_, fun h => walk_fixedDist h mb rest⟩
  · obtain ⟨hs, hn⟩ := r8 h
    exact walk_fixedLit hs (by decide) (by rw [h8, hn]) mb rest
  · obtain ⟨hs, hn⟩ := r9 h h'
    exact walk_fixedLit hs (by decide) (by rw [h9, hn]) mb rest
  · obtain ⟨hs, hn⟩ := r7 h h'
    exact walk_fixedLit hs (by decide) (by rw [h7, hn, Nat.zero_add]) mb rest
  · obtain ⟨hs, hn⟩ := r8' h h'
    exact walk_fixedLit hs (by decide) (by rw [h8, hn, ← Nat.add_assoc]) mb rest

/-! ### Words written out -/

/-- Settles O26: each word is its format's fields. -/
theorem sampleWords : Obligations.SampleWords := by
  refine ⟨by decide, by decide, by decide, rfl, rfl, rfl, ?_, by decide⟩
  rw [show [false, false, true, false, false, true] = codeBits 5 4 ++ [true] from rfl, decode, decodeCoded,
    walk_fixedDist (by decide)]
  rfl

end Sys2Proof.Machine
end

section
/-! The BitReader's operations (R100 to R103) and the bit position (R106). -/

namespace Sys2Proof.Machine

/-! ### One bit -/

/-- No pending bit and no byte left (R100). -/
theorem readBit_end {s : State} (hc : s.br.cnt = 0) (h : Memory.len s.zbuf ≤ s.br.pos) :
    readBit s = .raised .outOfData s := by
  rw [readBit, if_pos hc, if_pos h]

/-- No pending bit: the next byte is loaded, its bit 0 is the bit read (R100). -/
theorem readBit_load {s : State} {b : Byte} (hc : s.br.cnt = 0) (h : s.br.pos < Memory.len s.zbuf)
    (hb : Memory.read s.zbuf s.br.pos = some b) :
    readBit s = .ok (b.getLsbD 0) { s with br := { pos := s.br.pos + 1, acc := b >>> 1, cnt := 7 } } := by
  rw [readBit, if_pos hc, if_neg (Nat.not_le.2 h), hb]

/-- A pending bit is read before any byte is loaded (R100). -/
theorem readBit_pending {s : State} (hc : 0 < s.br.cnt) :
    readBit s =
      .ok (s.br.acc.getLsbD 0) { s with br := { pos := s.br.pos, acc := s.br.acc >>> 1, cnt := s.br.cnt - 1 } } := by
  rw [readBit, if_neg hc.ne']

/-- Settles O11, the three cases and the load of `0xB5`. -/
theorem readBit_spec : Obligations.ReadBit := by
  refine ⟨fun s hc h => readBit_end hc h, fun s b hc h hb => readBit_load hc h hb, fun s hc => readBit_pending hc,
    fun s hz hr => ?_⟩
  rw [readBit_load (b := 0xB5) (by rw [hr]) (by rw [hz, hr]; decide) (by rw [hz, hr]; decide), hr]
  rfl

/-! ### A field of bits -/

/-- A field read from stream bits has stream bit `k` as its bit `k` (R71, R101). -/
theorem getElem?_eq_testBit_bitsVal_take {bits : List Bool} {n k : Nat} (hn : n ≤ bits.length) (hk : k < n) :
    bits[k]? = some ((bitsVal (bits.take n)).testBit k) := by
  rw [testBit_bitsVal, List.getD_eq_getElem?_getD, List.getElem?_take_of_lt hk,
    List.getElem?_eq_getElem (hk.trans_le hn), Option.getD_some]

/-- Settles O12: the value is that of the next `n` stream bits. -/
theorem readBits_spec : Obligations.ReadBits := by
  refine fun s n hs => ⟨fun hn => ?_, readBits_bitsShort hs⟩
  obtain ⟨t, hrun, hread⟩ := readBits_bitsRead hs hn
  have hlt := bitsVal_lt ((bitsAhead s).take n)
  rw [List.length_take_of_le hn] at hlt
  exact ⟨t, _, hrun, hread, hlt, fun k hk => getElem?_eq_testBit_bitsVal_take hn hk⟩

/-! ### Aligned bytes -/

theorem Memory.lt_len_of_read {m : Memory} (h : Memory.wf m = true) {a : Nat} {v : Byte}
    (hr : Memory.read m a = some v) : a < Memory.len m := by
  by_contra hge
  rw [Memory.read_len_le h (Nat.not_lt.1 hge)] at hr
  cases hr

/-- Below the length, `read_byte` takes the byte at the byte boundary (R102). -/
theorem readByte_load {s : State} {b : Byte} (h : s.br.pos < Memory.len s.zbuf)
    (hb : Memory.read s.zbuf s.br.pos = some b) : readByte s = .ok b (afterBytes 1 s) := by
  simp only [readByte, alignReader, if_neg (Nat.not_le.2 h), hb]
  rfl

/-- What `read_byte` can do, each end with its state (R102). -/
theorem readByte_cases (s : State) :
    readByte s = .raised .outOfData (alignReader s) ∨
    readByte s = .stop .absentByte ∨
    ∃ b, readByte s = .ok b (afterBytes 1 s) := by
  by_cases h : Memory.len s.zbuf ≤ s.br.pos
  · exact .inl (readByte_end h)
  · cases hb : Memory.read s.zbuf s.br.pos with
    | none => exact .inr (.inl (by simp only [readByte, alignReader, if_neg h, hb]))
    | some b => exact .inr (.inr ⟨b, readByte_load (Nat.not_le.1 h) hb⟩)

/-- The value of a list of bytes, least significant first (R71, R103). -/
theorem bitsVal_bytesBits_cons (b : Byte) (bs : List Byte) :
    bitsVal (bytesBits (b :: bs)) = b.toNat + 256 * bitsVal (bytesBits bs) := by
  rw [bytesBits, bitsVal_append, bitsVal_byteBits, length_byteBits]; rfl

theorem bitsVal_bytesBits_lt (bs : List Byte) : bitsVal (bytesBits bs) < 256 ^ bs.length := by
  have h := bitsVal_lt (bytesBits bs)
  rwa [length_bytesBits, pow_mul] at h

/-- Byte `k` of the value is byte `k` of the list (R103). -/
theorem getElem?_eq_digit_bitsVal_bytesBits {bs : List Byte} {k : Nat} (hk : k < bs.length) :
    bs[k]? = some (BitVec.ofNat 8 (bitsVal (bytesBits bs) / 256 ^ k)) := by
  induction bs generalizing k with
  | nil => cases hk
  | cons b bs ih =>
    rw [bitsVal_bytesBits_cons]
    have hb := b.isLt
    cases k with
    | zero =>
      refine congrArg some (BitVec.eq_of_toNat_eq ?_)
      rw [BitVec.toNat_ofNat]
      omega
    | succ k =>
      have hdiv : (b.toNat + 256 * bitsVal (bytesBits bs)) / 256 = bitsVal (bytesBits bs) := by omega
      rw [List.getElem?_cons_succ, ih (Nat.lt_of_succ_lt_succ hk), pow_succ', ← Nat.div_div_eq_div_mul, hdiv]

/-- From a byte boundary, the bytes held there are read as their value (R102, R103). -/
theorem readBytes_alignReader_of_reads {s : State} (hm : Memory.wf s.zbuf = true) {bs : List Byte}
    (h : ∀ k < bs.length, Memory.read s.zbuf (s.br.pos + k) = bs[k]?) :
    readBytes bs.length (alignReader s) = .ok (bitsVal (bytesBits bs)) (afterBytes bs.length s) := by
  induction bs generalizing s with
  | nil => rfl
  | cons b bs ih =>
    have h0 : Memory.read s.zbuf s.br.pos = some b := h 0 (Nat.succ_pos _)
    have hb : readByte (alignReader s) = .ok b (alignReader (afterBytes 1 s)) :=
      readByte_load (s := alignReader s) (Memory.lt_len_of_read hm h0) h0
    have htail := ih (s := afterBytes 1 s) hm fun k hk => by
      rw [show (afterBytes 1 s).br.pos + k = s.br.pos + (k + 1) from Nat.add_right_comm _ _ _]
      exact h (k + 1) (Nat.succ_lt_succ hk)
    rw [List.length_cons, readBytes, hb, Run.andThen_ok, htail, Run.andThen_ok, bitsVal_bytesBits_cons]
    simp only [afterBytes, Nat.add_assoc, Nat.add_comm 1]

/-- Settles O13: the first `read_byte` discards the pending bits, so `read_bytes` runs as from the byte boundary. -/
theorem alignedReads : Obligations.AlignedReads := by
  intro s bytes n hz hn
  have hm := Memory.wf_of_dense hz
  obtain ⟨n, rfl⟩ : ∃ m, n = m + 1 := Nat.exists_eq_add_one.2 hn
  refine ⟨fun hlen h => ?_, readBytes_short hz, fun b _ hb => readByte_load (Memory.lt_len_of_read hm hb) hb, readByte_end⟩
  have halign : readBytes (n + 1) (alignReader s) = readBytes (n + 1) s := readBytes_withPending n 0 0 s
  rw [← halign]
  rw [← hlen] at h ⊢
  exact ⟨_, readBytes_alignReader_of_reads hm h, bitsVal_bytesBits_lt bytes,
    fun k hk => getElem?_eq_digit_bitsVal_bytesBits hk⟩

/-! ### The bit position -/

/-- From `s` to `t` the bit position does not decrease, and the pending bits of `t` come from bytes loaded (R33, R106). -/
structure ReaderAdvances (s t : State) : Prop where
  loaded : t.br.cnt ≤ 8 * t.br.pos
  bitpos : bitpos s ≤ bitpos t

theorem Run.Ends.of_ok {α : Type} {P : State → Prop} {Q : Cause → Prop} {r : Run α} (h : r.Ends P Q) {a : α} {t : State}
    (hr : r = .ok a t) : P t := by
  subst hr
  exact h

theorem Run.Ends.of_raised {α : Type} {P : State → Prop} {Q : Cause → Prop} {r : Run α} (h : r.Ends P Q) {c : Cause}
    {t : State} (hr : r = .raised c t) : P t := by
  subst hr
  exact h.2

/-- Parts that advance the reader advance it one after the other. -/
theorem Run.Ends.andThen_advances {α β : Type} {s : State} {Q : Cause → Prop} {r : Run α} {k : α → State → Run β}
    (h : r.Ends (ReaderAdvances s) Q) (hk : ∀ a t, t.br.cnt ≤ 8 * t.br.pos → (k a t).Ends (ReaderAdvances t) Q) :
    (r.andThen k).Ends (ReaderAdvances s) Q :=
  h.andThen (fun a t ht => (hk a t ht.loaded).mono (fun _ hu => ⟨hu.loaded, ht.bitpos.trans hu.bitpos⟩) fun _ hc => hc)
    fun _ ht => ht

/-- `read_bit` moves the bit position by 1, or raises where it stands (R106). -/
theorem readBit_bitpos {s : State} (h : s.br.cnt ≤ 8 * s.br.pos) :
    readBit s = .raised .outOfData s ∨ readBit s = .stop .absentByte ∨
    ∃ b t, readBit s = .ok b t ∧ t.br.cnt ≤ 8 * t.br.pos ∧ bitpos t = bitpos s + 1 := by
  rcases Nat.eq_zero_or_pos s.br.cnt with hc | hc
  · by_cases he : Memory.len s.zbuf ≤ s.br.pos
    · exact .inl (readBit_end hc he)
    · cases hb : Memory.read s.zbuf s.br.pos with
      | none => exact .inr (.inl (by rw [readBit, if_pos hc, if_neg he, hb]))
      | some b =>
        refine .inr (.inr ⟨_, _, readBit_load hc (Nat.not_le.1 he) hb, ?_, ?_⟩)
        · simp only; omega
        · simp only [Machine.bitpos]; omega
  · refine .inr (.inr ⟨_, _, readBit_pending hc, ?_, ?_⟩)
    · exact (Nat.sub_le _ _).trans h
    · simp only [Machine.bitpos]; omega

theorem readBit_advances {s : State} (h : s.br.cnt ≤ 8 * s.br.pos) :
    (readBit s).Ends (ReaderAdvances s) (· = .outOfData) := by
  rcases readBit_bitpos h with hb | hb | ⟨b, t, hb, hload, hpos⟩ <;> rw [hb]
  · exact ⟨rfl, h, le_rfl⟩
  · trivial
  · exact ⟨hload, by omega⟩

theorem readBits_advances (n : Nat) {s : State} (h : s.br.cnt ≤ 8 * s.br.pos) :
    (readBits n s).Ends (ReaderAdvances s) (· = .outOfData) := by
  induction n generalizing s with
  | zero => exact ⟨h, le_rfl⟩
  | succ n ih =>
    exact (readBit_advances h).andThen_advances fun _ _ ht => (ih ht).andThen_advances fun _ _ hu => ⟨hu, le_rfl⟩

/-- The bit position after `n` aligned bytes is the byte boundary there (R102, R106). -/
theorem bitpos_afterBytes (n : Nat) (s : State) : bitpos (afterBytes n s) = 8 * (s.br.pos + n) := rfl

theorem afterBytes_advances (n : Nat) (s : State) : ReaderAdvances s (afterBytes n s) :=
  ⟨Nat.zero_le _, by rw [bitpos_afterBytes, Machine.bitpos]; omega⟩

theorem readByte_advances (s : State) : (readByte s).Ends (ReaderAdvances s) (· = .outOfData) := by
  rcases readByte_cases s with hb | hb | ⟨b, hb⟩ <;> rw [hb]
  · exact ⟨rfl, afterBytes_advances 0 s⟩
  · trivial
  · exact afterBytes_advances 1 s

theorem readBytes_advances (n : Nat) {s : State} (h : s.br.cnt ≤ 8 * s.br.pos) :
    (readBytes n s).Ends (ReaderAdvances s) (· = .outOfData) := by
  induction n generalizing s with
  | zero => exact ⟨h, le_rfl⟩
  | succ n ih =>
    exact (readByte_advances s).andThen_advances fun _ _ ht => (ih ht).andThen_advances fun _ _ hu => ⟨hu, le_rfl⟩

/-- With fewer than 8 pending bits, the reader's byte position is the byte boundary at or above the bit position (R106). -/
theorem byteBoundary_bitpos {s : State} (h7 : s.br.cnt ≤ 7) (h : s.br.cnt ≤ 8 * s.br.pos) :
    (bitpos s + 7) / 8 = s.br.pos := by
  rw [Machine.bitpos]; omega

/-- Settles O14: `read_byte` ends at the boundary after the next byte, and the reads of several bits or bytes advance the
reader part by part. -/
theorem bitPosition : Obligations.BitPosition := by
  rintro s ⟨h7, h8, -, -⟩
  refine ⟨fun b t hb => ?_, fun b t hb => ?_, fun n v t hrun => ?_, fun n v t hrun => ?_, fun n c t hrun => ?_,
    fun n c t hrun => ?_⟩
  · rcases readBit_bitpos h8 with hc | hc | ⟨_, _, hc, -, hpos⟩ <;> rw [hc] at hb <;> cases hb
    exact hpos
  · rcases readByte_cases s with hc | hc | ⟨_, hc⟩ <;> rw [hc] at hb <;> cases hb
    rw [bitpos_afterBytes, byteBoundary_bitpos h7 h8]
  · exact ((readBits_advances n h8).of_ok hrun).bitpos
  · exact ((readBytes_advances n h8).of_ok hrun).bitpos
  · exact ((readBits_advances n h8).of_raised hrun).bitpos
  · exact ((readBytes_advances n h8).of_raised hrun).bitpos

end Sys2Proof.Machine
end

section
/-! The canonical construction as stated (R120 to R124, R127, R128), its worked example (R134), and the tree with no codes
(R130). -/

namespace Sys2Proof.Machine

/-- Settles O20: a canonical code is its length's first code moved on, and the walk finds it since no code begins another. -/
theorem canonicalCodesDecode : Obligations.CanonicalCodesDecode := by
  intro lens sym L c mb rest hsize hmax hspace hs hc
  obtain ⟨hpos, rfl⟩ := canonicalCode_eq hs (hmax L (List.mem_of_getElem? hs)) hc
  exact walk_build_canonical hsize hmax hspace hs hpos.ne' mb rest

theorem lengthCount_of_pos (lens : List Nat) {L : Nat} (hL : 0 < L) : lengthCount lens L = lens.count L := if_neg hL.ne'

/-- Settles O17, from the recurrence of the first codes and the code of a symbol. -/
theorem canonicalAssignment : Obligations.CanonicalAssignment := by
  refine fun lens => ⟨rfl, fun L hL => lengthCount_of_pos lens hL, rfl, fun L hL => ?_, fun sym L hs hL hmax => ?_,
    fun sym hs => ?_⟩
  · rw [firstCode_succ lens hL, lengthCount_of_pos lens hL]
  · rw [canonicalCode hs hmax, if_neg hL.ne']
  · rw [canonicalCode hs (Nat.zero_le _), if_pos rfl]

/-- Settles O16: the construction is evaluated; the code `110` decodes as every canonical code does. -/
theorem workedExample : Obligations.WorkedExample := by
  refine ⟨by decide, by decide, by decide, by decide, by decide, by decide, by decide, by decide, fun mb rest => ?_⟩
  exact canonicalCodesDecode [2, 1, 3, 3] 2 3 0b110 mb rest (by decide) (by decide) (by decide) rfl (by decide)

/-- The assignment gives one code to each symbol of nonzero length (R123). -/
theorem length_codeEntries (sym : Nat) (next lens : List Nat) :
    (codeEntries sym lens (assignCodes next lens)).length = (lens.filter (· ≠ 0)).length := by
  induction lens generalizing sym next with
  | nil => rfl
  | cons L ls ih =>
    rw [assignCodes]
    by_cases hL : L = 0
    · rw [if_pos hL, codeEntries, ih, List.filter_cons_of_neg (by simpa using hL)]
    · rw [if_neg hL, codeEntries, List.length_cons, ih, List.filter_cons_of_pos (by simpa using hL), List.length_cons]

theorem build_eq_foldl (lens : List Nat) :
    build lens = (codeEntries 0 lens (assignCodes (nextCodes lens) lens)).foldl insertBits rootTree :=
  insertAll_eq_foldl ..

/-- No symbol of nonzero length, no insertion (R127). -/
theorem build_of_forall_eq_zero {lens : List Nat} (h : ∀ L ∈ lens, L = 0) : build lens = rootTree := by
  have hlen := length_codeEntries 0 (nextCodes lens) lens
  rw [List.filter_eq_nil_iff.2 (by simpa using h)] at hlen
  rw [build_eq_foldl, List.length_eq_zero_iff.1 hlen, List.foldl_nil]

/-- A decode from a tree with no codes reads no bit (R130). -/
theorem huffDecode_empty {t : Tree} (h : t.ncodes = 0) (s : State) : huffDecode t s = .raised .emptyTree s := by
  rw [huffDecode, walk, if_pos h]
  rfl

/-- Settles O22: without a code nothing is inserted, and the decode's first check raises. -/
theorem emptyTree : Obligations.EmptyTree :=
  ⟨fun _ h => build_of_forall_eq_zero h, fun _ s h => huffDecode_empty h s⟩

end Sys2Proof.Machine
end

section
/-! The child links of an arena (R124, R125): every insertion keeps them the later nodes, each linked once. -/

namespace Sys2Proof.Machine

/-- The links of an arena are the indices 1 to the last, each once, and each leads to a later node (R125). -/
structure Linked (nodes : List Node) : Prop where
  root : 0 < nodes.length
  links : (childLinks nodes).Perm (List.range' 1 (nodes.length - 1))
  later : ∀ k b, childOf (nodes.getD k emptyNode) b ≠ 0 →
    k < childOf (nodes.getD k emptyNode) b ∧ childOf (nodes.getD k emptyNode) b < nodes.length

theorem linked_rootTree : Linked rootTree.nodes where
  root := Nat.one_pos
  links := .refl _
  later k b h := absurd (by cases k <;> cases b <;> rfl) h

theorem childLinks_cons (n : Node) (ns : List Node) :
    childLinks (n :: ns) = [n.left, n.right].filter (· ≠ 0) ++ childLinks ns := rfl

theorem childLinks_concat_emptyNode (nodes : List Node) : childLinks (nodes ++ [emptyNode]) = childLinks nodes := by
  rw [childLinks, List.flatMap_append]
  exact List.append_nil _

/-- A child put in an empty field is one more link (R124). -/
theorem childLinks_cons_linkChild {n : Node} {b : Bool} (hb : childOf n b = 0) {c : Nat} (hc : c ≠ 0) (ns : List Node) :
    (childLinks (linkChild n b c :: ns)).Perm (c :: childLinks (n :: ns)) := by
  cases b with
  | false =>
    have hl : n.left = 0 := hb
    simp [childLinks_cons, linkChild, hl, hc]
  | true =>
    have hr : n.right = 0 := hb
    by_cases hl : n.left = 0
    · simp [childLinks_cons, linkChild, hl, hr, hc]
    · simp [childLinks_cons, linkChild, hl, hr, hc, List.Perm.swap]

theorem childLinks_set_linkChild {nodes : List Node} {k : Nat} (hk : k < nodes.length) {b : Bool}
    (hb : childOf (nodes.getD k emptyNode) b = 0) {c : Nat} (hc : c ≠ 0) :
    (childLinks (nodes.set k (linkChild (nodes.getD k emptyNode) b c))).Perm (c :: childLinks nodes) := by
  induction nodes generalizing k with
  | nil => cases hk
  | cons n ns ih =>
    cases k with
    | zero => exact childLinks_cons_linkChild hb hc ns
    | succ k => exact ((ih (Nat.lt_of_succ_lt_succ hk) hb).append_left _).trans List.perm_middle

theorem length_grow (nodes : List Node) (k : Nat) (b : Bool) : (grow nodes k b).length = nodes.length + 1 := by simp [grow]

/-- The new child of a node is the next index (R124). -/
theorem Linked.grow {nodes : List Node} (h : Linked nodes) {k : Nat} (hk : k < nodes.length) {b : Bool}
    (hb : childOf (nodes.getD k emptyNode) b = 0) : Linked (grow nodes k b) where
  root := by rw [length_grow]; exact Nat.succ_pos _
  links := by
    have hroot := h.root
    have hk' : (nodes ++ [emptyNode]).getD k emptyNode = nodes.getD k emptyNode := by
      simp [List.getD_eq_getElem?_getD, List.getElem?_append_left hk]
    have hperm := childLinks_set_linkChild (nodes := nodes ++ [emptyNode]) (k := k)
      (by rw [List.length_append]; exact Nat.lt_add_right _ hk) (hk' ▸ hb) hroot.ne'
    rw [hk', childLinks_concat_emptyNode] at hperm
    calc (childLinks (Machine.grow nodes k b)).Perm (nodes.length :: childLinks nodes) := hperm
      _ |>.Perm (nodes.length :: List.range' 1 (nodes.length - 1)) := h.links.cons _
      _ |>.Perm (List.range' 1 (nodes.length - 1) ++ [nodes.length]) := (List.perm_append_singleton ..).symm
      _ = List.range' 1 ((Machine.grow nodes k b).length - 1) := by
        obtain ⟨m, hm⟩ := Nat.exists_eq_succ_of_ne_zero hroot.ne'
        rw [length_grow, hm, Nat.succ_sub_one, Nat.add_sub_cancel, List.range'_1_concat, Nat.add_comm 1]
  later j b' := by
    rw [childOf_grow hk, length_grow]
    split_ifs with hj
    · exact fun _ => ⟨hj.1 ▸ hk, Nat.lt_succ_self _⟩
    · exact fun h0 => (h.later j b' h0).imp_right Nat.lt_succ_of_lt

theorem childOf_setSymbol (nodes : List Node) (k : Nat) (x : Half) (j : Nat) (b : Bool) :
    childOf ((setSymbol nodes k x).getD j emptyNode) b = childOf (nodes.getD j emptyNode) b := by
  by_cases hj : j < nodes.length
  · rw [getD_setSymbol hj]
    split_ifs <;> rfl
  · rw [List.getD_eq_default _ _ (by rw [setSymbol, List.length_set]; exact Nat.not_lt.1 hj),
      List.getD_eq_default _ _ (Nat.not_lt.1 hj)]

theorem childLinks_setSymbol (nodes : List Node) (k : Nat) (x : Half) :
    childLinks (setSymbol nodes k x) = childLinks nodes := by
  induction nodes generalizing k with
  | nil => rfl
  | cons n ns ih =>
    cases k with
    | zero => rfl
    | succ k => exact congrArg ([n.left, n.right].filter (· ≠ 0) ++ ·) (ih k)

theorem length_setSymbol (nodes : List Node) (k : Nat) (x : Half) : (setSymbol nodes k x).length = nodes.length :=
  List.length_set ..

/-- Storing a symbol leaves the links (R124). -/
theorem Linked.setSymbol {nodes : List Node} (h : Linked nodes) (k : Nat) (x : Half) : Linked (setSymbol nodes k x) where
  root := by rw [length_setSymbol]; exact h.root
  links := by rw [childLinks_setSymbol, length_setSymbol]; exact h.links
  later j b := by rw [childOf_setSymbol, length_setSymbol]; exact h.later j b

/-- The walk of an insertion goes to a later node with every bit (R124). -/
theorem Linked.insertPath {nodes : List Node} (h : Linked nodes) (bs : List Bool) {k : Nat} (hk : k < nodes.length) :
    Linked (insertPath bs k nodes).2 ∧ k + bs.length < (insertPath bs k nodes).2.length := by
  induction bs generalizing nodes k with
  | nil => exact ⟨h, hk⟩
  | cons b bs ih =>
    rw [List.length_cons]
    by_cases hc : childOf (nodes.getD k emptyNode) b = 0
    · have hins : Machine.insertPath (b :: bs) k nodes = Machine.insertPath bs nodes.length (Machine.grow nodes k b) :=
        if_pos hc
      obtain ⟨hl, hlen⟩ := ih (h.grow hk hc) (by rw [length_grow]; exact Nat.lt_succ_self nodes.length)
      rw [hins]
      exact ⟨hl, by omega⟩
    · have hins : Machine.insertPath (b :: bs) k nodes =
          Machine.insertPath bs (childOf (nodes.getD k emptyNode) b) nodes := if_neg hc
      obtain ⟨hlater, hlt⟩ := h.later k b hc
      obtain ⟨hl, hlen⟩ := ih h hlt
      rw [hins]
      exact ⟨hl, by omega⟩

/-- An arena in order, with a child once there is a code (R125). -/
structure LinkedTree (t : Tree) : Prop where
  linked : Linked t.nodes
  coded : t.ncodes ≠ 0 → 1 < t.nodes.length

/-- Inserting a code of at least one bit (R124). -/
theorem LinkedTree.insertBits {t : Tree} (h : LinkedTree t) {e : Nat × List Bool} (he : e.2 ≠ []) :
    LinkedTree (insertBits t e) := by
  obtain ⟨hl, hlen⟩ := h.linked.insertPath e.2 h.linked.root
  have hpos := List.length_pos_iff.2 he
  exact ⟨hl.setSymbol _ _, fun _ => by rw [Machine.insertBits, length_setSymbol]; omega⟩

/-- A code has at least one bit (R123). -/
theorem ne_nil_of_mem_codeEntries {sym : Nat} {lens : List Nat} {e : Nat × List Bool}
    (he : e ∈ codeEntries sym lens (assignCodes (nextCodes lens) lens)) : e.2 ≠ [] := by
  obtain ⟨k, L, c, hs, hc, rfl⟩ := mem_codeEntries.1 he
  rw [← List.length_pos_iff, length_codeBits, Nat.pos_iff_ne_zero]
  rintro rfl
  exact absurd (canonicalCode_eq hs (Nat.zero_le _) hc).1 (Nat.lt_irrefl 0)

theorem linkedTree_build (lens : List Nat) : LinkedTree (build lens) := by
  rw [build_eq_foldl]
  exact List.foldlRecOn _ _ ⟨linked_rootTree, (absurd rfl ·)⟩ fun _ h _ he => h.insertBits (ne_nil_of_mem_codeEntries he)

theorem ncodes_foldl_insertBits (t : Tree) (es : List (Nat × List Bool)) :
    (es.foldl insertBits t).ncodes = t.ncodes + es.length := by
  induction es generalizing t with
  | nil => rfl
  | cons e es ih => rw [List.foldl_cons, ih, List.length_cons, Nat.add_comm es.length, ← Nat.add_assoc]; rfl

theorem ncodes_build (lens : List Nat) : (build lens).ncodes = (lens.filter (· ≠ 0)).length := by
  rw [build_eq_foldl, ncodes_foldl_insertBits, length_codeEntries]
  exact Nat.zero_add _

theorem isLeaf_iff (n : Node) : isLeaf n = true ↔ n.left = 0 ∧ n.right = 0 := by simp [isLeaf]

theorem exists_childOf_of_mem_childLinks {nodes : List Node} {c : Nat} (h : c ∈ childLinks nodes) :
    ∃ k b, childOf (nodes.getD k emptyNode) b = c := by
  obtain ⟨n, hn, hc⟩ := List.mem_flatMap.1 h
  obtain ⟨k, hk, rfl⟩ := List.mem_iff_getElem.1 hn
  refine ⟨k, ?_⟩
  rw [List.getD_eq_getElem _ _ hk]
  rcases List.mem_pair.1 (List.mem_filter.1 hc).1 with rfl | rfl
  · exact ⟨false, rfl⟩
  · exact ⟨true, rfl⟩

/-- Node 1 is a child, and only the root is before it (R125). -/
theorem Linked.not_isLeaf_root {nodes : List Node} (h : Linked nodes) (h1 : 1 < nodes.length) :
    isLeaf (nodes.getD 0 emptyNode) = false := by
  have hmem : 1 ∈ childLinks nodes := h.links.mem_iff.2 (List.mem_range'_1.2 (by omega))
  obtain ⟨k, b, hc⟩ := exists_childOf_of_mem_childLinks hmem
  obtain ⟨hlt, -⟩ := h.later k b (by rw [hc]; exact Nat.one_ne_zero)
  obtain rfl : k = 0 := by omega
  rw [← Bool.not_eq_true, isLeaf_iff]
  rintro ⟨hl, hr⟩
  cases b with
  | false => exact absurd (hl.symm.trans hc) Nat.zero_ne_one
  | true => exact absurd (hr.symm.trans hc) Nat.zero_ne_one

theorem Linked.linkOk {nodes : List Node} (h : Linked nodes) (k : Nat) (b : Bool) :
    linkOk nodes.length k (childOf (nodes.getD k emptyNode) b) = true := by
  simp only [Machine.linkOk, Bool.or_eq_true, beq_iff_eq, Bool.and_eq_true, decide_eq_true_eq]
  exact Classical.or_iff_not_imp_left.2 (h.later k b)

theorem LinkedTree.arenaOk {t : Tree} (h : LinkedTree t) : arenaOk t = true := by
  simp only [Machine.arenaOk, Bool.and_eq_true, List.all_eq_true, Bool.or_eq_true, beq_iff_eq, bne_iff_ne,
    Bool.not_eq_true']
  refine ⟨fun k _ => ⟨h.linked.linkOk k false, h.linked.linkOk k true⟩, Classical.or_iff_not_imp_left.2 fun hn => ?_⟩
  exact ⟨h.linked.root.ne', h.linked.not_isLeaf_root (h.coded hn)⟩

/-- Settles O18: the root alone is in order, and every insertion keeps the links in order. -/
theorem arenaInvariants : Obligations.ArenaInvariants := fun lens =>
  have h := linkedTree_build lens
  ⟨h.linked.root, h.linked.links, fun n _ => isLeaf_iff n, ncodes_build lens, h.arenaOk⟩

end Sys2Proof.Machine
end

section
/-! The walk over the bits ahead and the loop that reads a bit at a time (R128), and the absent branch (R129). -/

namespace Sys2Proof.Machine

/-! ### One pass of the walk -/

section pass
variable {t : Tree} {mb : MissingBranch} {k : Nat} {n : Node} (hn : t.nodes[k]? = some n) (used : Nat)
include hn

theorem walkFrom_of_isLeaf (hl : isLeaf n = true) (bits : List Bool) :
    walkFrom t mb k used bits = .found n.symbol.toNat used := by
  cases bits <;> simp only [walkFrom, hn, hl, if_true]

theorem walkFrom_nil (hl : isLeaf n = false) : walkFrom t mb k used [] = .short used := by
  simp only [walkFrom, hn, hl, Bool.false_eq_true, if_false]

theorem walkFrom_child (hl : isLeaf n = false) {b : Bool} (hc : childOf n b ≠ 0) (bits : List Bool) :
    walkFrom t mb k used (b :: bits) = walkFrom t mb (childOf n b) (used + 1) bits := by
  simp only [walkFrom, hn, hl, hc, Bool.false_eq_true, if_false]

theorem walkFrom_absent_fault (hl : isLeaf n = false) {b : Bool} (hc : childOf n b = 0) (bits : List Bool) :
    walkFrom t .fault k used (b :: bits) = .bad .missingBranch (used + 1) := by
  simp only [walkFrom, hn, hl, hc, Bool.false_eq_true, if_false, if_true]

theorem walkFrom_absent_restart (hl : isLeaf n = false) {b : Bool} (hc : childOf n b = 0) (bits : List Bool) :
    walkFrom t .restartRoot k used (b :: bits) = walkFrom t .restartRoot 0 (used + 1) bits := by
  simp only [walkFrom, hn, hl, hc, Bool.false_eq_true, if_false, if_true]

end pass

theorem walkFrom_noNode {t : Tree} {k : Nat} (hn : t.nodes[k]? = none) (mb : MissingBranch) (used : Nat)
    (bits : List Bool) : walkFrom t mb k used bits = .noNode := by
  cases bits <;> simp only [walkFrom, hn]

/-! ### A walk that begins after some bits -/

/-- The same end of a walk, `m` bits later. -/
def Walk.after (m : Nat) : Walk → Walk
  | .found sym used => .found sym (m + used)
  | .bad c used => .bad c (m + used)
  | .short used => .short (m + used)
  | .noNode => .noNode

/-- The bits used so far are only counted. -/
theorem walkFrom_add (t : Tree) (mb : MissingBranch) (bits : List Bool) (k m used : Nat) :
    walkFrom t mb k (m + used) bits = (walkFrom t mb k used bits).after m := by
  cases hn : t.nodes[k]? with
  | none => rw [walkFrom_noNode hn, walkFrom_noNode hn, Walk.after]
  | some n =>
    cases hl : isLeaf n with
    | true => rw [walkFrom_of_isLeaf hn _ hl, walkFrom_of_isLeaf hn _ hl, Walk.after]
    | false =>
      match bits with
      | [] => rw [walkFrom_nil hn _ hl, walkFrom_nil hn _ hl, Walk.after]
      | b :: bs =>
        by_cases hc : childOf n b = 0
        · cases mb with
          | fault => rw [walkFrom_absent_fault hn _ hl hc, walkFrom_absent_fault hn _ hl hc, Walk.after, Nat.add_assoc]
          | restartRoot =>
            rw [walkFrom_absent_restart hn _ hl hc, walkFrom_absent_restart hn _ hl hc, Nat.add_assoc,
              walkFrom_add t _ bs]
        · rw [walkFrom_child hn _ hl hc, walkFrom_child hn _ hl hc, Nat.add_assoc, walkFrom_add t _ bs]
termination_by bits.length

/-! ### The absent branch -/

/-- The walk goes where the path leads (R128). -/
theorem walkFrom_follow {t : Tree} (mb : MissingBranch) {path : List Bool} {k j : Nat} (h : follow t k path = some j)
    (used : Nat) (bits : List Bool) :
    walkFrom t mb k used (path ++ bits) = walkFrom t mb j (used + path.length) bits := by
  induction path generalizing k used with
  | nil =>
    cases h
    rfl
  | cons b bs ih =>
    simp only [follow] at h
    split at h
    · cases h
    · rename_i n hn
      split_ifs at h with hstop
      rw [Bool.or_eq_true, not_or, Bool.not_eq_true, beq_iff_eq] at hstop
      obtain ⟨hl, hc⟩ := hstop
      rw [List.cons_append, walkFrom_child hn _ hl hc, ih h, List.length_cons, Nat.add_assoc, Nat.add_comm 1]

/-- Settles O23: the walk follows the path, and the next bit faults or is one more bit used before a walk from the root. -/
theorem absentBranch : Obligations.AbsentBranch := by
  intro t path rest b k n h0 hpath hn hl hc
  have hrestart : walk t .restartRoot (path ++ b :: rest) = (walk t .restartRoot rest).after (path.length + 1) := by
    rw [walk, walk, if_neg h0, if_neg h0, walkFrom_follow _ hpath, walkFrom_absent_restart hn _ hl hc, ← walkFrom_add,
      Nat.zero_add, Nat.add_zero]
  refine ⟨?_, fun sym used hw => ?_, fun used hw => ?_⟩
  · rw [walk, if_neg h0, walkFrom_follow _ hpath, walkFrom_absent_fault hn _ hl hc, Nat.zero_add]
  · rw [hrestart, hw, Walk.after]
  · rw [hrestart, hw, Walk.after]

/-! ### The loop -/

/-- What a decode does once its walk is known: it reads the bits used, the one that finds no bit included (R128). -/
def Walk.run (w : Walk) (s : State) : Run Nat :=
  match w with
  | .found sym used => (readBits used s).andThen fun _ s => .ok sym s
  | .bad c used => (readBits used s).andThen fun _ s => .raised c s
  | .short used => (readBits (used + 1) s).andThen fun _ s => .raised .outOfData s
  | .noNode => .stop .absentNode

theorem huffDecode_eq_run (t : Tree) (s : State) :
    huffDecode t s = (walk t s.cfg.missingBranch (bitsAhead s)).run s := by
  rw [huffDecode]
  cases walk t s.cfg.missingBranch (bitsAhead s) <;> rfl

/-- The first bit of a field, read apart (R101). -/
theorem readBits_succ_andThen {α : Type} {s u : State} {b : Bool} (h : readBit s = .ok b u) (n : Nat)
    (k : State → Run α) :
    ((readBits (n + 1) s).andThen fun _ t => k t) = (readBits n u).andThen fun _ t => k t := by
  simp only [readBits, h, Run.andThen_ok, Run.andThen_assoc]

/-- The first bit of a walk, read apart (R128). -/
theorem Walk.run_after_one (w : Walk) {s u : State} {b : Bool} (h : readBit s = .ok b u) :
    (w.after 1).run s = w.run u := by
  cases w with
  | noNode => rfl
  | found sym used =>
    rw [Walk.after, Nat.add_comm]
    exact readBits_succ_andThen h used (.ok sym)
  | bad c used =>
    rw [Walk.after, Nat.add_comm]
    exact readBits_succ_andThen h used (.raised c)
  | short used =>
    rw [Walk.after, Nat.add_comm]
    exact readBits_succ_andThen h (used + 1) (.raised .outOfData)

theorem run_walkFrom_one {s u : State} {b : Bool} (h : readBit s = .ok b u) (t : Tree) (mb : MissingBranch) (k : Nat)
    (bits : List Bool) : (walkFrom t mb k 1 bits).run s = (walkFrom t mb k 0 bits).run u :=
  (congrArg (Walk.run · s) (walkFrom_add t mb bits k 1 0)).trans (Walk.run_after_one _ h)

/-- With a pass for each bit ahead and one more, the loop ends as the walk over the bits ahead does (R128). -/
theorem decodeLoop_eq_run (t : Tree) {bits : List Bool} {s : State} (hs : StreamOk s) (hb : bitsAhead s = bits)
    (k : Nat) : decodeLoop t (bits.length + 1) k s = (walkFrom t s.cfg.missingBranch k 0 bits).run s := by
  cases hn : t.nodes[k]? with
  | none =>
    rw [walkFrom_noNode hn]
    simp only [decodeLoop, hn, Walk.run]
  | some n =>
    cases hl : isLeaf n with
    | true =>
      rw [walkFrom_of_isLeaf hn _ hl]
      simp only [decodeLoop, hn, hl, if_true, Walk.run, readBits, Run.andThen_ok]
    | false =>
      match bits with
      | [] =>
        rw [walkFrom_nil hn _ hl]
        simp only [decodeLoop, hn, hl, Bool.false_eq_true, if_false, Walk.run, readBits, readBit_nil hs.1 hb,
          Run.andThen_raised]
      | b :: bs =>
        obtain ⟨u, hu, hread, hru, hbu, -⟩ := readBit_cons hs.1 hs.2 hb
        have hsu : StreamOk u := ⟨by rw [hread]; exact hs.1, hru⟩
        have hcfg : u.cfg = s.cfg := by rw [hread]
        have ih := decodeLoop_eq_run t hsu hbu
        rw [List.length_cons, decodeLoop]
        simp only [hn, hl, Bool.false_eq_true, if_false, hu, Run.andThen_ok]
        by_cases hc : childOf n b = 0
        · rw [if_pos hc]
          cases hmb : s.cfg.missingBranch with
          | fault =>
            rw [hcfg, hmb, walkFrom_absent_fault hn _ hl hc]
            simp only [Walk.run, readBits, hu, Run.andThen_ok]
          | restartRoot =>
            rw [hcfg, hmb] at ih
            rw [hcfg, hmb, walkFrom_absent_restart hn _ hl hc, Nat.zero_add, run_walkFrom_one hu, ← ih]
        · rw [if_neg hc, walkFrom_child hn _ hl hc, Nat.zero_add, run_walkFrom_one hu, ih, hcfg]
termination_by bits.length

/-- Settles O19: both read the bits that the walk over the bits ahead uses. -/
theorem decodeIsTheLoop : Obligations.DecodeIsTheLoop := by
  intro t s hs
  rw [huffDecode_eq_run, decodeByBits, walk]
  split_ifs
  · rfl
  · exact (decodeLoop_eq_run t hs rfl 0).symm

end Sys2Proof.Machine
end

section
/-! The block headers, the end of a block and the stored block (R150 to R155, R182, R189), and the invalid elements. -/

namespace Sys2Proof.Machine

/-! ### Headers and ends -/

/-- The end of a block as one update: the trees go, and `BFINAL` decides the phase (R38, R150). -/
theorem endBlock_eq (s : State) :
    endBlock s =
      { s with
        litTree := noTree, distTree := noTree, clTree := noTree, infPos := .blockHeader,
        phase := if s.bfinal = true then .zlibTrl else s.phase } := by
  unfold endBlock
  split <;> rfl

/-- Settles O38: a header is its latches and its place, and the end of a block is one update. -/
theorem blocks : Obligations.Blocks := fun _ s => ⟨rfl, rfl, rfl, rfl, endBlock_eq s⟩

/-- Settles O10: the meaning of an invalid element is the fault entry itself. -/
theorem invalidElements : Obligations.InvalidElements := fun _ => ⟨fun _ => rfl, rfl, rfl, rfl, rfl, fun _ => rfl⟩

/-! ### The payload of a stored block -/

theorem roomFor.mono {s : State} {m n : Nat} (h : roomFor s n) (hmn : m ≤ n) : roomFor s m :=
  fun cap hcap => (Nat.add_le_add_left hmn _).trans (h cap hcap)

/-- With room for one byte, `emit` appends it (R189). -/
theorem emit_ok {s : State} (h : roomFor s 1) (v : Byte) : emit v s = .ok () { s with out := Memory.append s.out v } :=
  if_pos ((hasRoom_iff s 1).2 h)

/-- Without it, `emit` raises (R189). -/
theorem emit_full {s : State} (h : ¬ roomFor s 1) (v : Byte) : emit v s = .raised .outputCapacity s :=
  if_neg fun hr => h ((hasRoom_iff s 1).1 hr)

/-- A byte read after aligned bytes, when `ZBUF` holds it (R102). -/
theorem readByte_afterBytes {s : State} (hz : Memory.dense s.zbuf = true) {k : Nat}
    (h : s.br.pos + k < Memory.len s.zbuf) : ∃ b, readByte (afterBytes k s) = .ok b (afterBytes (k + 1) s) := by
  obtain ⟨b, -, hb⟩ := readByte_ok (s := afterBytes k s) hz h
  exact ⟨b, hb⟩

/-- The payload bytes that `ZBUF` holds and `OUT` has room for are appended, and the loop goes on after them (R152). -/
theorem storedLoop_append (xs ys : List Byte) (n : Nat) {k : Nat} {s : State} (hz : Memory.dense s.zbuf = true)
    (hin : s.br.pos + k + xs.length ≤ Memory.len s.zbuf) (hroom : xs ≠ [] → roomFor s xs.length) :
    storedLoop (xs.length + n) (xs ++ ys) (afterBytes k s) =
      storedLoop n ys { afterBytes (k + xs.length) s with out := Memory.appendAll s.out xs } := by
  induction xs generalizing k s with
  | nil => rw [List.length_nil, Nat.zero_add]; rfl
  | cons x xs ih =>
    rw [List.length_cons] at hin
    have hroom := hroom (List.cons_ne_nil x xs)
    obtain ⟨b, hb⟩ := readByte_afterBytes (k := k) hz (by omega)
    have hemit := emit_ok (s := afterBytes (k + 1) s) (hroom.mono (Nat.succ_pos _)) x
    have hroom' : roomFor { s with out := Memory.append s.out x } xs.length := fun cap hcap => by
      have := hroom cap hcap
      rw [List.length_cons] at this
      simp only [Memory.len_append]
      omega
    have htail := ih (k := k + 1) (s := { s with out := Memory.append s.out x }) hz (by simp only; omega) fun _ => hroom'
    rw [List.length_cons, Nat.add_right_comm, List.cons_append, storedLoop, hb, Run.andThen_ok, hemit, Run.andThen_ok,
      ← Nat.add_assoc k, Nat.add_right_comm k]
    exact htail

/-- A payload byte that `OUT` has no room for is read and not appended (R189). -/
theorem storedLoop_full {k n : Nat} {s : State} (hz : Memory.dense s.zbuf = true)
    (hin : s.br.pos + k < Memory.len s.zbuf) (hfull : ¬ roomFor s 1) (v : Byte) (vs : List Byte) :
    storedLoop (n + 1) (v :: vs) (afterBytes k s) = .raised .outputCapacity (afterBytes (k + 1) s) := by
  obtain ⟨b, hb⟩ := readByte_afterBytes hz hin
  rw [storedLoop, hb, Run.andThen_ok, emit_full (s := afterBytes (k + 1) s) hfull, Run.andThen_raised]

/-- A payload that ends with `ZBUF` raises at its next byte (R102, R152). -/
theorem storedLoop_short {k : Nat} {s : State} (h : Memory.len s.zbuf = s.br.pos + k) (n : Nat) :
    storedLoop (n + 1) [] (afterBytes k s) = .raised .outOfData (afterBytes k s) := by
  rw [storedLoop, readByte_end (s := afterBytes k s) h.le]
  rfl

/-! ### The stored block -/

/-- After the four bytes of LEN and NLEN, a stored block is its payload loop and the end of the block (R152). -/
theorem exec_stored {s : State} (hz : Memory.dense s.zbuf = true) (h : s.br.pos + 4 ≤ Memory.len s.zbuf)
    (len nlen : Half) (payload : List Byte) :
    exec (.stored len nlen payload) s =
      ((storedLoop len.toNat payload (afterBytes 4 { s with slen := len, snlen := nlen })).andThen fun _ s =>
        .ok () (endBlock s)).outcome := by
  obtain ⟨v, hv⟩ := readBytes_ok (n := 1) hz (by omega)
  obtain ⟨w, hw⟩ := readBytes_ok (n := 1) (s := { afterBytes 2 s with slen := len }) hz
    (show s.br.pos + 2 + 2 ≤ Memory.len s.zbuf by omega)
  simp only [exec, execStored, hv, hw, Run.andThen_ok]
  rfl

/-- LEN or NLEN cut short raises (R103, R152). -/
theorem exec_stored_short {s : State} (hz : Memory.dense s.zbuf = true) (h : Memory.len s.zbuf < s.br.pos + 4)
    (len nlen : Half) (payload : List Byte) :
    ∃ t, exec (.stored len nlen payload) s = .next (raise .outOfData t) ∧ t = { s with br := t.br, slen := t.slen } := by
  by_cases h2 : s.br.pos + 2 ≤ Memory.len s.zbuf
  · obtain ⟨v, hv⟩ := readBytes_ok (n := 1) hz h2
    obtain ⟨t, ht, hrt⟩ := readBytes_short (n := 1) (s := { afterBytes 2 s with slen := len }) hz h
    exact ⟨t, by simp only [exec, execStored, hv, ht, Run.andThen_ok, Run.andThen_raised, Run.outcome_raised],
      by rw [hrt]; rfl⟩
  · obtain ⟨t, ht, hrt⟩ := readBytes_short (n := 1) hz (Nat.not_le.1 h2)
    exact ⟨t, by simp only [exec, execStored, ht, Run.andThen_raised, Run.outcome_raised], by rw [hrt]⟩

/-- Settles O39: the payload bytes appended are those before the end of the payload, of the room in `OUT`, or of `ZBUF`, and
the loop ends there in its own way. -/
theorem storedBlock : Obligations.StoredBlock := by
  intro len nlen payload s hz hout
  refine ⟨fun hlen hin hroom => ?complete, fun cap hlen hin hcap hpos hover => ?full, fun hlen hin hroom => ?cut,
    fun h => exec_stored_short hz h len nlen payload⟩
  case complete =>
    have hloop := storedLoop_append payload [] 0 (k := 4) (s := { s with slen := len, snlen := nlen }) hz
      (by rw [hlen]; exact hin) fun hne => by
        rw [hlen]
        exact hroom.resolve_left fun h0 => hne (List.eq_nil_of_length_eq_zero (hlen.trans h0))
    rw [List.append_nil, Nat.add_zero, hlen] at hloop
    refine ⟨_, .of_appendAll hout payload, ?_⟩
    rw [exec_stored hz (by omega), hloop]
    rfl
  case full =>
    generalize hk : cap - Memory.len s.out = k
    obtain ⟨n, hn⟩ : ∃ n, len.toNat = k + (n + 1) := ⟨len.toNat - k - 1, by omega⟩
    have htake : (payload.take k).length = k := List.length_take_of_le (by omega)
    have hloop := storedLoop_append (payload.take k) (payload.drop k) (n + 1) (k := 4)
      (s := { s with slen := len, snlen := nlen }) hz (by simp only; omega) fun hne c hc => by
        obtain rfl : cap = c := Option.some.inj (hcap.symm.trans hc)
        have := List.length_pos_iff.2 hne
        simp only
        omega
    have hfull := storedLoop_full (k := 4 + k) (n := n)
      (s := { s with slen := len, snlen := nlen, out := Memory.appendAll s.out (payload.take k) }) hz (by simp only; omega)
      (fun hroom => by
        have := hroom cap hcap
        rw [Memory.len_appendAll] at this
        omega)
      (payload[k]'(by omega)) (payload.drop (k + 1))
    rw [htake, List.take_append_drop, ← hn, List.drop_eq_getElem_cons (by omega)] at hloop
    refine ⟨_, .of_appendAll hout (payload.take k), ?_⟩
    rw [exec_stored hz (by omega), hloop.trans hfull]
    rfl
  case cut =>
    obtain ⟨n, hn⟩ : ∃ n, len.toNat = payload.length + (n + 1) := ⟨len.toNat - payload.length - 1, by omega⟩
    have hloop := storedLoop_append payload [] (n + 1) (k := 4) (s := { s with slen := len, snlen := nlen }) hz hin.le
      fun hne => hroom.resolve_left fun h0 => hne (List.eq_nil_of_length_eq_zero h0)
    have hshort := storedLoop_short (k := 4 + payload.length)
      (s := { s with slen := len, snlen := nlen, out := Memory.appendAll s.out payload })
      (by rw [← hin, Nat.add_assoc]) n
    rw [List.append_nil, ← hn] at hloop
    refine ⟨_, .of_appendAll hout payload, ?_⟩
    rw [exec_stored hz (by omega), hloop.trans hshort]
    rfl

end Sys2Proof.Machine
end

section
/-! The dynamic header (R156 to R158): parts that consume bits one after the other, and where each code-length code length
goes. -/

namespace Sys2Proof.Machine

/-! ### Parts that consume bits -/

/-- On a readable stream a part consumes `n` bits and ends in `f` of the reader; where they are cut short it ends for want
of data, with the code-length tree and `OUT` of `s`. -/
structure Consumes (n : Nat) (s : State) (f : BitReader → State) (r : Run Unit) : Prop where
  reads : StreamOk s → n ≤ (bitsAhead s).length → ∃ q, r = .ok () (f q) ∧ BitsRead n s { s with br := q }
  short : StreamOk s → (bitsAhead s).length < n →
    ∃ t, r = .raised .outOfData t ∧ t.clTree = s.clTree ∧ t.out = s.out

/-- What a part consumes does not depend on the registers latched before it. -/
theorem Consumes.of_latched {n : Nat} {s s' : State} {f : BitReader → State} {r : Run Unit} (h : Consumes n s' f r)
    (hbr : s'.br = s.br := by rfl) (hz : s'.zbuf = s.zbuf := by rfl) (htree : s'.clTree = s.clTree := by rfl)
    (hout : s'.out = s.out := by rfl) : Consumes n s f r := by
  have hahead : bitsAhead s' = bitsAhead s := by simp only [bitsAhead, hbr, hz]
  have hstream : StreamOk s → StreamOk s' := by simp only [StreamOk, ReaderOk, hbr, hz]; exact id
  refine ⟨fun hs hn => ?_, fun hs hn => ?_⟩
  · obtain ⟨q, hq, hread⟩ := h.reads (hstream hs) (by rwa [hahead])
    exact ⟨q, hq, hread.reframe hbr.symm hz.symm⟩
  · rw [← htree, ← hout]
    exact h.short (hstream hs) (by rwa [hahead])

/-- A field of `n` bits before a part that consumes `m`. -/
theorem Consumes.field {n m : Nat} {s : State} {f : BitReader → State} {k : Nat → State → Run Unit}
    (hk : ∀ v q, Consumes m { s with br := q } f (k v { s with br := q })) :
    Consumes (n + m) s f ((readBits n s).andThen k) := by
  refine ⟨fun hs h => ?_, fun hs h => ?_⟩
  · obtain ⟨v, q, hv, hread⟩ := readBits_ok_reader hs (n := n) (by omega)
    obtain ⟨p, hp, hread'⟩ := (hk v q).reads (hread.stream hs) (by rw [hread.ahead, List.length_drop]; omega)
    exact ⟨p, by rw [hv, Run.andThen_ok, hp], hread.trans hread'⟩
  · by_cases hn : n ≤ (bitsAhead s).length
    · obtain ⟨v, q, hv, hread⟩ := readBits_ok_reader hs hn
      rw [hv, Run.andThen_ok]
      exact (hk v q).short (hread.stream hs) (by rw [hread.ahead, List.length_drop]; omega)
    · obtain ⟨t, ht, hread⟩ := readBits_bitsShort hs (Nat.not_le.1 hn)
      exact ⟨t, by rw [ht, Run.andThen_raised], by rw [hread.only], by rw [hread.only]⟩

/-- An update at the end of a part consumes nothing. -/
theorem Consumes.update {n : Nat} {s : State} {f : BitReader → State} {r : Run Unit} (h : Consumes n s f r)
    (g : State → State) : Consumes n s (fun q => g (f q)) (r.andThen fun _ s => .ok () (g s)) := by
  refine ⟨fun hs hn => ?_, fun hs hn => ?_⟩
  · obtain ⟨q, rfl, hread⟩ := h.reads hs hn
    exact ⟨q, rfl, hread⟩
  · obtain ⟨t, rfl, ht⟩ := h.short hs hn
    exact ⟨t, rfl, ht⟩

/-! ### The code-length code lengths -/

/-- The list of code-length code lengths after the fields `vs` have gone to the symbols `syms`, one by one (R157). -/
def placeClLens : List Nat → List Nat → List Nat → List Nat
  | sym :: syms, v :: vs, l => placeClLens syms vs (l.set sym v)
  | _, _, l => l

/-- Three bits for each field, and each field at its symbol (R157). -/
theorem readClLens_consumes {syms vs : List Nat} (hlen : vs.length ≤ syms.length) (s : State) :
    Consumes (3 * vs.length) s (fun q => { s with br := q, clLens := placeClLens syms vs s.clLens })
      (readClLens syms vs s) := by
  induction vs generalizing syms s with
  | nil =>
    refine ⟨fun hs _ => ⟨s.br, ?_, rfl, rfl, rfl, hs.2⟩, fun _ h => absurd h (Nat.not_lt_zero _)⟩
    cases syms <;> rfl
  | cons v vs ih =>
    cases syms with
    | nil => cases hlen
    | cons sym syms =>
      rw [List.length_cons, Nat.mul_succ, Nat.add_comm]
      exact .field fun _ q =>
        (ih (Nat.le_of_succ_le_succ hlen) { s with br := q, clLens := s.clLens.set sym v }).of_latched

theorem length_placeClLens (syms vs l : List Nat) : (placeClLens syms vs l).length = l.length := by
  induction syms generalizing vs l with
  | nil => rfl
  | cons sym syms ih =>
    cases vs with
    | nil => rfl
    | cons v vs => rw [placeClLens, ih, List.length_set]

/-- A symbol that no field goes to keeps its length. -/
theorem getD_placeClLens_of_notMem {syms : List Nat} {j : Nat} (h : j ∉ syms) (vs l : List Nat) :
    (placeClLens syms vs l).getD j 0 = l.getD j 0 := by
  induction syms generalizing vs l with
  | nil => rfl
  | cons sym syms ih =>
    obtain ⟨hne, hmem⟩ := List.ne_and_not_mem_of_not_mem_cons h
    cases vs with
    | nil => rfl
    | cons v vs =>
      rw [placeClLens, ih hmem, List.getD_eq_getElem?_getD, List.getElem?_set_ne hne.symm, List.getD_eq_getElem?_getD]

/-- Field `k` goes to symbol `k` of the order; the symbols past the last field keep their lengths (R157). -/
theorem getD_placeClLens {syms : List Nat} (hnodup : syms.Nodup) (vs : List Nat) {l : List Nat}
    (hl : ∀ sym ∈ syms, sym < l.length) {k : Nat} (hk : k < syms.length) :
    (placeClLens syms vs l).getD syms[k] 0 = vs.getD k (l.getD syms[k] 0) := by
  induction syms generalizing vs l k with
  | nil => cases hk
  | cons sym syms ih =>
    obtain ⟨hnot, hnodup⟩ := List.nodup_cons.1 hnodup
    cases vs with
    | nil => rfl
    | cons v vs =>
      cases k with
      | zero =>
        have hsym := hl sym List.mem_cons_self
        rw [placeClLens, List.getElem_cons_zero, getD_placeClLens_of_notMem hnot, List.getD_eq_getElem _ _ (by simpa),
          List.getElem_set_self, List.getD_cons_zero]
      | succ k =>
        have hk : k < syms.length := Nat.lt_of_succ_lt_succ hk
        have hne : sym ≠ syms[k] := fun h => hnot (h ▸ List.getElem_mem hk)
        rw [placeClLens, List.getElem_cons_succ, List.getD_cons_succ,
          ih hnodup vs (fun x hx => by simpa using hl x (List.mem_cons_of_mem _ hx)) hk,
          List.getD_eq_getElem?_getD (l := l.set sym v), List.getElem?_set_ne hne, ← List.getD_eq_getElem?_getD]

/-! ### The header -/

theorem nodup_clOrder : clOrder.Nodup := by decide

theorem lt_of_mem_clOrder : ∀ sym ∈ clOrder, sym < nsymCl := by decide

/-- Field `k` stands at `CL_ORDER[k]`, and zeros elsewhere (R157). -/
theorem getD_placeClLens_clOrder (cl : List Nat) {k : Nat} (hk : k < 19) :
    (placeClLens clOrder cl (List.replicate nsymCl 0)).getD (clOrder.getD k 0) 0 = cl.getD k 0 := by
  have hsym : clOrder[k] < nsymCl := lt_of_mem_clOrder _ (List.getElem_mem hk)
  rw [List.getD_eq_getElem clOrder 0 hk,
    getD_placeClLens nodup_clOrder cl (fun sym h => by rw [List.length_replicate]; exact lt_of_mem_clOrder sym h) hk,
    List.getD_replicate 0 hsym]

/-- The dynamic header consumes its three counts and its code-length code lengths, latches them, and builds the
code-length tree (R156 to R158). -/
theorem exec_dyn {cl : List Nat} (hcl : cl.length ≤ 19) (hlit hdist hclen : Nat) (s : State) :
    ∃ r : Run Unit, exec (.dyn hlit hdist hclen cl) s = r.outcome ∧
      Consumes (14 + 3 * cl.length) s
        (fun q => { s with
          br := q, hlit := hlit, hdist := hdist, hclen := hclen,
          clLens := placeClLens clOrder cl (List.replicate nsymCl 0),
          clTree := build (placeClLens clOrder cl (List.replicate nsymCl 0)), lens := [], infPos := .codeLengths }) r := by
  refine ⟨_, rfl, ?_⟩
  rw [show 14 + 3 * cl.length = 5 + (5 + (4 + 3 * cl.length)) by omega]
  exact .field fun _ _ => .of_latched <| .field fun _ _ => .of_latched <| .field fun _ q => .of_latched <|
    (readClLens_consumes hcl { s with
      br := q, hlit := hlit, hdist := hdist, hclen := hclen, clLens := List.replicate nsymCl 0 }).update
    fun s => { s with clTree := build s.clLens, lens := [], infPos := .codeLengths }

/-- Settles O40: the fields in their order, and the code-length code lengths at their symbols. -/
theorem dynamicHeader : Obligations.DynamicHeader := by
  intro hlit hdist hclen cl s hs hwf
  obtain ⟨hmax, hlen⟩ : hclen ≤ 19 ∧ cl.length = hclen := by
    simp only [WellFormed, wfClList, Bool.and_eq_true, decide_eq_true_eq, beq_iff_eq] at hwf
    exact ⟨hwf.1.2.2, hwf.2.1⟩
  subst hlen
  obtain ⟨r, hexec, hcons⟩ := exec_dyn hmax hlit hdist cl.length s
  rw [hexec]
  refine ⟨fun h => ?_, fun h => ?_⟩
  · obtain ⟨q, rfl, hread⟩ := hcons.reads hs h
    exact ⟨_, _, hread, length_placeClLens _ _ _, fun k hk => getD_placeClLens_clOrder cl hk, rfl⟩
  · obtain ⟨t, rfl, ht⟩ := hcons.short hs h
    exact ⟨t, rfl, ht⟩

end Sys2Proof.Machine
end

section
/-! The code lengths (R159 to R164): one length, and the repeats. -/

namespace Sys2Proof.Machine

theorem le_of_clParts {i : Instr} {v : Nat} (h : clParts i = some v) : v ≤ 15 := by
  cases i <;> cases h <;> decide

/-- Settles O41: the length is appended, and the loop test of R159 decides what follows. -/
theorem codeLength : Obligations.CodeLength := by
  intro i v s h
  refine ⟨le_of_clParts h, ?_⟩
  rw [exec_cl h, runCl, Run.outcome_ok, afterLengths, List.length_append]
  rfl

/-- The extra bits of a repeat before its check for an overrun (R161 to R163). -/
theorem repeat_ok {s : State} (hs : StreamOk s) {n : Nat} (hn : n ≤ (bitsAhead s).length) (rep v : Nat) :
    ∃ u, BitsRead n s u ∧
      ((readBits n s).andThen fun _ s => appendRepeat rep v s).outcome = .next (
        if s.hlit + s.hdist < s.lens.length + rep then raise .repeatOverrun u
        else afterLengths { u with lens := s.lens ++ List.replicate rep v }) := by
  obtain ⟨x, r, hx, hr⟩ := readBits_ok_reader hs hn
  refine ⟨_, hr, ?_⟩
  rw [hx, Run.andThen_ok, appendRepeat]
  split <;> rfl

/-- Extra bits cut short raise, nothing appended (R101). -/
theorem repeat_short {s : State} (hs : StreamOk s) {n : Nat} (hn : (bitsAhead s).length < n) (rep v : Nat) :
    ∃ u, BitsRead (bitsAhead s).length s u ∧
      ((readBits n s).andThen fun _ s => appendRepeat rep v s).outcome = .next (raise .outOfData u) := by
  obtain ⟨u, hu, hr⟩ := readBits_bitsShort hs hn
  exact ⟨u, hr, by rw [hu]; rfl⟩

/-- With no previous length, no bit is read (R161). -/
theorem runRepeatPrev_nil {s : State} (h : s.lens = []) (rep : Nat) :
    runRepeatPrev rep s = .raised .repeatNoPrevious s := by
  rw [runRepeatPrev, h, List.getLast?_nil]

/-- With a previous length, the extra bits and the appends (R161). -/
theorem runRepeatPrev_some {s : State} {v : Nat} (h : s.lens.getLast? = some v) (rep : Nat) :
    runRepeatPrev rep s = (readBits 2 s).andThen fun _ s => appendRepeat rep v s := by
  rw [runRepeatPrev, h]

/-- `ZEROS` is the repeat of its length (R91). -/
theorem exec_zeros (rep : Nat) (s : State) :
    exec (.zeros rep) s = (runZeros (if rep ≤ 10 then 3 else 7) rep s).outcome := by
  rw [exec, execZeros]
  split <;> rfl

/-- The meaning of a repeat that has a length to repeat: its extra bits, the check, the appends (R161 to R163, R91). -/
theorem exec_repeat {rep : Nat} {s : State} {p : Nat × Instr × Option Nat}
    (hp : p ∈ [((2 : Nat), Instr.cl16 rep, s.lens.getLast?), (2, .repeatPrev rep, s.lens.getLast?),
      (3, .cl17 rep, some 0), (7, .cl18 rep, some 0), (if rep ≤ 10 then 3 else 7, .zeros rep, some 0)])
    {v : Nat} (hv : p.2.2 = some v) :
    exec p.2.1 s = ((readBits p.1 s).andThen fun _ s => appendRepeat rep v s).outcome := by
  simp only [List.mem_cons, List.not_mem_nil, or_false] at hp
  rcases hp with rfl | rfl | rfl | rfl | rfl
  · exact congrArg Run.outcome (runRepeatPrev_some hv rep)
  · exact congrArg Run.outcome (runRepeatPrev_some hv rep)
  · cases hv; rfl
  · cases hv; rfl
  · cases hv; exact exec_zeros rep s

/-- Settles O42: without a previous length nothing is read; otherwise every repeat is its extra bits, then the check. -/
theorem codeLengthRepeats : Obligations.CodeLengthRepeats := by
  intro rep s hs
  refine ⟨fun hnil i hi => ?_, fun p hp v hv => ?_⟩
  · have hrun := congrArg Run.outcome (runRepeatPrev_nil hnil rep)
    simp only [List.mem_cons, List.not_mem_nil, or_false] at hi
    rcases hi with rfl | rfl <;> exact hrun
  · rw [exec_repeat hp hv]
    exact ⟨fun hn => repeat_ok hs hn rep v, fun hn => repeat_short hs hn rep v⟩

end Sys2Proof.Machine
end

section
/-! The literal, length and distance symbols (R181, R183 to R189), and the copy as a tiling (R188). -/

namespace Sys2Proof.Machine

/-! ### Literals -/

/-- Settles O43: a literal is one `emit`, and the room decides. -/
theorem literal : Obligations.Literal := by
  intro b s
  refine ⟨fun hroom hwf => ⟨_, .of_appendAll hwf [b], ?_⟩, fun cap hcap hover => ?_⟩
  · exact congrArg Run.outcome (emit_ok hroom b)
  · exact congrArg Run.outcome (emit_full (fun hroom => absurd (hroom cap hcap) (not_le.2 hover)) b)

/-! ### The symbols and their extra fields -/

theorem lenParts_symbol {i : Instr} {sym extra : Nat} (h : lenParts i = some (sym, extra)) : 257 ≤ sym ∧ sym ≤ 285 := by
  cases i <;> cases h <;> decide

theorem distParts_symbol {j : Instr} {sym extra : Nat} (h : distParts j = some (sym, extra)) : sym ≤ 29 := by
  cases j <;> cases h <;> decide

theorem bitsVal_take_lt (n : Nat) (bits : List Bool) : bitsVal (bits.take n) < 2 ^ n := takeField_lt n bits

/-- The extra value of a LEN element fits its symbol's field: the decoder reads it from that field (R84). -/
theorem lenParts_extra_lt {i : Instr} {sym extra : Nat} (h : lenParts i = some (sym, extra)) :
    extra < 2 ^ lenExtra.getD (sym - 257) 0 := by
  obtain ⟨hlo, hhi⟩ := lenParts_symbol h
  obtain ⟨i', hdec, hi'⟩ := llElement_len hlo hhi (fieldBits (lenExtra.getD (sym - 257) 0) extra ++ [])
  obtain rfl : i = i' := Decoded.element.inj ((llElement_of_lenParts h []).symm.trans hdec)
  obtain ⟨-, hextra⟩ := Prod.mk.inj (Option.some.inj (h.symm.trans hi'))
  exact hextra.trans_lt (bitsVal_take_lt _ _)

/-- The extra value of a DIST element fits its symbol's field (R85). -/
theorem distParts_extra_lt {j : Instr} {sym extra : Nat} (h : distParts j = some (sym, extra)) :
    extra < 2 ^ distExtra.getD sym 0 := by
  obtain ⟨j', hdec, hj'⟩ := distElement_dist (distParts_symbol h) (fieldBits (distExtra.getD sym 0) extra ++ [])
  obtain rfl : j = j' := Decoded.element.inj ((distElement_of_distParts h []).symm.trans hdec)
  obtain ⟨-, hextra⟩ := Prod.mk.inj (Option.some.inj (h.symm.trans hj'))
  exact hextra.trans_lt (bitsVal_take_lt _ _)

/-- Every range of lengths lies within 3 to 258 (R84). -/
theorem lenBase_bounds : ∀ k < 29, 3 ≤ lenBase.getD k 0 ∧ lenBase.getD k 0 + 2 ^ lenExtra.getD k 0 ≤ 259 := by
  decide

/-- Every range of distances lies within 1 to 32768 (R85). -/
theorem distBase_bounds : ∀ k < 30, 1 ≤ distBase.getD k 0 ∧ distBase.getD k 0 + 2 ^ distExtra.getD k 0 ≤ 32769 := by
  decide

/-- A part that begins with a field cut short raises, all bits read (R101). -/
theorem readBits_andThen_short {α : Type} {s : State} (hs : StreamOk s) {n : Nat} (hn : (bitsAhead s).length < n)
    (k : Nat → State → Run α) :
    ∃ u, BitsRead (bitsAhead s).length s u ∧ (readBits n s).andThen k = .raised .outOfData u := by
  obtain ⟨u, hu, hread⟩ := readBits_bitsShort hs hn
  exact ⟨u, hread, by rw [hu, Run.andThen_raised]⟩

/-- Settles O44: the tables bound the length, and the element is its extra field and its latch. -/
theorem lengthSymbol : Obligations.LengthSymbol := by
  intro i sym extra s hi hs
  obtain ⟨hlo, hhi⟩ := lenParts_symbol hi
  have hx := lenParts_extra_lt hi
  obtain ⟨hmin, hmax⟩ := lenBase_bounds (sym - 257) (by omega)
  refine ⟨hlo, hhi, hx, by omega, by omega, fun hn => ?_, fun hn => ?_⟩
  · obtain ⟨r, hrun, hread⟩ := runLen_ok hs extra hn
    exact ⟨_, hread, by rw [exec_len hi, hrun, Run.outcome_ok]⟩
  · obtain ⟨u, hread, hrun⟩ := readBits_andThen_short hs hn _
    exact ⟨u, hread, (exec_len hi s).trans (congrArg Run.outcome hrun)⟩

/-! ### Distances -/

/-- Settles O45: the tables bound the distance, and within `OUT` and its room the copy runs. -/
theorem distanceSymbol : Obligations.DistanceSymbol := by
  intro j sym extra s hj hs hout
  have hx := distParts_extra_lt hj
  obtain ⟨hmin, hmax⟩ := distBase_bounds sym (Nat.lt_succ_of_le (distParts_symbol hj))
  refine ⟨by omega, by omega, fun hn hfar hroom => ?_⟩
  obtain ⟨m, hm, hdense, hlen, hkept, hcopied⟩ := copyBytes_reads s.matchLen hout (by omega) hfar
  obtain ⟨r, hrun, hread⟩ := runDist_ok hs hn hfar hroom hm
  exact ⟨_, m, hread, hdense, hlen, hkept, hcopied, by rw [exec_dist hj, hrun, Run.outcome_ok]⟩

/-- Past its extra field, a distance above `len(OUT)` raises before the room is looked at (R187). -/
theorem runDist_far {s : State} (hs : StreamOk s) {sym extra : Nat} (hn : distExtra.getD sym 0 ≤ (bitsAhead s).length)
    (hfar : Memory.len s.out < distBase.getD sym 0 + extra) :
    ∃ u, BitsRead (distExtra.getD sym 0) s u ∧ runDist sym extra s = .raised .distanceTooFar u := by
  obtain ⟨v, r, hr, hread⟩ := readBits_ok_reader hs hn
  exact ⟨_, hread, by rw [runDist, hr, Run.andThen_ok]; exact if_pos hfar⟩

/-- A distance within `OUT` whose match has no room raises before a byte is copied (R188). -/
theorem runDist_full {s : State} (hs : StreamOk s) {sym extra : Nat} (hn : distExtra.getD sym 0 ≤ (bitsAhead s).length)
    (hfar : distBase.getD sym 0 + extra ≤ Memory.len s.out) (hfull : ¬ roomFor s s.matchLen) :
    ∃ u, BitsRead (distExtra.getD sym 0) s u ∧ runDist sym extra s = .raised .outputCapacity u := by
  obtain ⟨v, r, hr, hread⟩ := readBits_ok_reader hs hn
  have hroom : ¬ hasRoom { s with br := r } s.matchLen = true := fun h => hfull ((hasRoom_iff _ _).1 h)
  refine ⟨_, hread, ?_⟩
  simp only [runDist, hr, Run.andThen_ok, if_neg (not_lt.2 hfar), copyMatch, if_neg hroom, Run.andThen_raised]

/-- Settles O46: the extra field, then the distance, then the room (R313 (f)). -/
theorem distanceFaults : Obligations.DistanceFaults := by
  intro j sym extra s hj hs
  rw [exec_dist hj]
  refine ⟨fun hn => ?_, fun hn hfar => ?_, fun cap hn hfar hcap hover => ?_⟩
  · obtain ⟨u, hread, hrun⟩ := readBits_andThen_short hs hn _
    exact ⟨u, hread, congrArg Run.outcome hrun⟩
  · obtain ⟨u, hread, hrun⟩ := runDist_far hs hn hfar
    exact ⟨u, hread, congrArg Run.outcome hrun⟩
  · obtain ⟨u, hread, hrun⟩ := runDist_full hs hn hfar fun hroom => absurd (hroom cap hcap) (not_le.2 hover)
    exact ⟨u, hread, congrArg Run.outcome hrun⟩

/-! ### The copy as a tiling -/

/-- Where each new byte is the one `d` behind it, going back by `d` as often as it takes leads into the last `d` old
bytes. -/
theorem Memory.read_tiles {m m' : Memory} {d n : Nat} (hd : 0 < d) (hl : d ≤ Memory.len m)
    (hkept : ∀ a < Memory.len m, Memory.read m' a = Memory.read m a)
    (hcopied : ∀ k < n, Memory.read m' (Memory.len m + k) = Memory.read m' (Memory.len m + k - d))
    {k : Nat} (hk : k < n) :
    Memory.read m' (Memory.len m + k) = Memory.read m (Memory.len m - d + k % d) := by
  induction k using Nat.strong_induction_on with
  | _ k ih =>
    rw [hcopied k hk]
    by_cases hkd : k < d
    · rw [Nat.mod_eq_of_lt hkd, ← Nat.sub_add_comm hl, hkept _ (by omega)]
    · rw [Nat.mod_eq_sub_mod (not_lt.1 hkd), ← ih (k - d) (by omega) (by omega), Nat.add_sub_assoc (not_lt.1 hkd)]

/-- Settles O47: a copy answers each byte by the one `d` behind it, and so it tiles. -/
theorem copyTiles : Obligations.CopyTiles := by
  intro m d n hm hd hl
  obtain ⟨m', hcopy, hdense, hlen, hkept, hcopied⟩ := copyBytes_reads n hm hd hl
  exact ⟨m', hcopy, hdense, hlen, hkept, fun k hk => Memory.read_tiles hd hl hkept hcopied hk⟩

end Sys2Proof.Machine
end

section
/-! The zlib header (R211 to R216, R219), and the trailer with the start of the defilter (R217, R260). -/

namespace Sys2Proof.Machine

/-! ### The header -/

/-- CM is the low nibble of CMF (R212). -/
theorem extractLsb'_low_nibble_eq_iff (b : Byte) : b.extractLsb' 0 4 = 8#4 ↔ b.toNat % 16 = 8 := by
  simp [← BitVec.toNat_inj, BitVec.extractLsb'_toNat]

/-- CINFO is the high nibble of CMF (R213). -/
theorem toNat_extractLsb'_high_nibble (b : Byte) : (b.extractLsb' 4 4).toNat = b.toNat / 16 := by
  have hb : b.toNat < 256 := b.isLt
  rw [BitVec.extractLsb'_toNat, Nat.shiftRight_eq_div_pow, Nat.mod_eq_of_lt (by omega)]

/-- The latches are in place before the checks begin: with both bytes there, the header is its checks (R211, R219). -/
theorem exec_zhdr {s : State} (hz : Memory.dense s.zbuf = true) (h : s.br.pos + 2 ≤ Memory.len s.zbuf) (cmf flg : Byte) :
    exec (.zhdr cmf flg) s =
      ((zlibChecks { afterBytes 2 s with cmf := cmf, flg := flg }).andThen fun _ s =>
        .ok () { s with phase := .inflate, infPos := .blockHeader }).outcome := by
  obtain ⟨b, -, hb⟩ := readByte_ok hz (by omega)
  obtain ⟨c, -, hc⟩ := readByte_ok (s := { afterBytes 1 s with cmf := cmf }) hz h
  simp only [exec, execZhdr, hb, hc, Run.andThen_ok]
  rfl

/-- A header without its first byte latches nothing; without its second, CMF alone (R102, R211). -/
theorem exec_zhdr_short {s : State} (hz : Memory.dense s.zbuf = true) (h : Memory.len s.zbuf < s.br.pos + 2)
    (cmf flg : Byte) :
    ∃ t, exec (.zhdr cmf flg) s = .next (raise .outOfData t) ∧ t = { s with br := t.br, cmf := t.cmf } := by
  by_cases h1 : s.br.pos < Memory.len s.zbuf
  · obtain ⟨b, -, hb⟩ := readByte_ok hz h1
    have hend := readByte_end (s := { afterBytes 1 s with cmf := cmf }) (Nat.le_of_lt_succ h)
    exact ⟨alignReader { afterBytes 1 s with cmf := cmf },
      by simp only [exec, execZhdr, hb, hend, Run.andThen_ok, Run.andThen_raised, Run.outcome_raised], rfl⟩
  · have hend := readByte_end (Nat.not_lt.1 h1)
    exact ⟨alignReader s, by simp only [exec, execZhdr, hend, Run.andThen_raised, Run.outcome_raised], rfl⟩

/-- Settles O36: the two bytes are read and latched, and the first check that fails decides. -/
theorem zlibHeader : Obligations.ZlibHeader := by
  intro cmf flg s hz
  refine ⟨fun h => ⟨_, rfl, ?_⟩, fun h => exec_zhdr_short hz h cmf flg⟩
  rw [exec_zhdr hz h]
  simp only [zlibChecks, ne_eq, extractLsb'_low_nibble_eq_iff, toNat_extractLsb'_high_nibble]
  split_ifs <;> rfl

/-! ### The trailer -/

/-- With its four bytes there, the trailer is the start of the defilter, whatever the bytes are (R217). -/
theorem exec_ztrl {s : State} (hz : Memory.dense s.zbuf = true) (h : s.br.pos + 4 ≤ Memory.len s.zbuf) (adler : Word) :
    exec (.ztrl adler) s = (enterDefilter (afterBytes 4 { s with phase := .zlibTrl })).outcome := by
  obtain ⟨v, hv⟩ := readBytes_ok (n := 3) (s := { s with phase := .zlibTrl }) hz h
  simp only [exec, execZtrl, hv, Run.andThen_ok]

/-- A trailer that is cut short raises (R103, R217). -/
theorem exec_ztrl_short {s : State} (hz : Memory.dense s.zbuf = true) (h : Memory.len s.zbuf < s.br.pos + 4)
    (adler : Word) :
    ∃ t, exec (.ztrl adler) s = .next (raise .outOfData t) ∧ t = { s with phase := .zlibTrl, br := t.br } := by
  obtain ⟨t, ht, hr⟩ := readBytes_short (n := 3) (s := { s with phase := .zlibTrl }) hz h
  exact ⟨t, by simp only [exec, execZtrl, ht, Run.andThen_raised, Run.outcome_raised], hr⟩

/-- Settles O37: after the four bytes the three ends of `enterDefilter` are the three clauses. -/
theorem trailer : Obligations.Trailer := by
  intro adler s hz
  refine ⟨fun h => ⟨_, rfl, ?_⟩, fun h => exec_ztrl_short hz h adler⟩
  rw [exec_ztrl hz h]
  rcases enterDefilter_cases (afterBytes 4 { s with phase := .zlibTrl }) with ⟨hl, he⟩ | ⟨hl, h0, he⟩ | ⟨hl, h0, he⟩
  · rw [he]
    exact congrArg Host.Outcome.next (if_pos hl).symm
  · rw [he]
    exact congrArg Host.Outcome.next ((if_neg (not_lt.2 hl)).trans (if_pos h0)).symm
  · rw [he]
    exact congrArg Host.Outcome.next ((if_neg (not_lt.2 hl)).trans (if_neg h0.ne')).symm

end Sys2Proof.Machine
end

section
/-! The bytes of `IN` as the bits ahead of the cursor (R34, R71), and the reads that take them whole or raise (R230). -/

namespace Sys2Proof.Machine

/-! ### What the decoder takes of the bits of `IN` -/

/-- The bits of the bytes of `IN` from offset `a` up to `len(IN)`; the bits ahead are those from `PCUR` on (R34). -/
def inBitsFrom (s : State) (a : Nat) : List Bool := bytesBits (inBytes s a (s.lenIn - a))

theorem inBitsAhead_eq (s : State) : inBitsAhead s = inBitsFrom s s.pcur := rfl

@[simp] theorem length_inBitsFrom (s : State) (a : Nat) : (inBitsFrom s a).length = 8 * (s.lenIn - a) := by
  simp [inBitsFrom]

/-- The big-endian word of `IN` at offset `a` (R55). -/
def inWord (s : State) (a : Nat) : Word := be32 (inByte s a) (inByte s (a + 1)) (inByte s (a + 2)) (inByte s (a + 3))

section inBits
variable {s : State} {a : Nat}

theorem inBitsFrom_eq_append {n : Nat} (h : a + n ≤ s.lenIn) :
    inBitsFrom s a = bytesBits (inBytes s a n) ++ inBitsFrom s (a + n) := by
  rw [inBitsFrom, show s.lenIn - a = n + (s.lenIn - (a + n)) by omega, inBytes_add, bytesBits_append, inBitsFrom]

theorem takeBytes_inBitsFrom {n : Nat} (h : a + n ≤ s.lenIn) :
    takeBytes n (inBitsFrom s a) = (inBytes s a n, inBitsFrom s (a + n)) := by
  rw [inBitsFrom_eq_append h, takeBytes_bytesBits _ (length_inBytes s a n)]

theorem takeByte_inBitsFrom (h : a + 1 ≤ s.lenIn) : takeByte (inBitsFrom s a) = (inByte s a, inBitsFrom s (a + 1)) := by
  rw [inBitsFrom_eq_append h]
  exact takeByte_byteBits _ _

theorem takeBe32_inBitsFrom (h : a + 4 ≤ s.lenIn) : takeBe32 (inBitsFrom s a) = (inWord s a, inBitsFrom s (a + 4)) := by
  rw [takeBe32, takeByte_inBitsFrom (by omega), takeByte_inBitsFrom (by omega), takeByte_inBitsFrom (by omega),
    takeByte_inBitsFrom (by omega)]
  rfl

end inBits

/-! ### Reads of `IN` in sequence -/

/-- `r`, begun in `s`, reads the next `n` bytes of `IN`: it comes to `g` where they are there, and raises C_OUT_OF_DATA where
they are not, in a state with `P` (R230). -/
structure TakesIn {α : Type} (n : Nat) (P : State → Prop) (s : State) (r g : Run α) : Prop where
  whole : s.pcur + n ≤ s.lenIn → r = g
  short : s.lenIn < s.pcur + n → ∃ t, r = .raised .outOfData t ∧ P t

/-- What takes no byte after the last read does not change what is read. -/
theorem TakesIn.last {α β : Type} {n : Nat} {P : State → Prop} {s t : State} {r : Run α} {a : α}
    (h : TakesIn n P s r (.ok a t)) (k : α → State → Run β) : TakesIn n P s (r.andThen k) (k a t) where
  whole hn := by rw [h.whole hn, Run.andThen_ok]
  short hn := by
    obtain ⟨u, hr, hu⟩ := h.short hn
    exact ⟨u, by rw [hr, Run.andThen_raised], hu⟩

/-- A read after a read. The second may begin in a state `s'` with latches written, at the cursor the first one leaves. -/
theorem TakesIn.andThen {α β : Type} {m n : Nat} {P : State → Prop} {s s' t : State} {r : Run α} {a : α}
    {k : α → State → Run β} {g : Run β} (h : TakesIn m P s r (.ok a t)) (hk : TakesIn n P s' (k a t) g)
    (hp : s'.pcur = s.pcur + m := by rfl) (hl : s'.lenIn = s.lenIn := by rfl) :
    TakesIn (m + n) P s (r.andThen k) g where
  whole hn := by rw [h.whole (by omega), Run.andThen_ok, hk.whole (by omega)]
  short hn := by
    by_cases hm : s.lenIn < s.pcur + m
    · exact (h.last k).short hm
    · rw [h.whole (by omega), Run.andThen_ok]
      exact hk.short (by omega)

/-- `t` is `s` but for the cursor (R31). -/
def cursorOnly (s t : State) : Prop := t = { s with pcur := t.pcur }

section reads
variable {P : State → Prop} {s : State} (hP : ∀ p, P { s with pcur := p })
include hP

theorem rd8_takesIn : TakesIn 1 P s (rd8 s) (.ok (inByte s s.pcur) { s with pcur := s.pcur + 1 }) :=
  ⟨rd8_ok, fun h => ⟨s, rd8_short (Nat.le_of_lt_succ h), hP s.pcur⟩⟩

theorem rd32_takesIn : TakesIn 4 P s (rd32 s) (.ok (inWord s s.pcur) { s with pcur := s.pcur + 4 }) :=
  ⟨rd32_ok, fun h => ⟨_, rd32_short h, hP _⟩⟩

theorem skip_takesIn (n : Nat) : TakesIn n P s (skip n s) (.ok () { s with pcur := s.pcur + n }) :=
  ⟨skip_ok, fun h => ⟨s, skip_short h, hP s.pcur⟩⟩

end reads

/-- A chunk header is 8 bytes (R232). -/
theorem chunkHeader_takesIn (s : State) :
    TakesIn 8 (cursorOnly s) s (chunkHeader s) (.ok () { s with pcur := s.pcur + 8 }) :=
  (rd32_takesIn fun _ => rfl).andThen (n := 4) ((rd32_takesIn fun _ => rfl).last _)

/-- A skipped chunk is its payload and the 4 bytes of its CRC (R245, R246). -/
theorem skipChunk_takesIn (len : Word) (s : State) :
    TakesIn (len.toNat + 4) (cursorOnly s) s (skipChunk len s) (.ok () { s with pcur := s.pcur + len.toNat + 4 }) :=
  (skip_takesIn (fun _ => rfl) _).andThen (skip_takesIn (fun _ => rfl) 4)

end Sys2Proof.Machine
end

section
/-! The PNG elements: the signature (R231), the chunk header and what it selects (R232, R233, R243), and the meanings of the
chunks (R234 to R246). -/

namespace Sys2Proof.Machine

/-! ### The signature -/

theorem fetchSignature_illegal {s u : State} {v : List Byte} {c : Cause} (h : rdn 8 s = .ok v u)
    (hd : decode s.cfg.missingBranch .signature (inBitsAhead s) = .illegal c) : fetchSignature s = .raised c u := by
  simp only [fetchSignature, h, hd]

/-- The next 8 bytes are the signature or an illegal encoding (R89, R231). -/
theorem decodeSignature_inBitsAhead {s : State} (h : s.pcur + 8 ≤ s.lenIn) :
    decodeSignature (inBitsAhead s) =
      if inBytes s s.pcur 8 = signatureBytes then .element .sig else .illegal .pngSignature := by
  simp only [decodeSignature, inBitsAhead_eq, takeBytes_inBitsFrom h, length_inBytes, lt_irrefl, if_false]

theorem exec_sig {s : State} (h : s.pcur + 8 ≤ s.lenIn) :
    exec .sig s = .next { s with pcur := s.pcur + 8, pngPos := .firstChunk } := by
  simp only [exec, execSig, rdn_ok h, Run.andThen_ok, Run.outcome_ok]

/-- Settles O30: the fetch reads 8 bytes or raises, and the decoder compares the bytes it has read. -/
theorem signature : Obligations.Signature := by
  refine ⟨fun s v hh hp hq => ⟨fun hs => ?_, fun hn hv hr => ?_⟩, fun s => exec_sig⟩
  · rw [step_engine hh, engineStep_raised ((fetch_signature hp hq).trans (fetchSignature_raised (rdn_short hs)))]
  · have hd := decodeSignature_inBitsAhead hn
    rw [inBytes_eq hv hr] at hd
    rw [step_engine hh]
    split_ifs with heq
    · rw [engineStep_element ((fetch_signature hp hq).trans
        (fetchSignature_element (rdn_ok hn) (hd.trans (if_pos heq)))), exec_sig hn]
    · rw [engineStep_raised ((fetch_signature hp hq).trans
        (fetchSignature_illegal (rdn_ok hn) (hd.trans (if_neg heq))))]

/-! ### The chunk header and what it selects -/

/-- A stream that ends inside a chunk header faults, wherever the header stands (R232). -/
theorem step_chunk_short {s : State} (hh : s.host = []) (hp : s.phase = .png) (hq : s.pngPos ≠ .signature)
    (hs : s.lenIn < s.pcur + 8) : ∃ t, step s = .next (raise .outOfData t) ∧ t = { s with pcur := t.pcur } := by
  obtain ⟨e, hf⟩ := fetch_chunk hp hq
  obtain ⟨t, hr, ht⟩ := (chunkHeader_takesIn s).short hs
  exact ⟨t, step_of_fetchAfter_raised hh hf hr, ht⟩

/-- Where the reads of the loop end and the bits ahead are an illegal encoding, the step is the fault entry (R89). -/
theorem step_of_fetchAfter_illegal {s u : State} {r : Run Unit} {d : Decoded} {c : Cause} (hh : s.host = [])
    (hf : fetch s = fetchAfter r d) (hr : r = .ok () u) (hd : d = .illegal c) : step s = .next (raise c u) := by
  rw [step_engine hh, engineStep_raised (hf.trans (by rw [hr, hd]; rfl))]

/-- The first chunk: the type is checked, then the length (R233). -/
theorem decodeFirstChunk_inBitsAhead {s : State} (h : s.pcur + 8 ≤ s.lenIn) :
    decodeFirstChunk (inBitsAhead s) =
      if inWord s (s.pcur + 4) ≠ typeIhdr then .illegal .firstNotIhdr
      else if inWord s s.pcur ≠ 13 then .illegal .ihdrLength
      else .element (decodeIhdr (inBitsFrom s (s.pcur + 8))) := by
  have hl : ¬ (inBitsFrom s s.pcur).length < 64 := by rw [length_inBitsFrom]; omega
  simp only [decodeFirstChunk, inBitsAhead_eq, if_neg hl, takeBe32_inBitsFrom (show s.pcur + 4 ≤ s.lenIn by omega),
    takeBe32_inBitsFrom (show s.pcur + 4 + 4 ≤ s.lenIn from h)]

/-- The operands of an IHDR, as far as the input holds them, in the order of F_IHDR (R74, R234). -/
theorem decodeIhdr_inBitsFrom (s : State) (a : Nat) :
    ∃ width height depth ctype cmeth fmeth imeth crc,
      decodeIhdr (inBitsFrom s a) = .chunkIhdr width height depth ctype cmeth fmeth imeth crc ∧
      (a + 13 ≤ s.lenIn → width = inWord s a ∧ height = inWord s (a + 4) ∧ depth = inByte s (a + 8) ∧
        ctype = inByte s (a + 9) ∧ cmeth = inByte s (a + 10) ∧ fmeth = inByte s (a + 11) ∧ imeth = inByte s (a + 12)) ∧
      (a + 17 ≤ s.lenIn → crc = inWord s (a + 13)) := by
  refine ⟨_, _, _, _, _, _, _, _, rfl, fun h => ?_, fun h => ?_⟩
  · simp (disch := omega) only [takeBe32_inBitsFrom, takeByte_inBitsFrom, and_self]
  · simp (disch := omega) only [takeBe32_inBitsFrom, takeByte_inBitsFrom]

/-- Settles O31: the header's two words decide, and an accepted IHDR takes its operands from the bytes after it. -/
theorem firstChunk : Obligations.FirstChunk := by
  intro s v hh hp hq
  refine ⟨step_chunk_short hh hp (by rw [hq]; decide), fun hn hv hr => ?_⟩
  -- The words of the header bytes `v` are then the words of `IN`, by computation.
  obtain rfl := inBytes_eq hv hr
  have hf := fetch_firstChunk hp hq
  have hc := (chunkHeader_takesIn s).whole hn
  have hd := decodeFirstChunk_inBitsAhead hn
  refine ⟨fun ht => ?_, fun ht hl => ?_, fun ht hl => ?_⟩
  · exact step_of_fetchAfter_illegal hh hf hc (hd.trans (if_pos ht))
  · exact step_of_fetchAfter_illegal hh hf hc (hd.trans ((if_neg (not_not.2 ht)).trans (if_pos hl)))
  · obtain ⟨width, height, depth, ctype, cmeth, fmeth, imeth, crc, hi, hpay, hcrc⟩ :=
      decodeIhdr_inBitsFrom s (s.pcur + 8)
    have hd := hd.trans ((if_neg (not_not.2 ht)).trans (if_neg (not_not.2 hl)))
    rw [hi] at hd
    exact ⟨width, height, depth, ctype, cmeth, fmeth, imeth, crc, step_of_fetchAfter_ok hh hf hc hd, hpay, hcrc⟩

/-- A chunk of the chunk loop whose payload is in the input: the type selects the element (R73, R243). -/
theorem decodeChunk_inBitsAhead {s : State} {len : Word} (hlen : inWord s s.pcur = len)
    (h : s.pcur + 8 + len.toNat ≤ s.lenIn) :
    decodeChunk (inBitsAhead s) = .element (
      let type := inWord s (s.pcur + 4)
      let payload := inBytes s (s.pcur + 8) len.toNat
      let crc := (takeBe32 (inBitsFrom s (s.pcur + 8 + len.toNat))).1
      if type = typeIdat then .chunkIdat len payload crc
      else if type = typeIend then .chunkIend len payload crc
      else .chunkOther type len payload crc) := by
  have hl : ¬ (inBitsFrom s s.pcur).length < 64 := by rw [length_inBitsFrom]; omega
  simp only [decodeChunk, inBitsAhead_eq, if_neg hl, takeBe32_inBitsFrom (show s.pcur + 4 ≤ s.lenIn by omega),
    takeBe32_inBitsFrom (show s.pcur + 4 + 4 ≤ s.lenIn by omega), hlen, takeBytes_inBitsFrom h, apply_ite Decoded.element]

/-- Settles O32: header and payload are the bytes of the input in order, and the decoder takes each part from its place. -/
theorem chunkLoop : Obligations.ChunkLoop := by
  intro s v payload hh hp hq
  refine ⟨step_chunk_short hh hp (by rw [hq]; decide), fun len type hv hlen htype hpl hn hr => ?_⟩
  have hbytes : inBytes s s.pcur 8 ++ inBytes s (s.pcur + 8) len.toNat = v ++ payload := by
    rw [← inBytes_add, inBytes_eq (by rw [List.length_append, hv, hpl]) hr]
  obtain ⟨rfl, rfl⟩ := List.append_inj hbytes (by rw [length_inBytes, hv])
  obtain rfl : type = inWord s (s.pcur + 4) := htype
  refine ⟨_, step_of_fetchAfter_ok hh (fetch_chunkLoop hp hq) ((chunkHeader_takesIn s).whole (by omega))
    (decodeChunk_inBitsAhead hlen.symm hn), fun hc => ?_⟩
  rw [takeBe32_inBitsFrom (by omega), Nat.add_right_comm s.pcur 9, Nat.add_right_comm s.pcur 10,
    Nat.add_right_comm s.pcur 11, Nat.add_right_comm s.pcur 8]
  rfl

/-! ### The IHDR -/

/-- `t` is `s` but for the cursor and the latches of an IHDR (R31, R32). -/
def ihdrOnly (s t : State) : Prop :=
  t = { s with
    w := t.w, h := t.h, depth := t.depth, ctype := t.ctype, cmeth := t.cmeth, fmeth := t.fmeth, imeth := t.imeth,
    pcur := t.pcur }

/-- An IHDR is 17 bytes after its header: where they are there it comes to its checks, every field latched (R234, R235). -/
theorem exec_chunkIhdr (width height : Word) (depth ctype cmeth fmeth imeth : Byte) (crc : Word) (s : State) :
    ∃ r, exec (.chunkIhdr width height depth ctype cmeth fmeth imeth crc) s = r.outcome ∧
      TakesIn 17 (ihdrOnly s) s r
        ((ihdrChecks { s with
            w := width, h := height, depth := depth, ctype := ctype, cmeth := cmeth, fmeth := fmeth, imeth := imeth,
            pcur := s.pcur + 17 }).andThen fun _ s => .ok () { s with pngPos := .chunkLoop }) :=
  ⟨_, rfl,
    (rd32_takesIn fun _ => rfl).andThen (n := 13) <|
    (rd32_takesIn fun _ => rfl).andThen (n := 9) <|
    (rd8_takesIn fun _ => rfl).andThen (n := 8) <|
    (rd8_takesIn fun _ => rfl).andThen (n := 7) <|
    (rd8_takesIn fun _ => rfl).andThen (n := 6) <|
    (rd8_takesIn fun _ => rfl).andThen (n := 5) <|
    (rd8_takesIn fun _ => rfl).andThen (n := 4) <|
    (skip_takesIn (fun _ => rfl) 4).last _⟩

/-- Settles O33: an IHDR that is there comes to its checks, and the first that fails decides. -/
theorem ihdr : Obligations.Ihdr := by
  intro width height depth ctype cmeth fmeth imeth crc s
  obtain ⟨r, hr, htakes⟩ := exec_chunkIhdr width height depth ctype cmeth fmeth imeth crc s
  refine ⟨fun hn => ⟨_, rfl, ?_⟩, fun hs => ?_⟩
  · rw [hr, htakes.whole hn]
    simp only [ihdrChecks]
    split_ifs <;> rfl
  · obtain ⟨t, ht, ho⟩ := htakes.short hs
    exact ⟨t, by rw [hr, ht, Run.outcome_raised], ho⟩

/-! ### The other chunks -/

/-- An IDAT whose payload is there has appended it before its CRC is skipped (R244). -/
theorem exec_chunkIdat {len : Word} {s : State} (h : s.pcur + len.toNat ≤ s.lenIn) (payload : List Byte) (crc : Word) :
    exec (.chunkIdat len payload crc) s =
      (skip 4 { s with pcur := s.pcur + len.toNat, zbuf := Memory.appendAll s.zbuf payload }).outcome := by
  simp only [exec, execChunkIdat, rdn_ok h, Run.andThen_ok]

/-- Settles O34: the payload is read whole or not at all, and appended before the CRC is skipped. -/
theorem idat : Obligations.Idat := by
  intro len payload crc s hz
  have happ := Appended.of_appendAll hz payload
  refine ⟨fun hn => ⟨_, happ, ?_⟩, fun hs => ?_, fun hn hs => ⟨_, happ, ?_⟩⟩
  · rw [exec_chunkIdat (by omega), skip_ok hn, Run.outcome_ok]
  · simp only [exec, execChunkIdat, rdn_short hs, Run.andThen_raised, Run.outcome_raised]
  · rw [exec_chunkIdat hn, skip_short hs, Run.outcome_raised]

theorem enterZlib_outcome (s : State) :
    (enterZlib s).outcome = .next (
      if 2 ^ s.cfg.addrBits ≤ need s then raise .sizeOverflow s
      else { s with phase := .zlibHdr, br := { pos := 0, acc := 0, cnt := 0 } }) := by
  unfold enterZlib
  split <;> rfl

/-- Settles O35: both chunks are `skipChunk`, which an IEND follows with the size check. -/
theorem skippedChunks : Obligations.SkippedChunks := by
  intro type len payload crc s
  have hskip := skipChunk_takesIn len s
  have hend := hskip.last fun _ s => enterZlib s
  refine ⟨fun hn => ⟨?_, ?_⟩, fun hs i hi => ?_⟩
  · simp only [exec, execChunkIend, hend.whole hn]
    exact enterZlib_outcome _
  · simp only [exec, execChunkOther, hskip.whole hn, Run.outcome_ok]
  · rcases List.mem_pair.1 hi with rfl | rfl
    · obtain ⟨t, ht, ho⟩ := hend.short hs
      exact ⟨t, by simp only [exec, execChunkIend, ht, Run.outcome_raised], ho⟩
    · obtain ⟨t, ht, ho⟩ := hskip.short hs
      exact ⟨t, by simp only [exec, execChunkOther, ht, Run.outcome_raised], ho⟩

end Sys2Proof.Machine
end

section
/-! The scanlines: the predictors (R263 to R267), the reconstruction of a row (R261, R262), and what a row does to the
machine (R260, R268, R271, R296). -/

namespace Sys2Proof.Machine

/-! ### The predictors -/

/-- Paeth's three distances from `p = a + b − c`, written as differences of the neighbours (R267). -/
theorem predPaeth_eq (a b c : Byte) :
    predPaeth a b c =
      if ((b.toNat : Int) - c.toNat).natAbs ≤ ((a.toNat : Int) - c.toNat).natAbs ∧
          ((b.toNat : Int) - c.toNat).natAbs ≤ ((a.toNat : Int) + b.toNat - 2 * c.toNat).natAbs then a
      else if ((a.toNat : Int) - c.toNat).natAbs ≤ ((a.toNat : Int) + b.toNat - 2 * c.toNat).natAbs then b
      else c := by
  have ha : (a.toNat : Int) + b.toNat - c.toNat - a.toNat = b.toNat - c.toNat := by ring
  have hb : (a.toNat : Int) + b.toNat - c.toNat - b.toNat = a.toNat - c.toNat := by ring
  have hc : (a.toNat : Int) + b.toNat - c.toNat - c.toNat = a.toNat + b.toNat - 2 * c.toNat := by ring
  simp only [predPaeth, ha, hb, hc]

/-- Without the two upper neighbours, Paeth is Sub (R268). -/
theorem predPaeth_zero_zero (a : Byte) : predPaeth a 0 0 = a := by
  rw [predPaeth_eq]
  exact if_pos (by simp)

/-- Without the two left neighbours, Paeth is Up: `b` is at distance 0, and `a` is as near only where `b` is 0 too (R268). -/
theorem predPaeth_zero_left (b : Byte) : predPaeth 0 b 0 = b := by
  rcases eq_or_ne b 0 with rfl | hb
  · exact predPaeth_zero_zero 0
  · have hpos : ¬ b.toNat = 0 := fun h => hb (BitVec.eq_of_toNat_eq h)
    rw [predPaeth_eq, if_neg (by simp [hpos]), if_pos (by simp)]

/-- The half of the sum of two bytes is a byte (R266). -/
theorem toNat_predAverage (a b c : Byte) : (predAverage a b c).toNat = (a.toNat + b.toNat) / 2 := by
  have ha := a.isLt
  have hb := b.isLt
  exact (BitVec.toNat_ofNat _ _).trans (Nat.mod_eq_of_lt (by omega))

/-- Settles O50: each premise decides which of the three distances Paeth takes. -/
theorem predictors : Obligations.Predictors := by
  intro a b c
  refine ⟨rfl, rfl, rfl, toNat_predAverage a b c, fun hab hac => ?_, fun hna hbc => ?_, fun hna hcb => ?_,
    predPaeth_zero_zero a, predPaeth_zero_left b, by decide⟩
  · rw [predPaeth_eq, if_pos ⟨hab, hac⟩]
  · rw [predPaeth_eq, if_neg (by omega), if_pos hbc]
  · rw [predPaeth_eq, if_neg (by omega), if_neg (not_le.2 hcb)]

/-! ### The neighbours -/

theorem getElem?_of_prefix {cur r : List Byte} (h : cur <+: r) {i : Nat} {v : Byte} (hv : cur[i]? = some v) :
    r[i]? = some v := by
  obtain ⟨hi, rfl⟩ := List.getElem?_eq_some_iff.1 hv
  exact List.prefix_iff_getElem?.1 h i hi

/-- The byte to the left stays where the row grows (R262). -/
theorem leftOf_of_prefix {bpp i : Nat} {cur r : List Byte} {a : Byte} (h : cur <+: r) (ha : leftOf bpp i cur = some a) :
    leftOf bpp i r = some a := by
  unfold leftOf at ha ⊢
  split at ha
  · rw [if_pos ‹_›]
    exact getElem?_of_prefix h ha
  · rw [if_neg ‹_›]
    exact ha

theorem getD_of_leftOf {bpp i : Nat} {line : List Byte} {a : Byte} (h : leftOf bpp i line = some a) :
    (if bpp ≤ i then line.getD (i - bpp) 0 else 0) = a := by
  unfold leftOf at h
  split at h
  · rw [if_pos ‹_›, List.getD_eq_getElem?_getD, h, Option.getD_some]
  · rw [if_neg ‹_›]
    exact Option.some.inj h

/-- The three bytes that the loop of a row looks up are the neighbours (R262). -/
theorem neighbours_eq {s : State} {cur : List Byte} {i : Nat} {a b c : Byte} (ha : leftOf s.bpp i cur = some a)
    (hb : s.prev[i]? = some b) (hc : leftOf s.bpp i s.prev = some c) : neighbours s cur i = (a, b, c) := by
  rw [neighbours, getD_of_leftOf ha, getD_of_leftOf hc, List.getD_eq_getElem?_getD, hb, Option.getD_some]

/-! ### The reconstruction of a row -/

section reconstruct

variable {pred : Byte → Byte → Byte → Byte} {prev cur xs r : List Byte}

/-- A pass of the loop that goes on has found the three neighbours (R261). -/
theorem reconstruct_cons {bpp : Nat} {x : Byte} (h : reconstruct pred bpp prev cur (x :: xs) = some r) :
    ∃ a b c, leftOf bpp cur.length cur = some a ∧ prev[cur.length]? = some b ∧ leftOf bpp cur.length prev = some c ∧
      reconstruct pred bpp prev (cur ++ [x + pred a b c]) xs = some r := by
  simp only [reconstruct] at h
  split at h
  · exact ⟨_, _, _, ‹_›, ‹_›, ‹_›, h⟩
  · cases h

/-- The loop keeps the bytes it has reconstructed (R261). -/
theorem prefix_of_reconstruct {bpp : Nat} (h : reconstruct pred bpp prev cur xs = some r) : cur <+: r := by
  induction xs generalizing cur with
  | nil => exact Option.some.inj h ▸ List.prefix_rfl
  | cons x xs ih =>
    obtain ⟨a, b, c, -, -, -, hr⟩ := reconstruct_cons h
    exact (List.prefix_append cur _).trans (ih hr)

/-- Each byte of a reconstructed row is its filtered byte plus its predictor over the neighbours in that same row and in the
previous one (R261, R262). -/
theorem getElem?_reconstruct {s : State} (h : reconstruct pred s.bpp s.prev cur xs = some r) {k : Nat}
    (hk : k < xs.length) :
    r[cur.length + k]? = some (xs.getD k 0 + pred (neighbours s r (cur.length + k)).1
      (neighbours s r (cur.length + k)).2.1 (neighbours s r (cur.length + k)).2.2) := by
  induction xs generalizing cur k with
  | nil => exact absurd hk (Nat.not_lt_zero k)
  | cons x xs ih =>
    obtain ⟨a, b, c, ha, hb, hc, hr⟩ := reconstruct_cons h
    cases k with
    | zero =>
      have ha' := leftOf_of_prefix (prefix_of_reconstruct h) ha
      rw [Nat.add_zero, neighbours_eq ha' hb hc]
      exact getElem?_of_prefix (prefix_of_reconstruct hr) List.getElem?_concat_length
    | succ k =>
      have := ih hr (Nat.lt_of_succ_lt_succ hk)
      rwa [List.length_append, List.length_singleton, Nat.add_right_comm] at this

end reconstruct

/-! ### The row -/

/-- A row whose filtered bytes are there is reconstructed from a previous row of its length; a pixel of no bytes makes an
empty row (R261). -/
theorem reconstruct_stride (pred : Byte → Byte → Byte → Byte) (x : List Byte) {s : State}
    (hprev : stride s ≤ s.prev.length) : ∃ cur, reconstruct pred s.bpp s.prev [] (x.take (stride s)) = some cur := by
  rcases Nat.eq_zero_or_pos s.bpp with hb | hb
  · have hn : stride s = 0 := by rw [stride, hb, Nat.mul_zero]
    exact ⟨[], by rw [hn]; rfl⟩
  · exact reconstruct_isSome pred hb _ (by rw [List.length_nil, List.length_take]; omega)

/-- A row that is reconstructed is written to `PIX` and followed by the next row (R261, R271). -/
theorem runRow_ok {pred : Byte → Byte → Byte → Byte} {x cur : List Byte} {s : State} (hx : stride s ≤ x.length)
    (h : reconstruct pred s.bpp s.prev [] (x.take (stride s)) = some cur) :
    runRow pred x s =
      .ok () (nextRow { s with cur := cur, pix := Memory.writeAll s.pix (s.row * stride s) cur }) := by
  simp only [runRow, if_neg (not_lt.2 hx), h]

/-- Settles O49: the row is reconstructed, its write is `writeAll` at its own stride, and `nextRow` ends the pass. -/
theorem rows : Obligations.Rows := by
  refine ⟨fun s => rfl, fun i pred x s hi hx hprev hpix => ?_⟩
  obtain ⟨cur, hcur⟩ := reconstruct_stride pred x hprev
  have htake : (x.take (stride s)).length = stride s := by rw [List.length_take, Nat.min_eq_left hx]
  have hlen : cur.length = stride s := (reconstruct_length hcur).trans ((Nat.zero_add _).trans htake)
  refine ⟨cur, Memory.writeAll s.pix (s.row * stride s) cur, hlen, fun k hk => ?_, fun a => ?_, ?_⟩
  · have hbyte := getElem?_reconstruct hcur (htake.symm ▸ hk)
    rwa [List.length_nil, Nat.zero_add, List.getD_eq_getElem?_getD, List.getElem?_take_of_lt hk,
      ← List.getD_eq_getElem?_getD] at hbyte
  · rw [Memory.read_writeAll hpix, hlen]
  · rw [exec_row hi, runRow_ok hx hcur, Run.outcome_ok]
    rfl

end Sys2Proof.Machine
end

section
/-! The host's moves (R22, R291, R297): a start forgets the last job and is the only way into one; loads, collected
pixels and waits. -/

namespace Sys2Proof.Machine

/-- What a start does (R22, R291). -/
theorem step_start {s : State} {rest : List HostMove} {v : Nat} (hh : s.host = .writeReg 0 v :: rest)
    (hv : v.testBit 0 = true) (hb : isBusy s = false) : step s = .next (startJob { s with host := rest }) :=
  (controlRegister.1 s rest v hh).1 hb hv

/-- Settles O4: of all moves only a start leads into a job, and it writes what R45 lists. -/
theorem jobStart : Obligations.JobStart := by
  refine ⟨fun s t hs ht hr => ?_, fun s rest v hh hv hb => ⟨_, step_start hh hv hb, ?_⟩⟩
  · cases step_move ht with
    | start h hv hb => exact ⟨_, _, h, hv, hb⟩
    | quiet h => rw [h] at hr; exact absurd hr (by simp [hs])
    | lengthWritten _ => exact absurd hr (by simp [hs])
    | powerOn _ => cases hr
    | engine h _ => exact absurd h (by simp [hs])
  · simp [statusBusy, noTree]

/-- A start keeps the parameters and the host's side alone, and writes every other field (R45, R298). -/
theorem startJob_congr {s t : State} (hcfg : s.cfg = t.cfg) (hhost : s.host = t.host) (hread : s.hostRead = t.hostRead)
    (hlen : s.inLen = t.inLen) (hin : s.inSpace = t.inSpace) (hdraw : s.inDraw = t.inDraw) : startJob s = startJob t := by
  simp only [startJob, hcfg, hhost, hread, hlen, hin, hdraw]

/-- Two states that step alike run alike from the first step on. -/
theorem core_run_congr {s t : State} (h : step s = step t) (n : Nat) : core.run (n + 1) s = core.run (n + 1) t := by
  have hcore : core.step s = core.step t := h
  simp only [Host.Core.run, hcore]

/-- Settles O5: after the start the two machines are in one state. -/
theorem nextJobForgets : Obligations.NextJobForgets := by
  intro s₁ s₂ rest v n h₁ h₂ hv hb₁ hb₂ hcfg hread hlen hin hdraw
  have heq : startJob { s₁ with host := rest } = startJob { s₂ with host := rest } :=
    startJob_congr hcfg rfl hread hlen hin hdraw
  refine core_run_congr ?_ n
  rw [step_start h₁ hv hb₁, step_start h₂ hv hb₂, heq]

/-- The engine reads the bytes of a load as they were written, and the others as before (R12, R297). -/
theorem some_inByte_load {s : State} (hm : Memory.wf s.inSpace = true) (offset : Nat) (bytes : List Byte)
    (rest : List HostMove) (a : Nat) :
    some (inByte { s with host := rest, inSpace := Memory.writeAll s.inSpace offset bytes } a) =
      if offset ≤ a ∧ a < offset + bytes.length then bytes[a - offset]? else some (inByte s a) := by
  simp only [inByte, Memory.read_writeAll hm]
  split_ifs with h
  · rw [List.getElem?_eq_getElem (by omega), Option.getD_some]
  · rfl

/-- Settles O6, move by move. -/
theorem hostMoves : Obligations.HostMoves := by
  refine ⟨fun s rest offset bytes hh => ?load, fun s rest offset hh => ?pix, fun s rest hh => ?wait,
    fun s rest hh => by rw [step_host hh]⟩
  case load =>
    rw [step_host hh]
    refine ⟨fun hb => if_pos hb, fun hb hout => ?_, fun hb hin hm => ?_⟩
    · exact (if_neg (ne_true_of_eq_false hb)).trans (if_pos hout)
    · refine ⟨Memory.writeAll s.inSpace offset bytes, ?_, Memory.read_writeAll hm offset bytes,
        some_inByte_load hm offset bytes rest⟩
      exact (if_neg (ne_true_of_eq_false hb)).trans (if_neg (not_lt.2 hin))
  case pix =>
    rw [step_host hh]
    refine ⟨fun hd => if_pos (by rw [Bool.not_eq_true']; exact hd), fun hd hout => ?_, fun hd hin v hv => ?_⟩
    · exact (if_neg (by rw [Bool.not_eq_true']; exact ne_false_of_eq_true hd)).trans (if_pos hout)
    · refine (if_neg (by rw [Bool.not_eq_true']; exact ne_false_of_eq_true hd)).trans ((if_neg (not_le.2 hin)).trans ?_)
      simp only [hv]
  case wait =>
    rw [step_host hh]
    exact ⟨fun hb => if_pos hb, fun hb => if_neg (ne_true_of_eq_false hb)⟩

end Sys2Proof.Machine
end

section
/-! The engine of a running job: no part stops it, and every part keeps `EngineInv` (R33, R125, R298). -/

namespace Sys2Proof.Machine

/-! ### What the invariant speaks of -/

/-- The fields that `EngineInv` and `stageWork` speak of; every other field at its reset value. -/
def engineView (s : State) : State :=
  { State.reset with
    phase := s.phase, pngPos := s.pngPos, lenIn := s.lenIn, pcur := s.pcur, w := s.w, h := s.h, bpp := s.bpp, br := s.br,
    litTree := s.litTree, distTree := s.distTree, clTree := s.clTree, row := s.row, prev := s.prev, pixLen := s.pixLen,
    zbuf := s.zbuf, out := s.out, pix := s.pix }

theorem engineInv_engineView (s : State) : EngineInv (engineView s) ↔ EngineInv s :=
  ⟨fun h => { h with }, fun h => { h with }⟩

theorem EngineInv.congr {s t : State} (h : EngineInv s) (hv : engineView t = engineView s) : EngineInv t := by
  rwa [← engineInv_engineView, hv, engineInv_engineView]

theorem EngineInv.stream {s : State} (h : EngineInv s) : StreamOk s := ⟨h.zbufDense, h.reader⟩

/-- Another position of the reader (R33). -/
theorem EngineInv.withReader {s : State} (h : EngineInv s) {r : BitReader} (hr : ReaderOk { s with br := r }) :
    EngineInv { s with br := r } := { h with reader := hr }

/-- In phase INFLATE `OUT` is free (R53). -/
theorem EngineInv.withOut {s : State} (h : EngineInv s) (hp : s.phase = .inflate) {m : Memory}
    (hm : Memory.dense m = true) : EngineInv { s with out := m } :=
  { h with
    outDense := hm
    rows := fun hd => by rw [hp] at hd; cases hd }

/-- Other trees in order (R38). -/
theorem EngineInv.withTrees {s : State} (h : EngineInv s) {l d c : Tree} (hl : arenaOk l = true) (hd : arenaOk d = true)
    (hc : arenaOk c = true) : EngineInv { s with litTree := l, distTree := d, clTree := c } :=
  { h with litArena := hl, distArena := hd, clArena := hc }

/-- The fault entry leaves nothing to hold but the form of the spaces, the reader and the trees (R315). -/
theorem EngineInv.raise {s : State} (h : EngineInv s) (c : Cause) : EngineInv (raise c s) :=
  { h with
    image := nofun
    rows := nofun
    pixels := ⟨h.pixels.1, trivial⟩ }

theorem arenaOk_noTree : arenaOk noTree = true := rfl

theorem arenaOk_build (lens : List Nat) : arenaOk (build lens) = true := (linkedTree_build lens).arenaOk

/-- A start: empty spaces, no trees, the cursors at 0 (R45, R291). -/
theorem engineInv_startJob (s : State) : EngineInv (startJob s) where
  zbufDense := rfl
  outDense := rfl
  reader := ⟨Nat.zero_le _, Nat.zero_le _, Nat.one_pos, Nat.zero_le _⟩
  pcurInside := Nat.zero_le _
  litArena := rfl
  distArena := rfl
  clArena := rfl
  image := nofun
  rows := nofun
  pixels := ⟨rfl, rfl⟩

/-! ### Parts that keep it -/

/-- A part of an element does not stop: it ends in a state with `P`, or raises where the fault entry keeps the
invariant. -/
def Run.Keeps {α : Type} (P : State → Prop) (r : Run α) : Prop :=
  match r with
  | .ok _ t => P t
  | .raised c t => EngineInv (raise c t)
  | .stop _ => False

theorem Run.Keeps.andThen {α β : Type} {P P' : State → Prop} {r : Run α} {k : α → State → Run β} (h : r.Keeps P)
    (hk : ∀ a t, P t → (k a t).Keeps P') : (r.andThen k).Keeps P' := by
  cases r with
  | ok a t => exact hk a t h
  | raised c t => exact h
  | stop f => exact h

theorem Run.Keeps.mono {α : Type} {P P' : State → Prop} {r : Run α} (h : r.Keeps P) (hp : ∀ t, P t → P' t) :
    r.Keeps P' := by
  cases r with
  | ok a t => exact hp t h
  | raised c t => exact h
  | stop f => exact h

/-- A running engine in phase `p` with less than `n` of the phase's work left. -/
structure Within (p : Phase) (n : Nat) (s : State) : Prop where
  inv : EngineInv s
  phase : s.phase = p
  work : stageWork s < n

theorem stageWork_congr {s t : State} (hv : engineView t = engineView s) : stageWork t = stageWork s :=
  (congrArg stageWork hv :)

theorem Within.congr {p : Phase} {n : Nat} {s t : State} (h : Within p n s) (hv : engineView t = engineView s := by rfl) :
    Within p n t where
  inv := h.inv.congr hv
  phase := (congrArg State.phase hv).trans h.phase
  work := by rw [stageWork_congr hv]; exact h.work

/-- The step from `s` to `t` keeps the invariant, and ends the stage or consumes of what the stage has left (R299). -/
def Advances (s t : State) : Prop :=
  EngineInv t ∧ (stagesLeft t.phase < stagesLeft s.phase ∨ t.phase = s.phase ∧ stageWork t < stageWork s)

theorem Within.advances {p : Phase} {s t : State} (h : Within p (stageWork s) t) (hp : s.phase = p) : Advances s t :=
  ⟨h.inv, .inr ⟨h.phase.trans hp.symm, h.work⟩⟩

theorem stagesLeft_pos {p : Phase} (h : isRunning p = true) : 0 < stagesLeft p := by
  cases p with
  | png | zlibHdr | inflate | zlibTrl | defilter => exact Nat.succ_pos _
  | idle | done | error => cases h

/-- An element that keeps the engine going steps: a raise ends the job (R315). -/
theorem Run.Keeps.steps {s : State} {r : Run Unit} (h : r.Keeps (Advances s)) (hs : isRunning s.phase = true) :
    ∃ t, r.outcome = .next t ∧ Advances s t := by
  cases r with
  | ok a t => exact ⟨t, rfl, h⟩
  | raised c t => exact ⟨_, rfl, h, .inl (stagesLeft_pos hs)⟩
  | stop f => exact h.elim

/-! ### The reader -/

theorem stageWork_inflate {s : State} (hp : s.phase = .inflate) : stageWork s = (bitsAhead s).length := by
  rw [stageWork, hp]

/-- The reader moves on: no more bits are ahead than before, and so no more work is left. -/
theorem Within.reader {p : Phase} {n : Nat} {s : State} (h : Within p n s) {r : BitReader}
    (hr : ReaderOk { s with br := r }) (hl : (bitsAhead { s with br := r }).length ≤ (bitsAhead s).length) :
    Within p n { s with br := r } := by
  refine ⟨h.inv.withReader hr, h.phase, lt_of_le_of_lt ?_ h.work⟩
  unfold stageWork
  cases s.phase with
  | inflate => exact hl
  | idle | png | zlibHdr | zlibTrl | defilter | done | error => exact le_rfl

/-- In phase INFLATE the reader consumes of the work (R299). -/
theorem EngineInv.consume {s : State} (h : EngineInv s) (hp : s.phase = .inflate) {r : BitReader}
    (hr : ReaderOk { s with br := r }) (hl : (bitsAhead { s with br := r }).length < (bitsAhead s).length) :
    Within .inflate (stageWork s) { s with br := r } := by
  refine ⟨h.withReader hr, hp, ?_⟩
  rw [stageWork_inflate hp, stageWork_inflate (s := { s with br := r }) hp]
  exact hl

/-- The bits ahead are the pending ones and those of the bytes from `BR_POS` on (R106). -/
theorem length_bitsAhead {s : State} (hz : Memory.dense s.zbuf = true) :
    (bitsAhead s).length = s.br.cnt + 8 * (Memory.len s.zbuf - s.br.pos) := by
  rw [bitsAhead, List.length_append, length_bytesBits, Memory.bytesFrom_of_dense hz, List.length_drop, List.length_map,
    Memory.len_of_dense hz, pendingBits, List.length_map, List.length_range]

/-- A field keeps the engine going where its bits do. -/
theorem EngineInv.readBits_keeps {s : State} (h : EngineInv s) (n : Nat) {P : State → Prop}
    (hP : n ≤ (bitsAhead s).length → ∀ r, BitsRead n s { s with br := r } → P { s with br := r }) :
    (readBits n s).Keeps P := by
  by_cases hn : n ≤ (bitsAhead s).length
  · obtain ⟨v, r, hv, hr⟩ := readBits_ok_reader h.stream hn
    rw [hv]
    exact hP hn r hr
  · obtain ⟨u, hu, hr⟩ := readBits_bitsShort h.stream (not_le.1 hn)
    have hinv : EngineInv u := by
      rw [hr.only]
      exact h.withReader (hr.only ▸ hr.reader)
    rw [hu]
    exact hinv.raise _

theorem Within.readBits_keeps {p : Phase} {n : Nat} {s : State} (h : Within p n s) (k : Nat) :
    (readBits k s).Keeps (Within p n) :=
  h.inv.readBits_keeps k fun _ _ hr => h.reader hr.reader (by rw [hr.ahead, List.length_drop]; exact Nat.sub_le _ _)

/-- A field of at least one bit consumes (R101, R299). -/
theorem EngineInv.readBits_consumes {s : State} (h : EngineInv s) (hp : s.phase = .inflate) {k : Nat} (hk : 0 < k) :
    (readBits k s).Keeps (Within .inflate (stageWork s)) :=
  h.readBits_keeps k fun hn _ hr => h.consume hp hr.reader (by rw [hr.ahead, List.length_drop]; omega)

/-- A byte read leaves the reader in order, behind the byte or at the end of `ZBUF` (R102). -/
theorem readerOk_afterBytes {n : Nat} {s : State} (h : s.br.pos + n ≤ Memory.len s.zbuf) : ReaderOk (afterBytes n s) :=
  ⟨Nat.zero_le _, Nat.zero_le _, Nat.one_pos, h⟩

theorem EngineInv.readByte_keeps {s : State} (h : EngineInv s) {P : State → Prop}
    (hP : s.br.pos < Memory.len s.zbuf → P (afterBytes 1 s)) : (readByte s).Keeps P := by
  by_cases hn : s.br.pos < Memory.len s.zbuf
  · obtain ⟨b, -, hb⟩ := readByte_ok h.zbufDense hn
    rw [hb]
    exact hP hn
  · obtain ⟨-, -, -, hin⟩ := h.reader
    rw [readByte_end (not_lt.1 hn)]
    exact (h.withReader (readerOk_afterBytes (n := 0) hin)).raise _

theorem length_bitsAhead_afterBytes {s : State} (hz : Memory.dense s.zbuf = true) (n : Nat) :
    (bitsAhead (afterBytes n s)).length = 8 * (Memory.len s.zbuf - (s.br.pos + n)) := by
  rw [length_bitsAhead (s := afterBytes n s) hz]
  exact Nat.zero_add _

theorem Within.readByte_keeps {p : Phase} {n : Nat} {s : State} (h : Within p n s) : (readByte s).Keeps (Within p n) :=
  h.inv.readByte_keeps fun hn => h.reader (readerOk_afterBytes hn) (by
    rw [length_bitsAhead h.inv.zbufDense]
    exact (length_bitsAhead_afterBytes h.inv.zbufDense 1).trans_le (by omega))

theorem EngineInv.readByte_consumes {s : State} (h : EngineInv s) (hp : s.phase = .inflate) :
    (readByte s).Keeps (Within .inflate (stageWork s)) :=
  h.readByte_keeps fun hn => h.consume hp (readerOk_afterBytes hn) (by
    rw [length_bitsAhead h.zbufDense]
    exact (length_bitsAhead_afterBytes h.zbufDense 1).trans_lt (by omega))

theorem Within.readBytes_keeps {p : Phase} {n : Nat} {s : State} (h : Within p n s) (k : Nat) :
    (readBytes k s).Keeps (Within p n) := by
  induction k generalizing s with
  | zero => exact h
  | succ k ih => exact h.readByte_keeps.andThen fun _ _ ht => (ih ht).andThen fun _ _ hu => hu

/-- A number of at least one byte consumes (R103, R299). -/
theorem EngineInv.readBytes_consumes {s : State} (h : EngineInv s) (hp : s.phase = .inflate) (k : Nat) :
    (readBytes (k + 1) s).Keeps (Within .inflate (stageWork s)) :=
  (h.readByte_consumes hp).andThen fun _ _ ht => (ht.readBytes_keeps k).andThen fun _ _ hu => hu

/-! ### The walk of a tree -/

/-- A tree in order with a code has a root that is no leaf (R125). -/
theorem root_of_arenaOk {t : Tree} (h : arenaOk t = true) (hn : t.ncodes ≠ 0) :
    ∃ hlen : 0 < t.nodes.length, isLeaf t.nodes[0] = false := by
  simp only [arenaOk, Bool.and_eq_true, Bool.or_eq_true, beq_iff_eq, bne_iff_ne, Bool.not_eq_true'] at h
  obtain ⟨hne, hleaf⟩ := h.2.resolve_left hn
  exact ⟨Nat.pos_of_ne_zero hne, by rwa [List.getD_eq_getElem _ _ (Nat.pos_of_ne_zero hne)] at hleaf⟩

/-- In a tree in order the walk meets no index without a node (R125). -/
theorem walk_ne_noNode {t : Tree} (h : arenaOk t = true) (mb : MissingBranch) (bits : List Bool) :
    walk t mb bits ≠ .noNode := by
  rw [walk]
  split_ifs with hn
  · nofun
  · exact walkFrom_node h mb bits (root_of_arenaOk h hn).1 0

/-- In a tree in order the walk to a symbol uses a bit: the root is no leaf (R125, R128). -/
theorem walk_found_pos {t : Tree} (h : arenaOk t = true) {mb : MissingBranch} {bits : List Bool} {sym used : Nat}
    (hw : walk t mb bits = .found sym used) : 0 < used := by
  rw [walk] at hw
  split_ifs at hw with hn
  obtain ⟨hlen, hleaf⟩ := root_of_arenaOk h hn
  have hroot := List.getElem?_eq_getElem hlen
  have hlater (k : Nat) (bs : List Bool) (hk : walkFrom t mb k 1 bs = .found sym used) : 0 < used := by
    have := walkFrom_used t mb bs k 1
    rw [hk] at this
    exact this.1
  match bits with
  | [] => rw [walkFrom_nil hroot _ hleaf] at hw; cases hw
  | b :: bs =>
    by_cases hc : childOf t.nodes[0] b = 0
    · cases mb with
      | fault => rw [walkFrom_absent_fault hroot _ hleaf hc] at hw; cases hw
      | restartRoot => rw [walkFrom_absent_restart hroot _ hleaf hc] at hw; exact hlater _ _ hw
    · rw [walkFrom_child hroot _ hleaf hc] at hw
      exact hlater _ _ hw

/-- A Huffman decode from a tree in order consumes a code, or raises (R128 to R130). -/
theorem EngineInv.huffDecode_consumes {s : State} (h : EngineInv s) (hp : s.phase = .inflate) {tree : Tree}
    (ha : arenaOk tree = true) : (huffDecode tree s).Keeps (Within .inflate (stageWork s)) := by
  have raises (n : Nat) (c : Cause) :
      ((readBits n s).andThen fun _ u => (.raised c u : Run Nat)).Keeps (Within .inflate (stageWork s)) :=
    (h.readBits_keeps n (P := EngineInv) fun _ _ hr => h.withReader hr.reader).andThen fun _ _ hu => hu.raise c
  rw [huffDecode]
  cases hw : walk tree s.cfg.missingBranch (bitsAhead s) with
  | found sym used => exact (h.readBits_consumes hp (walk_found_pos ha hw)).andThen fun _ _ hu => hu
  | bad c used => exact raises used c
  | short used => exact raises (used + 1) .outOfData
  | noNode => exact absurd hw (walk_ne_noNode ha _ _)

end Sys2Proof.Machine
end

section
/-! The elements of a running job, phase by phase: each keeps the invariant and advances the job (R290, R299). -/

namespace Sys2Proof.Machine

/-- A running job has written no pixel before the defilter (R54). -/
theorem pixelsWritten_iff {s : State} (hr : isRunning s.phase = true) (hd : s.phase ≠ .defilter) :
    pixelsWritten s ↔ s.pix = [] := by
  cases hp : s.phase with
  | png | zlibHdr | inflate | zlibTrl => rw [pixelsWritten, hp]
  | defilter => exact absurd hp hd
  | idle | done | error => rw [hp] at hr; cases hr

/-- From the accepted header to the trailer the stages ask for the same (R290). -/
theorem EngineInv.nextStage {s : State} (h : EngineInv s) (hr : isRunning s.phase = true) (hd : s.phase ≠ .defilter)
    (ha : headerAccepted s = true) {q : Phase} (hq : isRunning q = true) (hqd : q ≠ .defilter) :
    EngineInv { s with phase := q } :=
  { h with
    image := fun _ => h.image ha
    rows := fun e => absurd e hqd
    pixels := ⟨h.pixels.1,
      (pixelsWritten_iff (s := { s with phase := q }) hq hqd).2 ((pixelsWritten_iff hr hd).1 h.pixels.2)⟩ }

/-! ### Phase PNG -/

/-- Phase PNG at place `pos`, with less than `n` bytes of `IN` left. -/
structure PngWithin (pos : PngPos) (n : Nat) (s : State) : Prop extends Within .png n s where
  pos : s.pngPos = pos

section png
variable {pos : PngPos} {n : Nat} {s s₀ : State}

theorem PngWithin.isRunning (h : PngWithin pos n s) : isRunning s.phase = true := by rw [h.phase]; rfl

theorem PngWithin.ne_defilter (h : PngWithin pos n s) : s.phase ≠ .defilter := by rw [h.phase]; decide

theorem PngWithin.congr {t : State} (h : PngWithin pos n s) (hv : engineView t = engineView s := by rfl) :
    PngWithin pos n t := ⟨h.toWithin.congr hv, (congrArg State.pngPos hv).trans h.pos⟩

/-- The cursor moves on within `IN`. -/
theorem PngWithin.cursor (h : PngWithin pos n s) {q : Nat} (hlo : s.pcur ≤ q) (hhi : q ≤ s.lenIn) :
    PngWithin pos n { s with pcur := q } := by
  refine ⟨⟨{ h.inv with pcurInside := hhi }, h.phase, lt_of_le_of_lt ?_ h.work⟩, h.pos⟩
  rw [stageWork, stageWork, h.phase]
  exact Nat.sub_le_sub_left hlo _

theorem PngWithin.rd8_keeps (h : PngWithin pos n s) : (rd8 s).Keeps (PngWithin pos n) := by
  by_cases hs : s.pcur < s.lenIn
  · rw [rd8_ok hs]
    exact h.cursor (Nat.le_succ _) hs
  · rw [rd8_short (not_lt.1 hs)]
    exact h.inv.raise _

theorem PngWithin.rd32_keeps (h : PngWithin pos n s) : (rd32 s).Keeps (PngWithin pos n) :=
  h.rd8_keeps.andThen fun _ _ h₁ => h₁.rd8_keeps.andThen fun _ _ h₂ => h₂.rd8_keeps.andThen fun _ _ h₃ =>
    h₃.rd8_keeps.andThen fun _ _ h₄ => h₄

theorem PngWithin.rdn_keeps (h : PngWithin pos n s) (k : Nat) : (rdn k s).Keeps (PngWithin pos n) := by
  by_cases hs : s.pcur + k ≤ s.lenIn
  · rw [rdn_ok hs]
    exact h.cursor (Nat.le_add_right _ _) hs
  · rw [rdn_short (not_le.1 hs)]
    exact h.inv.raise _

theorem PngWithin.skip_keeps (h : PngWithin pos n s) (k : Nat) : (skip k s).Keeps (PngWithin pos n) := by
  by_cases hs : s.pcur + k ≤ s.lenIn
  · rw [skip_ok hs]
    exact h.cursor (Nat.le_add_right _ _) hs
  · rw [skip_short (not_le.1 hs)]
    exact h.inv.raise _

theorem PngWithin.skipChunk_keeps (h : PngWithin pos n s) (len : Word) : (skipChunk len s).Keeps (PngWithin pos n) :=
  (h.skip_keeps _).andThen fun _ _ hu => hu.skip_keeps 4

/-- Bytes read in phase PNG are work done (R299). -/
theorem EngineInv.pngConsume (h : EngineInv s) (hp : s.phase = .png) (hpos : s.pngPos = pos) {k : Nat} (hk : 0 < k)
    (hin : s.pcur + k ≤ s.lenIn) : PngWithin pos (stageWork s) { s with pcur := s.pcur + k } := by
  refine ⟨⟨{ h with pcurInside := hin }, hp, ?_⟩, hpos⟩
  rw [stageWork, stageWork, hp]
  simp only
  omega

theorem EngineInv.rd8_consumes (h : EngineInv s) (hp : s.phase = .png) (hpos : s.pngPos = pos) :
    (rd8 s).Keeps (PngWithin pos (stageWork s)) := by
  by_cases hs : s.pcur < s.lenIn
  · rw [rd8_ok hs]
    exact h.pngConsume hp hpos Nat.one_pos hs
  · rw [rd8_short (not_lt.1 hs)]
    exact h.raise _

/-- After the signature the first chunk follows (R231). -/
theorem PngWithin.enterFirstChunk (h : PngWithin .signature n s) :
    PngWithin .firstChunk n { s with pngPos := .firstChunk } := by
  refine ⟨⟨{ h.inv with image := fun ha => ?_ }, h.phase, lt_of_eq_of_lt ?_ h.work⟩, rfl⟩
  · simp [headerAccepted, h.phase] at ha
  · rw [stageWork, stageWork, h.phase]

/-- The chunk header begins with a byte (R232). -/
theorem EngineInv.chunkHeader_consumes (h : EngineInv s) (hp : s.phase = .png) (hpos : s.pngPos = pos) :
    (chunkHeader s).Keeps (PngWithin pos (stageWork s)) := by
  have hlen : (rd32 s).Keeps (PngWithin pos (stageWork s)) :=
    (h.rd8_consumes hp hpos).andThen fun _ _ h₁ => h₁.rd8_keeps.andThen fun _ _ h₂ => h₂.rd8_keeps.andThen fun _ _ h₃ =>
      h₃.rd8_keeps.andThen fun _ _ h₄ => h₄
  exact hlen.andThen fun _ _ h₁ => h₁.rd32_keeps.andThen fun _ _ h₂ => h₂

/-- The IHDR's latches, before the header is accepted (R234, R242). -/
theorem PngWithin.latch {t : State} (h : PngWithin .firstChunk n s)
    (ht : engineView t = { engineView s with w := t.w, h := t.h, bpp := t.bpp } := by rfl) :
    PngWithin .firstChunk n t := by
  have hphase : t.phase = .png := (congrArg State.phase ht).trans h.phase
  have hpos : t.pngPos = .firstChunk := (congrArg State.pngPos ht).trans h.pos
  have hinv : EngineInv { engineView s with w := t.w, h := t.h, bpp := t.bpp } :=
    { h.inv with
      image := fun ha => by simp [headerAccepted, engineView, h.phase, h.pos] at ha
      rows := fun hd => by cases h.phase.symm.trans hd
      pixels := ⟨h.inv.pixels.1,
        (pixelsWritten_iff (s := { engineView s with w := t.w, h := t.h, bpp := t.bpp }) h.isRunning h.ne_defilter).2
          ((pixelsWritten_iff h.isRunning h.ne_defilter).1 h.inv.pixels.2)⟩ }
  refine ⟨⟨(engineInv_engineView t).1 (ht ▸ hinv), hphase, lt_of_eq_of_lt ?_ h.work⟩, hpos⟩
  rw [stageWork, stageWork, h.phase, hphase, show t.pcur = s.pcur from (congrArg State.pcur ht :),
    show t.lenIn = s.lenIn from (congrArg State.lenIn ht :)]

/-- The payload of an IDAT (R244). -/
theorem PngWithin.appendZbuf (h : PngWithin pos n s) (vs : List Byte) :
    PngWithin pos n { s with zbuf := Memory.appendAll s.zbuf vs } := by
  obtain ⟨h7, h8, hacc, hin⟩ := h.inv.reader
  refine ⟨⟨{ h.inv with
    zbufDense := Memory.dense_appendAll h.inv.zbufDense vs
    reader := ⟨h7, h8, hacc, ?_⟩ }, h.phase, ?_⟩, h.pos⟩
  · rw [Memory.len_appendAll]
    exact Nat.le_add_right_of_le hin
  · have hw := h.work
    rw [stageWork, h.phase] at hw ⊢
    exact hw

/-- An accepted header has a pixel size and an image (R241, R242). -/
structure Accepted (s : State) : Prop where
  bpp : s.bpp = 3 ∨ s.bpp = 4
  width : 0 < s.w.toNat
  height : 0 < s.h.toNat

theorem toNat_pos_of_ne_zero {x : Word} (h : ¬ x = 0) : 0 < x.toNat :=
  Nat.pos_of_ne_zero fun h0 => h (BitVec.eq_of_toNat_eq h0)

/-- The checks raise, or accept the header (R235 to R242). -/
theorem PngWithin.ihdrChecks_keeps (h : PngWithin .firstChunk n s) :
    (ihdrChecks s).Keeps fun t => PngWithin .firstChunk n t ∧ Accepted t := by
  unfold ihdrChecks
  split_ifs with _ _ _ _ _ hz
  iterate 6 exact h.inv.raise _
  all_goals
    rw [not_or] at hz
    refine ⟨h.latch, ?_, toNat_pos_of_ne_zero hz.1, toNat_pos_of_ne_zero hz.2⟩
    simp

/-- With the header accepted the chunk loop begins (R243). -/
theorem PngWithin.enterChunkLoop (h : PngWithin .firstChunk n s) (ha : Accepted s) :
    PngWithin .chunkLoop n { s with pngPos := .chunkLoop } := by
  refine ⟨⟨{ h.inv with image := fun _ => ⟨ha.bpp, ha.width, ha.height⟩ }, h.phase, ?_⟩, rfl⟩
  have hw := h.work
  rw [stageWork, h.phase] at hw ⊢
  exact hw

theorem PngWithin.execChunkIhdr (h : PngWithin .firstChunk (stageWork s₀) s) (hp : s₀.phase = .png)
    (width height : Word) (depth ctype cmeth fmeth imeth : Byte) (crc : Word) :
    ∃ t, exec (.chunkIhdr width height depth ctype cmeth fmeth imeth crc) s = .next t ∧ Advances s₀ t := by
  refine Run.Keeps.steps (h.rd32_keeps.andThen fun _ s₁ h₁ => ?_) (by rw [hp]; rfl)
  refine (PngWithin.latch (t := { s₁ with w := width }) h₁).rd32_keeps.andThen fun _ s₂ h₂ => ?_
  refine (PngWithin.latch (t := { s₂ with h := height }) h₂).rd8_keeps.andThen fun _ s₃ h₃ => ?_
  refine (PngWithin.congr (t := { s₃ with depth := depth }) h₃).rd8_keeps.andThen fun _ s₄ h₄ => ?_
  refine (PngWithin.congr (t := { s₄ with ctype := ctype }) h₄).rd8_keeps.andThen fun _ s₅ h₅ => ?_
  refine (PngWithin.congr (t := { s₅ with cmeth := cmeth }) h₅).rd8_keeps.andThen fun _ s₆ h₆ => ?_
  refine (PngWithin.congr (t := { s₆ with fmeth := fmeth }) h₆).rd8_keeps.andThen fun _ s₇ h₇ => ?_
  refine (PngWithin.skip_keeps (s := { s₇ with imeth := imeth }) h₇.congr 4).andThen fun _ s₈ h₈ => ?_
  exact h₈.ihdrChecks_keeps.andThen fun _ _ ⟨h₉, haccepted⟩ => (h₉.enterChunkLoop haccepted).advances hp

theorem PngWithin.execChunkIdat (h : PngWithin .chunkLoop (stageWork s₀) s) (hp : s₀.phase = .png)
    (len : Word) (payload : List Byte) (crc : Word) :
    ∃ t, exec (.chunkIdat len payload crc) s = .next t ∧ Advances s₀ t :=
  Run.Keeps.steps ((h.rdn_keeps _).andThen fun _ _ hu =>
      ((hu.appendZbuf payload).skip_keeps 4).mono fun _ ht => ht.advances hp)
    (by rw [hp]; rfl)

theorem PngWithin.execChunkOther (h : PngWithin .chunkLoop (stageWork s₀) s) (hp : s₀.phase = .png)
    (type len : Word) (payload : List Byte) (crc : Word) :
    ∃ t, exec (.chunkOther type len payload crc) s = .next t ∧ Advances s₀ t :=
  Run.Keeps.steps ((h.skipChunk_keeps len).mono fun _ ht => ht.advances hp) (by rw [hp]; rfl)

/-- Phase ZLIB_HDR begins with a fresh reader, and the header accepted (R105, R247). -/
theorem PngWithin.enterZlib_keeps (h : PngWithin .chunkLoop n s) :
    (enterZlib s).Keeps fun t => EngineInv t ∧ t.phase = .zlibHdr := by
  have ha : headerAccepted s = true := by rw [headerAccepted, h.phase, h.pos]; rfl
  have hnext : EngineInv { s with phase := .zlibHdr } := h.inv.nextStage h.isRunning h.ne_defilter ha rfl (by decide)
  rcases enterZlib_cases s with ⟨-, he⟩ | ⟨-, he⟩ <;> rw [he]
  · exact h.inv.raise _
  · exact ⟨hnext.withReader ⟨Nat.zero_le _, Nat.zero_le _, Nat.one_pos, Nat.zero_le _⟩, rfl⟩

theorem PngWithin.execChunkIend (h : PngWithin .chunkLoop (stageWork s₀) s) (hp : s₀.phase = .png)
    (len : Word) (payload : List Byte) (crc : Word) :
    ∃ t, exec (.chunkIend len payload crc) s = .next t ∧ Advances s₀ t := by
  refine Run.Keeps.steps ((h.skipChunk_keeps len).andThen fun _ _ hu =>
      hu.enterZlib_keeps.mono fun t ⟨hinv, hphase⟩ => ?_)
    (by rw [hp]; rfl)
  exact ⟨hinv, .inl (by rw [hphase, hp]; decide)⟩

end png

/-! ### The zlib elements -/

theorem EngineInv.execZhdr {s : State} (h : EngineInv s) (hp : s.phase = .zlibHdr) (cmf flg : Byte) :
    ∃ t, exec (.zhdr cmf flg) s = .next t ∧ Advances s t := by
  have hs : Within .zlibHdr (stageWork s + 1) s := ⟨h, hp, Nat.lt_succ_self _⟩
  refine Run.Keeps.steps (hs.readByte_keeps.andThen fun _ u hu => ?_) (by rw [hp]; rfl)
  refine (Within.readByte_keeps (s := { u with cmf := cmf }) hu.congr).andThen fun _ v hv => ?_
  have hv' : Within .zlibHdr (stageWork s + 1) { v with flg := flg } := hv.congr
  refine Run.Keeps.andThen (P := Within .zlibHdr (stageWork s + 1)) ?_ fun _ w hw => ?_
  · unfold zlibChecks
    split_ifs
    iterate 4 exact hv'.inv.raise _
    exact hv'
  · have hnext : EngineInv { w with phase := .inflate } :=
      hw.inv.nextStage (by rw [hw.phase]; rfl) (by rw [hw.phase]; decide) (by rw [headerAccepted, hw.phase]) rfl
        (by decide)
    exact ⟨hnext.congr rfl, .inl (by rw [hp]; exact (by decide : stagesLeft .inflate < stagesLeft .zlibHdr))⟩

/-- The start of the defilter: the rows fit `OUT`, and none is written (R260). -/
theorem engineInv_defilterStart {s : State} (h : EngineInv s) (hp : s.phase = .zlibTrl) (hn : need s ≤ Memory.len s.out)
    (hh : 0 < s.h.toNat) : EngineInv (defilterStart s) := by
  have hpix : s.pix = [] := (pixelsWritten_iff (by rw [hp]; rfl) (by rw [hp]; decide)).1 h.pixels.2
  exact
    { h with
      image := fun _ => h.image (by rw [headerAccepted, hp])
      rows := fun _ => ⟨hh, List.length_replicate, hn⟩
      pixels := ⟨h.pixels.1, by
        change Memory.len s.pix = 0 * stride s
        rw [hpix, Nat.zero_mul]
        rfl⟩ }

theorem EngineInv.execZtrl {s : State} (h : EngineInv s) (hp : s.phase = .zlibTrl) (adler : Word) :
    ∃ t, exec (.ztrl adler) s = .next t ∧ Advances s t := by
  have hs : Within .zlibTrl (stageWork s + 1) { s with phase := .zlibTrl } := by
    rw [← hp]
    exact ⟨h, rfl, Nat.lt_succ_self _⟩
  refine Run.Keeps.steps ((hs.readBytes_keeps 4).andThen fun _ u hu => ?_) (by rw [hp]; rfl)
  obtain ⟨-, -, hh⟩ := hu.inv.image (by rw [headerAccepted, hu.phase])
  rcases enterDefilter_cases u with ⟨-, he⟩ | ⟨-, h0, -⟩ | ⟨hn, -, he⟩
  · rw [he]
    exact hu.inv.raise _
  · exact absurd h0 hh.ne'
  · rw [he]
    have hless : stagesLeft .defilter < stagesLeft .zlibTrl := by decide
    exact ⟨engineInv_defilterStart hu.inv hu.phase hn hh, .inl (by rw [hp]; exact hless)⟩

/-! ### Phase INFLATE -/

section inflate
variable {n : Nat} {s s₀ : State}

/-- An element of phase INFLATE whose parts keep to the phase and have consumed steps (R299). -/
theorem Run.Keeps.inflateSteps {r : Run Unit} (h : r.Keeps (Within .inflate (stageWork s₀))) (hp : s₀.phase = .inflate) :
    ∃ t, r.outcome = .next t ∧ Advances s₀ t :=
  (h.mono fun _ ht => ht.advances hp).steps (isRunning_of_inflate hp)

theorem Within.withTrees (h : Within .inflate n s) {l d c : Tree} (hl : arenaOk l = true) (hd : arenaOk d = true)
    (hc : arenaOk c = true) : Within .inflate n { s with litTree := l, distTree := d, clTree := c } := by
  refine ⟨h.inv.withTrees hl hd hc, h.phase, lt_of_eq_of_lt ?_ h.work⟩
  rw [stageWork_inflate h.phase]
  exact stageWork_inflate h.phase

theorem Within.withOut (h : Within .inflate n s) {m : Memory} (hm : Memory.dense m = true) :
    Within .inflate n { s with out := m } := by
  refine ⟨h.inv.withOut h.phase hm, h.phase, lt_of_eq_of_lt ?_ h.work⟩
  rw [stageWork_inflate h.phase]
  exact stageWork_inflate h.phase

theorem EngineInv.readBit_consumes (h : EngineInv s) (hp : s.phase = .inflate) :
    (readBit s).Keeps (Within .inflate (stageWork s)) := by
  cases hb : bitsAhead s with
  | nil =>
    rw [readBit_nil h.zbufDense hb]
    exact h.raise _
  | cons b rest =>
    obtain ⟨t, ht, hread, hr, ha, -⟩ := readBit_cons h.zbufDense h.reader hb
    rw [ht]
    rw [hread] at hr ha
    change Within .inflate (stageWork s) t
    rw [hread]
    exact h.consume hp hr (by rw [ha, hb]; exact Nat.lt_succ_self _)

/-- The block header consumes its bits (R151). -/
theorem EngineInv.blkHeader_consumes (h : EngineInv s) (hp : s.phase = .inflate) :
    (blkHeader s).Keeps (Within .inflate (stageWork s)) :=
  (h.readBit_consumes hp).andThen fun f u hu =>
    (Within.readBits_keeps (s := { u with bfinal := f }) hu.congr 2).andThen fun _ _ hv => hv.congr

theorem Within.execBlk (h : Within .inflate (stageWork s₀) s) (hp : s₀.phase = .inflate) {f : Bool} {i : Instr}
    (hi : i = .blkStored f ∨ i = .blkFixed f ∨ i = .blkDynamic f ∨ i = .blkReserved f) :
    ∃ t, exec i s = .next t ∧ Advances s₀ t := by
  rcases hi with rfl | rfl | rfl | rfl
  · exact ⟨_, rfl, h.congr.advances hp⟩
  · have htrees := h.withTrees (arenaOk_build fixedLitLens) (arenaOk_build fixedDistLens) h.inv.clArena
    exact ⟨_, rfl, htrees.congr.advances hp⟩
  · exact ⟨_, rfl, h.congr.advances hp⟩
  · exact ⟨_, rfl, (h.inv.congr (t := setBlock f 3 s) rfl).raise _, .inl (stagesLeft_pos (isRunning_of_inflate hp))⟩

/-- The end of a block: the next block header, or the trailer (R150, R217). -/
theorem Within.endBlock (h : Within .inflate (stageWork s₀) s) (hp : s₀.phase = .inflate) :
    Advances s₀ (endBlock s) := by
  have htrees := (h.withTrees arenaOk_noTree arenaOk_noTree arenaOk_noTree).congr
    (t := { s with litTree := noTree, distTree := noTree, clTree := noTree, infPos := .blockHeader })
  rw [endBlock_eq]
  split_ifs
  · exact ⟨htrees.inv.nextStage (by rw [htrees.phase]; rfl) (by rw [htrees.phase]; decide)
      (by rw [headerAccepted, htrees.phase]) rfl (by decide),
      .inl (by rw [hp]; exact (by decide : stagesLeft .zlibTrl < stagesLeft .inflate))⟩
  · exact htrees.advances hp

theorem Within.emit_keeps (h : Within .inflate n s) (v : Byte) : (emit v s).Keeps (Within .inflate n) := by
  rcases emit_cases v s with ⟨-, he⟩ | ⟨-, he⟩ <;> rw [he]
  · exact h.withOut (Memory.dense_append h.inv.outDense v)
  · exact h.inv.raise _

/-- The payload loop reads and emits, however long the payload is (R152). -/
theorem Within.storedLoop_keeps (h : Within .inflate n s) (k : Nat) (vs : List Byte) :
    (storedLoop k vs s).Keeps (Within .inflate n) := by
  induction k generalizing s vs with
  | zero => exact h
  | succ k ih =>
    cases vs with
    | nil => exact h.readByte_keeps.andThen fun _ _ hu => hu.inv.raise _
    | cons v vs => exact h.readByte_keeps.andThen fun _ _ hu => (hu.emit_keeps v).andThen fun _ _ ht => ih ht vs

theorem EngineInv.execStored (h : EngineInv s) (hp : s.phase = .inflate) (len nlen : Half) (payload : List Byte) :
    ∃ t, exec (.stored len nlen payload) s = .next t ∧ Advances s t := by
  refine Run.Keeps.steps ((h.readBytes_consumes hp 1).andThen fun _ u hu => ?_) (by rw [hp]; rfl)
  refine (Within.readBytes_keeps (s := { u with slen := len }) hu.congr 2).andThen fun _ v hv => ?_
  refine (Within.storedLoop_keeps (s := { v with snlen := nlen }) hv.congr _ payload).andThen fun _ w hw => ?_
  exact hw.endBlock hp

theorem Within.readClLens_keeps (h : Within .inflate n s) (syms vs : List Nat) :
    (readClLens syms vs s).Keeps (Within .inflate n) := by
  induction syms generalizing s vs with
  | nil => exact h
  | cons sym syms ih =>
    cases vs with
    | nil => exact h
    | cons v vs => exact (h.readBits_keeps 3).andThen fun _ u hu => ih hu.congr vs

theorem EngineInv.execDyn (h : EngineInv s) (hp : s.phase = .inflate) (hlit hdist hclen : Nat) (cl : List Nat) :
    ∃ t, exec (.dyn hlit hdist hclen cl) s = .next t ∧ Advances s t := by
  refine Run.Keeps.steps ((h.readBits_consumes hp (k := 5) (by decide)).andThen fun _ u hu => ?_) (by rw [hp]; rfl)
  refine (Within.readBits_keeps (s := { u with hlit := hlit }) hu.congr 5).andThen fun _ v hv => ?_
  refine (Within.readBits_keeps (s := { v with hdist := hdist }) hv.congr 4).andThen fun _ w hw => ?_
  refine (Within.readClLens_keeps (s := { w with hclen := hclen, clLens := List.replicate nsymCl 0 }) hw.congr
    clOrder cl).andThen fun _ x hx => ?_
  exact ((hx.withTrees hx.inv.litArena hx.inv.distArena (arenaOk_build x.clLens)).congr).advances hp

/-- The length sequence goes on, or ends in two trees (R159, R164). -/
theorem Within.afterLengths (h : Within .inflate n s) : Within .inflate n (afterLengths s) := by
  rw [Machine.afterLengths]
  split_ifs
  · exact h
  · exact (h.withTrees (arenaOk_build _) (arenaOk_build _) h.inv.clArena).congr

theorem Within.appendRepeat_keeps (h : Within .inflate n s) (rep v : Nat) :
    (appendRepeat rep v s).Keeps (Within .inflate n) := by
  rw [appendRepeat]
  split_ifs
  · exact h.inv.raise _
  · exact Within.afterLengths (s := { s with lens := s.lens ++ List.replicate rep v }) h.congr

theorem Within.runRepeatPrev_keeps (h : Within .inflate n s) (rep : Nat) :
    (runRepeatPrev rep s).Keeps (Within .inflate n) := by
  rw [runRepeatPrev]
  split
  · exact h.inv.raise _
  · exact (h.readBits_keeps 2).andThen fun _ _ hu => hu.appendRepeat_keeps rep _

theorem Within.execClElement (h : Within .inflate (stageWork s₀) s) (hp : s₀.phase = .inflate) (sym : Nat)
    (bits : List Bool) : ∃ t, exec (clElement sym bits) s = .next t ∧ Advances s₀ t := by
  have zeros (nbits rep : Nat) : (runZeros nbits rep s).Keeps (Within .inflate (stageWork s₀)) :=
    (h.readBits_keeps nbits).andThen fun _ _ hu => hu.appendRepeat_keeps rep 0
  rcases clElement_cases sym bits with ⟨v, hi⟩ | ⟨rep, hi⟩ | ⟨rep, hi⟩ | ⟨rep, hi⟩
  · rw [exec_cl hi]
    exact Run.Keeps.inflateSteps (r := runCl v s) (Within.afterLengths (s := { s with lens := s.lens ++ [v] }) h.congr) hp
  all_goals rw [hi]
  · exact (h.runRepeatPrev_keeps rep).inflateSteps hp
  · exact (zeros 3 rep).inflateSteps hp
  · exact (zeros 7 rep).inflateSteps hp

/-- A copy from within `OUT` runs, or has no room (R187, R188). -/
theorem Within.copyMatch_keeps (h : Within .inflate n s) {d : Nat} (k : Nat) (hd : 0 < d) (hl : d ≤ Memory.len s.out) :
    (copyMatch k d s).Keeps (Within .inflate n) := by
  obtain ⟨m, hm, hdense, -⟩ := copyBytes_reads k h.inv.outDense hd hl
  rcases copyMatch_cases k d s with ⟨-, he⟩ | ⟨hno, -⟩ | ⟨-, m', hm', he⟩
  · rw [he]
    exact h.inv.raise _
  · cases hno.symm.trans hm
  · cases hm'.symm.trans hm
    rw [he]
    exact h.withOut hdense

/-- A distance is at least 1 (R85), and the check of R187 keeps it within `OUT`. -/
theorem Within.runDist_keeps (h : Within .inflate n s) {sym : Nat} (hsym : sym ≤ 29) (extra : Nat) :
    (runDist sym extra s).Keeps (Within .inflate n) := by
  have hd := (distBase_bounds sym (Nat.lt_succ_of_le hsym)).1
  refine (h.readBits_keeps _).andThen fun _ u hu => ?_
  simp only
  split_ifs with hfar
  · exact hu.inv.raise _
  · exact (hu.copyMatch_keeps _ (by omega) (not_lt.1 hfar)).andThen fun _ _ ht => ht.congr

/-- A length symbol reads its extra bits and latches the length (R183). -/
theorem Within.execLen (h : Within .inflate (stageWork s₀) s) (hp : s₀.phase = .inflate) {i : Instr} {p : Nat × Nat}
    (hi : lenParts i = some p) : ∃ t, exec i s = .next t ∧ Advances s₀ t := by
  rw [exec_len hi, runLen]
  generalize lenExtra.getD (p.1 - 257) 0 = k
  generalize lenBase.getD (p.1 - 257) 0 + p.2 = length
  exact Run.Keeps.inflateSteps ((h.readBits_keeps k).andThen fun _ _ hu => hu.congr) hp

theorem Within.execLlElement (h : Within .inflate (stageWork s₀) s) (hp : s₀.phase = .inflate) {sym : Nat}
    {bits : List Bool} {i : Instr} (hi : llElement sym bits = .element i) : ∃ t, exec i s = .next t ∧ Advances s₀ t := by
  have hr := isRunning_of_inflate hp
  rcases llElement_cases hi with ⟨b, rfl⟩ | rfl | ⟨p, hpart⟩ | rfl | rfl
  · exact (h.emit_keeps b).inflateSteps hp
  · exact ⟨_, rfl, h.endBlock hp⟩
  · exact h.execLen hp hpart
  all_goals exact ⟨_, rfl, h.inv.raise _, .inl (stagesLeft_pos hr)⟩

theorem Within.execDistElement (h : Within .inflate (stageWork s₀) s) (hp : s₀.phase = .inflate) {sym : Nat}
    {bits : List Bool} {i : Instr} (hi : distElement sym bits = .element i) :
    ∃ t, exec i s = .next t ∧ Advances s₀ t := by
  have hr := isRunning_of_inflate hp
  rcases distElement_cases hi with ⟨p, hpart⟩ | rfl | rfl
  · rw [exec_dist hpart]
    exact (h.runDist_keeps (distParts_symbol hpart) p.2).inflateSteps hp
  all_goals exact ⟨_, rfl, h.inv.raise _, .inl (stagesLeft_pos hr)⟩

end inflate

/-! ### Phase DEFILTER -/

/-- A row of filtered bytes decodes to its element (R88). -/
theorem decodeRow_bytes (ft : Byte) (x : List Byte) :
    ∃ i, decodeRow x.length (bytesBits (ft :: x)) = .element i ∧
      ((∃ pred, rowParts i = some (pred, x)) ∨ i = .rowInvalid ft) := by
  have hd := decodeRow_bytesBits ft x []
  rw [List.append_nil] at hd
  refine ⟨_, hd, ?_⟩
  split_ifs
  iterate 5 exact .inl ⟨_, rfl⟩
  exact .inr rfl

section defilter
variable {s : State}

/-- `OUT` holds the filter type and the filtered bytes of every row still to come (R260, R261). -/
theorem EngineInv.rowBits_eq (h : EngineInv s) (hp : s.phase = .defilter) :
    ∃ ft x, x.length = stride s ∧ rowBits s = bytesBits (ft :: x) := by
  obtain ⟨hrow, -, hneed⟩ := h.rows hp
  have hfit : (s.row + 1) * (stride s + 1) ≤ s.out.length := by
    rw [← Memory.len_of_dense h.outDense]
    exact (Nat.mul_le_mul_right _ hrow).trans hneed
  rw [Nat.succ_mul] at hfit
  rw [rowBits, Memory.bytesFrom_of_dense h.outDense]
  generalize hb : ((s.out.map Prod.snd).drop (s.row * (stride s + 1))).take (stride s + 1) = bytes
  have hlen : bytes.length = stride s + 1 := by
    rw [← hb, List.length_take, List.length_drop, List.length_map]
    omega
  match bytes, hlen with
  | ft :: x, hlen => exact ⟨ft, x, Nat.succ.inj hlen, rfl⟩

/-- After a row the next one follows, or the job ends with all of the image (R260, R271, R296). -/
theorem EngineInv.nextRow_advances (h : EngineInv s) (hp : s.phase = .defilter) {cur : List Byte}
    (hcur : cur.length = stride s) :
    Advances s (nextRow { s with cur := cur, pix := Memory.writeAll s.pix (s.row * stride s) cur }) := by
  obtain ⟨hrow, -, hneed⟩ := h.rows hp
  obtain ⟨hdense, hlen⟩ := h.pixels
  rw [pixelsWritten, hp] at hlen
  have happ : Memory.writeAll s.pix (s.row * stride s) cur = Memory.appendAll s.pix cur := by
    rw [← hlen]
    exact Memory.writeAll_len (Memory.wf_of_dense hdense) cur
  have hdense' := Memory.dense_appendAll hdense cur
  have hlen' : Memory.len (Memory.appendAll s.pix cur) = (s.row + 1) * stride s := by
    rw [Memory.len_appendAll, hcur, Nat.succ_mul]
    exact congrArg (· + _) hlen
  rw [happ]
  rcases nextRow_cases { s with cur := cur, pix := Memory.appendAll s.pix cur } with ⟨hlast, hn⟩ | ⟨hmore, hn⟩ <;> rw [hn]
  · refine ⟨{ h with image := nofun, rows := nofun, pixels := ⟨hdense', ?_⟩ },
      .inl (by rw [hp]; exact (by decide : stagesLeft .done < stagesLeft .defilter))⟩
    have hall : s.row + 1 = s.h.toNat := Nat.le_antisymm hrow hlast
    exact (hlen'.trans (by rw [hall]; exact Nat.mul_comm _ _) :
      Memory.len (Memory.appendAll s.pix cur) = stride s * s.h.toNat)
  · refine ⟨{ h with rows := fun _ => ⟨hmore, hcur, hneed⟩, pixels := ⟨hdense', ?_⟩ }, .inr ⟨rfl, ?_⟩⟩
    · rw [pixelsWritten]
      simp only [hp]
      exact hlen'
    · rw [stageWork, stageWork]
      simp only [hp]
      omega

theorem EngineInv.engineStep_defilter (h : EngineInv s) (hp : s.phase = .defilter) :
    ∃ t, engineStep s = .next t ∧ Advances s t := by
  obtain ⟨ft, x, hx, hbits⟩ := h.rowBits_eq hp
  obtain ⟨i, hi, hcases⟩ := decodeRow_bytes ft x
  rw [hx, ← hbits] at hi
  rw [engineStep_element ((fetch_defilter hp).trans (fetchRow_element hi))]
  rcases hcases with ⟨pred, hpart⟩ | rfl
  · obtain ⟨-, hprev, -⟩ := h.rows hp
    obtain ⟨cur, hcur⟩ := reconstruct_stride pred x hprev.ge
    have hlen : cur.length = stride s := by
      rw [reconstruct_length hcur, List.length_nil, List.length_take, hx, Nat.min_self, Nat.zero_add]
    rw [exec_row hpart, runRow_ok hx.ge hcur]
    exact ⟨_, rfl, h.nextRow_advances hp hlen⟩
  · exact ⟨_, rfl, h.raise _, .inl (stagesLeft_pos (by rw [hp]; rfl))⟩

end defilter

/-! ### The engine's step -/

/-- Where the reads of the fetch keep the engine going and the decoder finds its way, the element decides. -/
theorem fetchAfter_advances {s : State} {P : State → Prop} {r : Run Unit} {d : Decoded} (hs : isRunning s.phase = true)
    (hf : fetch s = fetchAfter r d) (hr : r.Keeps P) (hP : ∀ u, P u → EngineInv u) (hd : d ≠ .noNode)
    (hi : ∀ i u, d = .element i → P u → ∃ t, exec i u = .next t ∧ Advances s t) :
    ∃ t, engineStep s = .next t ∧ Advances s t := by
  have raises (c : Cause) (u : State) (hu : EngineInv (raise c u)) (he : fetch s = .raised c u) :
      ∃ t, engineStep s = .next t ∧ Advances s t := ⟨_, engineStep_raised he, hu, .inl (stagesLeft_pos hs)⟩
  cases r with
  | stop f => exact hr.elim
  | raised c u => exact raises c u hr hf
  | ok a u =>
    cases d with
    | element i => rw [engineStep_element hf]; exact hi i u rfl hr
    | illegal c => exact raises c u ((hP u hr).raise c) hf
    | truncated => exact raises .outOfData u ((hP u hr).raise _) hf
    | noNode => exact absurd rfl hd

/-- A symbol's element is never an index with no node; the walk of a tree in order meets none (R125). -/
theorem decodeCoded_ne_noNode {t : Tree} (h : arenaOk t = true) (mb : MissingBranch) {of : Nat → List Bool → Decoded}
    (hof : ∀ sym rest, of sym rest ≠ .noNode) (bits : List Bool) : decodeCoded mb t of bits ≠ .noNode := by
  rw [decodeCoded]
  cases hw : walk t mb bits with
  | found sym used => exact hof _ _
  | noNode => exact absurd hw (walk_ne_noNode h mb bits)
  | bad | short => nofun

theorem llElement_ne_noNode (sym : Nat) (bits : List Bool) : llElement sym bits ≠ .noNode := by
  unfold llElement
  split
  · nofun
  · split <;> nofun

theorem distElement_ne_noNode (sym : Nat) (bits : List Bool) : distElement sym bits ≠ .noNode := by
  unfold distElement
  split <;> nofun

section step
variable {s : State}

theorem EngineInv.engineStep_png (h : EngineInv s) (hp : s.phase = .png) :
    ∃ t, engineStep s = .next t ∧ Advances s t := by
  have hr : isRunning s.phase = true := by rw [hp]; rfl
  cases hq : s.pngPos with
  | signature =>
    have hf := fetch_signature hp hq
    by_cases hn : s.pcur + 8 ≤ s.lenIn
    · have hread := h.pngConsume hp hq (k := 8) (by decide) hn
      have hd := decodeSignature_inBitsAhead hn
      by_cases heq : inBytes s s.pcur 8 = signatureBytes
      · rw [engineStep_element (hf.trans (fetchSignature_element (rdn_ok hn) (hd.trans (if_pos heq)))), exec_sig hn]
        exact ⟨_, rfl, hread.enterFirstChunk.advances hp⟩
      · rw [engineStep_raised (hf.trans (fetchSignature_illegal (rdn_ok hn) (hd.trans (if_neg heq))))]
        exact ⟨_, rfl, hread.inv.raise _, .inl (stagesLeft_pos hr)⟩
    · rw [engineStep_raised (hf.trans (fetchSignature_raised (rdn_short (not_le.1 hn))))]
      exact ⟨_, rfl, h.raise _, .inl (stagesLeft_pos hr)⟩
  | firstChunk =>
    refine fetchAfter_advances hr (fetch_firstChunk hp hq) (h.chunkHeader_consumes hp hq) (fun _ hu => hu.inv) ?_ ?_
    · simp only [decode, decodeFirstChunk]
      split_ifs <;> nofun
    · intro i u hd hu
      simp only [decode, decodeFirstChunk] at hd
      split_ifs at hd
      cases hd
      exact hu.execChunkIhdr hp _ _ _ _ _ _ _ _
  | chunkLoop =>
    refine fetchAfter_advances hr (fetch_chunkLoop hp hq) (h.chunkHeader_consumes hp hq) (fun _ hu => hu.inv) ?_ ?_
    · simp only [decode, decodeChunk]
      split_ifs <;> nofun
    · intro i u hd hu
      rcases decodeChunk_cases hd with ⟨_, _, _, rfl⟩ | ⟨_, _, _, rfl⟩ | ⟨_, _, _, _, rfl⟩
      · exact hu.execChunkIdat hp _ _ _
      · exact hu.execChunkIend hp _ _ _
      · exact hu.execChunkOther hp _ _ _ _

/-- A coded element consumes its code (R128, R299). -/
theorem EngineInv.fetchCoded_advances (h : EngineInv s) (hp : s.phase = .inflate) {tree : Tree} {e : Expect}
    {of : Nat → List Bool → Decoded} (hf : fetch s = fetchCoded tree e s) (ha : arenaOk tree = true)
    (he : decode s.cfg.missingBranch e (bitsAhead s) = decodeCoded s.cfg.missingBranch tree of (bitsAhead s))
    (hof : ∀ sym rest, of sym rest ≠ .noNode)
    (hi : ∀ sym rest i u, of sym rest = .element i → Within .inflate (stageWork s) u →
      ∃ t, exec i u = .next t ∧ Advances s t) : ∃ t, engineStep s = .next t ∧ Advances s t := by
  refine fetchAfter_advances (isRunning_of_inflate hp) hf
    ((h.huffDecode_consumes hp ha).andThen fun _ _ hu => hu) (fun _ hu => hu.inv) ?_ fun i u hd hu => ?_
  · rw [he]
    exact decodeCoded_ne_noNode ha _ hof _
  · rw [he] at hd
    obtain ⟨sym, rest, hsym⟩ := decodeCoded_element hd
    exact hi sym rest i u hsym hu

theorem EngineInv.engineStep_inflate (h : EngineInv s) (hp : s.phase = .inflate) :
    ∃ t, engineStep s = .next t ∧ Advances s t := by
  cases hq : s.infPos with
  | blockHeader =>
    refine fetchAfter_advances (isRunning_of_inflate hp) (fetch_blockHeader hp hq) (h.blkHeader_consumes hp)
      (fun _ hu => hu.inv) ?_ fun i u hd hu => ?_
    · unfold decodeBlk
      split <;> nofun
    · obtain ⟨f, hi⟩ := decodeBlk_cases hd
      exact hu.execBlk hp hi
  | storedBlock => rw [engineStep_element (fetch_storedBlock hp hq)]; exact h.execStored hp _ _ _
  | dynHeader => rw [engineStep_element (fetch_dynHeader hp hq)]; exact h.execDyn hp _ _ _ _
  | codeLengths =>
    refine h.fetchCoded_advances hp (of := fun sym rest => .element (clElement sym rest)) (fetch_codeLengths hp hq)
      h.clArena rfl nofun fun sym rest i u hi hu => ?_
    cases hi
    exact hu.execClElement hp sym rest
  | symbols =>
    exact h.fetchCoded_advances hp (fetch_symbols hp hq) h.litArena rfl llElement_ne_noNode
      fun _ _ _ _ hi hu => hu.execLlElement hp hi
  | distance =>
    exact h.fetchCoded_advances hp (fetch_distance hp hq) h.distArena rfl distElement_ne_noNode
      fun _ _ _ _ hi hu => hu.execDistElement hp hi

/-- A step of a running engine neither stops nor loses the invariant, and advances the job (R298, R299). -/
theorem EngineInv.engineStep_advances (h : EngineInv s) (hs : isRunning s.phase = true) :
    ∃ t, engineStep s = .next t ∧ Advances s t := by
  cases hp : s.phase with
  | png => exact h.engineStep_png hp
  | zlibHdr => rw [engineStep_element (fetch_zlibHdr hp)]; exact h.execZhdr hp _ _
  | inflate => exact h.engineStep_inflate hp
  | zlibTrl => rw [engineStep_element (fetch_zlibTrl hp)]; exact h.execZtrl hp _
  | defilter => exact h.engineStep_defilter hp
  | idle | done | error => rw [hp] at hs; cases hs

end step

end Sys2Proof.Machine
end

section
/-! The job as a whole (R298, R299): it goes on until it ends, and it ends. -/

namespace Sys2Proof.Machine

/-- Settles O57: a start establishes the invariant, an engine with a job keeps it, and one without does nothing. -/
theorem engineKeepsGoing : Obligations.EngineKeepsGoing := by
  refine ⟨fun s rest v hh hv hb => ⟨_, step_start hh hv hb, engineInv_startJob _, rfl⟩, fun s h hh => ?_⟩
  rw [step_engine hh]
  cases hr : isRunning s.phase with
  | true =>
    obtain ⟨t, ht, hadv⟩ := h.engineStep_advances hr
    exact ⟨t, ht, hadv.1, (congrArg State.host (engineStep_inputSide ht) :).trans hh⟩
  | false => exact ⟨s, engineStep_idle (fetch_idle hr), h, hh⟩

/-- Settles O58: the step of a running engine advances the job. -/
theorem progress : Obligations.Progress := by
  intro s t h hh hr ht
  rw [step_engine hh] at ht
  obtain ⟨u, hu, hadv⟩ := h.engineStep_advances hr
  cases hu.symm.trans ht
  exact hadv.2

/-- A step taken is a step of the run. -/
theorem core_run_succ {s t : State} (h : step s = .next t) (n : Nat) : core.run (n + 1) s = core.run n t := by
  have hcore : core.step s = .next t := h
  simp only [Host.Core.run, hcore]

/-- The ways a job ends (R296, R315). -/
def JobEnded (t : State) : Prop :=
  (t.phase = .done ∧ t.status = 2 ∧ t.cause = 0 ∧ ∀ a, (Memory.read t.pix a).isSome = true ↔ a < t.pixLen) ∨
  (t.phase = .error ∧ t.status = 4 ∧ noResult t ∧ ∃ c, c ≠ Cause.ioSource ∧ t.cause = causeWord c)

/-- A dense space holds the bytes below its length, and no others (R12). -/
theorem Memory.isSome_read_iff {m : Memory} (h : Memory.dense m = true) (a : Nat) :
    (Memory.read m a).isSome = true ↔ a < Memory.len m := by
  simp [Memory.read_of_dense h, Memory.len_of_dense h]

/-- A machine that has left its job, with its registers in agreement with the phase. -/
theorem jobEnded_of_not_running {t : State} (h : EngineInv t) (hi : InterfaceInv t) (hr : isRunning t.phase = false)
    (hidle : t.phase ≠ .idle) : JobEnded t := by
  obtain ⟨hdense, hpix⟩ := h.pixels
  unfold InterfaceInv at hi
  unfold pixelsWritten at hpix
  cases hp : t.phase with
  | done =>
    rw [hp] at hi hpix
    obtain ⟨hstatus, hcause, -⟩ := hi
    exact .inl ⟨hp, hstatus, hcause, fun a => by rw [Memory.isSome_read_iff hdense, hpix]⟩
  | error =>
    rw [hp] at hi
    obtain ⟨hstatus, hres, c, hc, hcause, -⟩ := hi
    exact .inr ⟨hp, hstatus, hres, c, hc, hcause⟩
  | idle => exact absurd hp hidle
  | png | zlibHdr | inflate | zlibTrl | defilter => rw [hp] at hr; cases hr

/-- No step of the engine leads to IDLE (R30). -/
theorem JobMove.ne_idle {s t : State} (h : JobMove s t) : t.phase ≠ .idle := by
  cases h with
  | goesOn h => intro hp; cases hp ▸ h.running
  | faults _ _ => nofun
  | finishes _ _ _ => nofun

/-- A running engine ends its job: the stages left, then the work left in the stage, go down with each step (R299). -/
theorem EngineInv.job_ends {s : State} (h : EngineInv s) (hh : s.host = []) (hi : InterfaceInv s) (hidle : s.phase ≠ .idle) :
    ∃ n t, core.run n s = .next t ∧ JobEnded t := by
  cases hr : isRunning s.phase with
  | false => exact ⟨0, s, rfl, jobEnded_of_not_running h hi hr hidle⟩
  | true =>
    obtain ⟨t, ht, hinv, hdec⟩ := h.engineStep_advances hr
    have hstep : step s = .next t := (step_engine hh).trans ht
    obtain ⟨n, u, hrun, hend⟩ := hinv.job_ends ((congrArg State.host (engineStep_inputSide ht) :).trans hh)
      (interfaceKept s t hi hstep) (engineStep_move hr ht).ne_idle
    exact ⟨n + 1, u, (core_run_succ hstep n).trans hrun, hend⟩
termination_by (stagesLeft s.phase, stageWork s)
decreasing_by
  rcases hdec with hstage | ⟨hphase, hwork⟩
  · exact Prod.Lex.left _ _ hstage
  · rw [hphase]
    exact Prod.Lex.right _ hwork

/-- Settles O59: a start makes a running engine with its registers in agreement, and that engine ends its job. -/
theorem everyJobEnds : Obligations.EveryJobEnds := by
  intro s v hh hv hb
  have hstep := step_start hh hv hb
  obtain ⟨n, t, hrun, hend⟩ := (engineInv_startJob { s with host := [] }).job_ends rfl (interfaceInv_startJob _) nofun
  exact ⟨n + 1, t, (core_run_succ hstep n).trans hrun, hend⟩

end Sys2Proof.Machine
end

section
/-! The engine sees `IN` below the latched length alone, and there nothing but the values of its bytes (R298, R245,
R51): a step with another input that reads the same there is the same step. -/

namespace Sys2Proof.Machine

/-- The state with another content of `IN`. -/
def withInput (m : Memory) (d : Nat) (s : State) : State := { s with inSpace := m, inDraw := d }

/-- A change of the states a part ends in. -/
def Run.map {α : Type} (g : State → State) (r : Run α) : Run α :=
  match r with
  | .ok a s => .ok a (g s)
  | .raised c s => .raised c (g s)
  | .stop f => .stop f

section input
variable {m : Memory} {d : Nat}

/-- A part that does not see `IN`: with another input it ends alike. Of an end, `fun _ => rfl` proves it. -/
def Blind (m : Memory) (d : Nat) {α : Type} (k : State → Run α) : Prop :=
  ∀ s, k (withInput m d s) = (k s).map (withInput m d)

theorem Run.map_andThen {α β : Type} (r : Run α) {k : α → State → Run β} (hk : ∀ a, Blind m d (k a)) :
    (r.map (withInput m d)).andThen k = (r.andThen k).map (withInput m d) := by
  cases r with
  | ok a s => exact hk a s
  | raised c s => rfl
  | stop f => rfl

theorem Blind.andThen {α β : Type} {j : State → Run α} {k : α → State → Run β} (hj : Blind m d j)
    (hk : ∀ a, Blind m d (k a)) : Blind m d fun s => (j s).andThen k := fun s => by
  change (j (withInput m d s)).andThen k = _
  rw [hj s]
  exact Run.map_andThen (j s) hk

/-- An update of other registers before the part. -/
theorem Blind.comp {α : Type} {k : State → Run α} (hk : Blind m d k) (f : State → State)
    (hf : ∀ s, f (withInput m d s) = withInput m d (f s)) : Blind m d fun s => k (f s) := fun s => by
  change k (f (withInput m d s)) = _
  rw [hf s]
  exact hk (f s)

/-- A choice by a test that does not see `IN`. -/
theorem Blind.ite {α : Type} (p : State → Prop) [∀ s, Decidable (p s)] (hp : ∀ s, p (withInput m d s) ↔ p s)
    {j k : State → Run α} (hj : Blind m d j) (hk : Blind m d k) :
    Blind m d fun s => if p s then j s else k s := fun s => by
  by_cases h : p s
  · simp only [if_pos ((hp s).2 h), if_pos h]
    exact hj s
  · simp only [if_neg fun h' => h ((hp s).1 h'), if_neg h]
    exact hk s

/-- A read of another space, which finds its bytes in every run. -/
theorem Blind.read {α β : Type} (o : State → Option β) (ho : ∀ s, o (withInput m d s) = o s)
    {j : State → Run α} {k : β → State → Run α} (hk : ∀ b, Blind m d (k b))
    (hnone : ∀ s, o s = none → j s = .stop .absentByte) (hsome : ∀ s b, o s = some b → j s = k b s) : Blind m d j := fun s => by
  cases h : o s with
  | none => rw [hnone s h, hnone _ ((ho s).trans h)]; rfl
  | some b => rw [hsome s b h, hsome _ b ((ho s).trans h)]; exact hk b s

/-! ### The readers -/

theorem readBit_blind : Blind m d readBit :=
  .ite (fun s => s.br.cnt = 0) (fun _ => Iff.rfl)
    (.ite (fun s => Memory.len s.zbuf ≤ s.br.pos) (fun _ => Iff.rfl) (fun _ => rfl)
      (.read (k := fun b s => .ok (b.getLsbD 0) { s with br := { pos := s.br.pos + 1, acc := b >>> 1, cnt := 7 } })
        (fun s => Memory.read s.zbuf s.br.pos) (fun _ => rfl) (fun _ _ => rfl) (fun s h => by simp only [h])
        fun s b h => by simp only [h]))
    fun _ => rfl

theorem readBits_blind (n : Nat) : Blind m d (readBits n) := by
  induction n with
  | zero => exact fun _ => rfl
  | succ n ih => exact readBit_blind.andThen fun b => ih.andThen fun _ _ => rfl

theorem readByte_blind : Blind m d readByte :=
  .ite (fun s => Memory.len s.zbuf ≤ s.br.pos) (fun _ => Iff.rfl) (fun _ => rfl)
    (.read (k := fun b s => .ok b (afterBytes 1 s)) (fun s => Memory.read s.zbuf s.br.pos) (fun _ => rfl)
      (fun _ _ => rfl) (fun s h => by simp only [alignReader, h]) fun s b h => by simp only [alignReader, h]; rfl)

theorem readBytes_blind (n : Nat) : Blind m d (readBytes n) := by
  induction n with
  | zero => exact fun _ => rfl
  | succ n ih => exact readByte_blind.andThen fun b => ih.andThen fun _ _ => rfl

theorem Walk.run_blind (w : Walk) : Blind m d w.run := by
  cases w with
  | found sym used => exact (readBits_blind used).andThen fun _ _ => rfl
  | bad c used => exact (readBits_blind used).andThen fun _ _ => rfl
  | short used => exact (readBits_blind (used + 1)).andThen fun _ _ => rfl
  | noNode => exact fun _ => rfl

theorem huffDecode_blind (t : Tree) : Blind m d (huffDecode t) := fun s => by
  rw [huffDecode_eq_run, huffDecode_eq_run]
  exact Walk.run_blind (walk t s.cfg.missingBranch (bitsAhead s)) s

theorem blkHeader_blind : Blind m d blkHeader :=
  readBit_blind.andThen fun f =>
    Blind.andThen ((readBits_blind 2).comp (fun s => { s with bfinal := f }) fun _ => rfl) fun _ _ => rfl

/-! ### The cursor of `IN`: what is read is not kept, the operands come from the decoder -/

section cursor
variable {α : Type} {k : State → Run α} (hk : Blind m d k)
include hk

theorem Blind.rd8 : Blind m d fun s => (Machine.rd8 s).andThen fun _ s => k s := fun s => by
  by_cases h : s.pcur < s.lenIn
  · simp only [rd8_ok h, rd8_ok (s := withInput m d s) h, Run.andThen_ok]
    exact hk { s with pcur := s.pcur + 1 }
  · simp only [rd8_short (not_lt.1 h), rd8_short (s := withInput m d s) (not_lt.1 h)]
    rfl

theorem Blind.rd32 : Blind m d fun s => (Machine.rd32 s).andThen fun _ s => k s := fun s => by
  by_cases h : s.pcur + 4 ≤ s.lenIn
  · simp only [rd32_ok h, rd32_ok (s := withInput m d s) h, Run.andThen_ok]
    exact hk { s with pcur := s.pcur + 4 }
  · simp only [rd32_short (not_le.1 h), rd32_short (s := withInput m d s) (not_le.1 h)]
    rfl

theorem Blind.rdn (n : Nat) : Blind m d fun s => (Machine.rdn n s).andThen fun _ s => k s := fun s => by
  by_cases h : s.pcur + n ≤ s.lenIn
  · simp only [rdn_ok h, rdn_ok (s := withInput m d s) h, Run.andThen_ok]
    exact hk { s with pcur := s.pcur + n }
  · simp only [rdn_short (not_le.1 h), rdn_short (s := withInput m d s) (not_le.1 h)]
    rfl

end cursor

theorem skip_blind (n : Nat) : Blind m d (skip n) :=
  .ite (fun s => s.lenIn < s.pcur + n) (fun _ => Iff.rfl) (fun _ => rfl) (fun _ => rfl)

theorem skipChunk_blind (len : Word) : Blind m d (skipChunk len) := (skip_blind _).andThen fun _ => skip_blind 4

theorem chunkHeader_blind : Blind m d chunkHeader := .rd32 (.rd32 fun _ => rfl)

/-! ### The shared parts of the elements -/

theorem ihdrChecks_blind : Blind m d ihdrChecks :=
  .ite (fun s => s.depth ≠ 8) (fun _ => Iff.rfl) (fun _ => rfl) <|
  .ite (fun s => s.ctype ≠ 2 ∧ s.ctype ≠ 6) (fun _ => Iff.rfl) (fun _ => rfl) <|
  .ite (fun s => s.cmeth ≠ 0) (fun _ => Iff.rfl) (fun _ => rfl) <|
  .ite (fun s => s.fmeth ≠ 0) (fun _ => Iff.rfl) (fun _ => rfl) <|
  .ite (fun s => s.imeth ≠ 0) (fun _ => Iff.rfl) (fun _ => rfl) <|
  .ite (fun s => s.w = 0 ∨ s.h = 0) (fun _ => Iff.rfl) (fun _ => rfl) <|
  fun _ => rfl

theorem zlibChecks_blind : Blind m d zlibChecks :=
  .ite (fun s => s.cmf.extractLsb' 0 4 ≠ 8#4) (fun _ => Iff.rfl) (fun _ => rfl) <|
  .ite (fun s => 7 < (s.cmf.extractLsb' 4 4).toNat) (fun _ => Iff.rfl) (fun _ => rfl) <|
  .ite (fun s => (s.cmf.toNat * 256 + s.flg.toNat) % 31 ≠ 0) (fun _ => Iff.rfl) (fun _ => rfl) <|
  .ite (fun s => s.flg.getLsbD 5 = true) (fun _ => Iff.rfl) (fun _ => rfl) <|
  fun _ => rfl

theorem enterZlib_blind : Blind m d enterZlib :=
  .ite (fun s => 2 ^ s.cfg.addrBits ≤ need s) (fun _ => Iff.rfl) (fun _ => rfl) fun _ => rfl

theorem enterDefilter_blind : Blind m d enterDefilter :=
  .ite (fun s => Memory.len s.out < need s) (fun _ => Iff.rfl) (fun _ => rfl) <|
  .ite (fun s => s.h.toNat = 0) (fun _ => Iff.rfl) (fun _ => rfl) fun _ => rfl

theorem endBlock_withInput (s : State) : endBlock (withInput m d s) = withInput m d (endBlock s) := by
  rw [endBlock_eq, endBlock_eq]
  rfl

theorem endBlock_blind : Blind m d fun s => .ok () (endBlock s) := fun s => congrArg (Run.ok ()) (endBlock_withInput s)

theorem emit_blind (v : Byte) : Blind m d (emit v) :=
  .ite (fun s => hasRoom s 1 = true) (fun _ => Iff.rfl) (fun _ => rfl) (fun _ => rfl)

theorem storedLoop_blind (n : Nat) (vs : List Byte) : Blind m d (storedLoop n vs) := by
  induction n generalizing vs with
  | zero => exact fun _ => rfl
  | succ n ih =>
    cases vs with
    | nil => exact readByte_blind.andThen fun _ _ => rfl
    | cons v vs => exact readByte_blind.andThen fun _ => (emit_blind v).andThen fun _ => ih vs

theorem readClLens_blind (syms vs : List Nat) : Blind m d (readClLens syms vs) := by
  induction syms generalizing vs with
  | nil => exact fun _ => rfl
  | cons sym syms ih =>
    cases vs with
    | nil => exact fun _ => rfl
    | cons v vs =>
      exact (readBits_blind 3).andThen fun _ =>
        (ih vs).comp (fun s => { s with clLens := s.clLens.set sym v }) fun _ => rfl

theorem afterLengths_withInput (s : State) : afterLengths (withInput m d s) = withInput m d (afterLengths s) := by
  rw [afterLengths, afterLengths, apply_ite (withInput m d)]
  rfl

theorem runCl_blind (v : Nat) : Blind m d (runCl v) :=
  fun s => congrArg (Run.ok ()) (afterLengths_withInput { s with lens := s.lens ++ [v] })

theorem appendRepeat_blind (rep v : Nat) : Blind m d (appendRepeat rep v) :=
  .ite (fun s => s.hlit + s.hdist < s.lens.length + rep) (fun _ => Iff.rfl) (fun _ => rfl)
    fun s => congrArg (Run.ok ()) (afterLengths_withInput { s with lens := s.lens ++ List.replicate rep v })

theorem runZeros_blind (nbits rep : Nat) : Blind m d (runZeros nbits rep) :=
  (readBits_blind nbits).andThen fun _ => appendRepeat_blind rep 0

theorem runRepeatPrev_blind (rep : Nat) : Blind m d (runRepeatPrev rep) := by
  intro s
  cases hl : s.lens.getLast? with
  | none =>
    rw [runRepeatPrev_nil (List.getLast?_eq_none_iff.1 hl)]
    exact runRepeatPrev_nil (s := withInput m d s) (List.getLast?_eq_none_iff.1 hl) rep
  | some v =>
    rw [runRepeatPrev_some hl, runRepeatPrev_some (s := withInput m d s) hl]
    exact ((readBits_blind 2).andThen fun _ => appendRepeat_blind rep v) s

theorem runLen_blind (sym extra : Nat) : Blind m d (runLen sym extra) := by
  unfold runLen
  generalize lenExtra.getD (sym - 257) 0 = k
  generalize lenBase.getD (sym - 257) 0 + extra = length
  exact (readBits_blind k).andThen fun _ _ => rfl

theorem copyMatch_blind (n distance : Nat) : Blind m d (copyMatch n distance) :=
  .ite (fun s => hasRoom s n = true) (fun _ => Iff.rfl)
    (.read (k := fun out s => .ok () { s with out := out }) (fun s => copyBytes distance n s.out) (fun _ => rfl)
      (fun _ _ => rfl) (fun s h => by simp only [h]) fun s out h => by simp only [h])
    (fun _ => rfl)

theorem runDist_blind (sym extra : Nat) : Blind m d (runDist sym extra) :=
  (readBits_blind _).andThen fun _ =>
    .ite (fun s => Memory.len s.out < distBase.getD sym 0 + extra) (fun _ => Iff.rfl) (fun _ => rfl)
      (Blind.andThen (j := fun s => copyMatch s.matchLen (distBase.getD sym 0 + extra) s)
        (fun s => copyMatch_blind s.matchLen _ s) fun _ _ => rfl)

theorem nextRow_withInput (s : State) : nextRow (withInput m d s) = withInput m d (nextRow s) := by
  rw [nextRow, nextRow, apply_ite (withInput m d)]
  rfl

theorem runRow_blind (pred : Byte → Byte → Byte → Byte) (x : List Byte) : Blind m d (runRow pred x) :=
  .ite (fun s => x.length < stride s) (fun _ => Iff.rfl) (fun _ => rfl)
    (.read (k := fun cur s => .ok () (nextRow { s with
        cur := cur, pix := Memory.writeAll s.pix (s.row * stride s) cur }))
      (fun s => reconstruct pred s.bpp s.prev [] (x.take (stride s))) (fun _ => rfl)
      (fun cur s => congrArg (Run.ok ()) (nextRow_withInput { s with
        cur := cur, pix := Memory.writeAll s.pix (s.row * stride s) cur }))
      (fun s h => by simp only [h]) fun s cur h => by simp only [h])

/-! ### One element, and its fetch -/

/-- A change of an outcome's next state. -/
def nextMap (g : State → State) : Host.Outcome State Fault Refusal → Host.Outcome State Fault Refusal
  | .next s => .next (g s)
  | .fault f => .fault f
  | .refused r => .refused r

/-- A step that does not see `IN`. -/
def BlindStep (m : Memory) (d : Nat) (k : State → Host.Outcome State Fault Refusal) : Prop :=
  ∀ s, k (withInput m d s) = nextMap (withInput m d) (k s)

theorem Blind.outcome {k : State → Run Unit} (hk : Blind m d k) : BlindStep m d fun s => (k s).outcome := fun s => by
  change (k (withInput m d s)).outcome = nextMap (withInput m d) (k s).outcome
  rw [hk s]
  cases k s <;> rfl

theorem BlindStep.of_eq {i : Instr} {k : State → Host.Outcome State Fault Refusal} (hk : BlindStep m d k)
    (h : ∀ s, exec i s = k s) : BlindStep m d (exec i) := fun s => by
  rw [h, h]
  exact hk s

theorem execChunkIhdr_blind (width height crc : Word) (depth ctype cmeth fmeth imeth : Byte) :
    BlindStep m d (execChunkIhdr width height depth ctype cmeth fmeth imeth crc) :=
  have checks : Blind m d fun s => (ihdrChecks s).andThen fun _ s => .ok () { s with pngPos := .chunkLoop } :=
    ihdrChecks_blind.andThen fun _ _ => rfl
  have latchImeth := ((skip_blind 4).andThen fun _ => checks).comp (fun s => { s with imeth := imeth }) fun _ => rfl
  have latchFmeth := latchImeth.rd8.comp (fun s => { s with fmeth := fmeth }) fun _ => rfl
  have latchCmeth := latchFmeth.rd8.comp (fun s => { s with cmeth := cmeth }) fun _ => rfl
  have latchCtype := latchCmeth.rd8.comp (fun s => { s with ctype := ctype }) fun _ => rfl
  have latchDepth := latchCtype.rd8.comp (fun s => { s with depth := depth }) fun _ => rfl
  have latchH := latchDepth.rd8.comp (fun s => { s with h := height }) fun _ => rfl
  have latchW := latchH.rd32.comp (fun s => { s with w := width }) fun _ => rfl
  latchW.rd32.outcome

theorem execChunkIdat_blind (len crc : Word) (payload : List Byte) : BlindStep m d (execChunkIdat len payload crc) :=
  have append := (skip_blind 4).comp (fun s => { s with zbuf := Memory.appendAll s.zbuf payload }) fun _ => rfl
  (append.rdn len.toNat).outcome

theorem execZhdr_blind (cmf flg : Byte) : BlindStep m d (execZhdr cmf flg) :=
  have latchFlg := zlibChecks_blind.comp (fun s => { s with flg := flg }) fun _ => rfl
  have latchCmf := readByte_blind.comp (fun s => { s with cmf := cmf }) fun _ => rfl
  (readByte_blind.andThen fun _ => latchCmf.andThen fun _ => latchFlg.andThen fun _ _ => rfl).outcome

theorem execBlkFixed_blind (final : Bool) : BlindStep m d (execBlkFixed final) := by
  unfold execBlkFixed
  generalize fixedLit = lit
  generalize fixedDist = dist
  exact fun _ => rfl

theorem execStored_blind (len nlen : Half) (payload : List Byte) : BlindStep m d (execStored len nlen payload) :=
  have latchSnlen := (storedLoop_blind len.toNat payload).comp (fun s => { s with snlen := nlen }) fun _ => rfl
  have latchSlen := (readBytes_blind 2).comp (fun s => { s with slen := len }) fun _ => rfl
  ((readBytes_blind 2).andThen fun _ => latchSlen.andThen fun _ => latchSnlen.andThen fun _ => endBlock_blind).outcome

theorem execDyn_blind (hlit hdist hclen : Nat) (cl : List Nat) : BlindStep m d (execDyn hlit hdist hclen cl) :=
  have latchHclen := (readClLens_blind clOrder cl).comp
    (fun s => { s with hclen := hclen, clLens := List.replicate nsymCl 0 }) fun _ => rfl
  have latchHdist := (readBits_blind 4).comp (fun s => { s with hdist := hdist }) fun _ => rfl
  have latchHlit := (readBits_blind 5).comp (fun s => { s with hlit := hlit }) fun _ => rfl
  ((readBits_blind 5).andThen fun _ => latchHlit.andThen fun _ => latchHdist.andThen fun _ =>
    latchHclen.andThen fun _ _ => rfl).outcome

theorem execMatchPair_blind (length distance : Nat) : BlindStep m d (execMatchPair length distance) := by
  unfold execMatchPair
  generalize lenSymbol length = l
  generalize distSymbol distance = r
  exact ((runLen_blind l.1 l.2).andThen fun _ =>
    Blind.andThen (j := fun s => huffDecode s.distTree s) (fun s => huffDecode_blind s.distTree s) fun _ =>
      runDist_blind r.1 r.2).outcome

theorem exec_blind (i : Instr) : BlindStep m d (exec i) := by
  cases i with
  | sig => exact Blind.outcome (.rdn (fun _ => rfl) 8)
  | chunkIhdr width height depth ctype cmeth fmeth imeth crc =>
    exact execChunkIhdr_blind width height crc depth ctype cmeth fmeth imeth
  | chunkIdat len payload crc => exact execChunkIdat_blind len crc payload
  | chunkIend len payload crc => exact ((skipChunk_blind len).andThen fun _ => enterZlib_blind).outcome
  | chunkOther type len payload crc => exact (skipChunk_blind len).outcome
  | zhdr cmf flg => exact execZhdr_blind cmf flg
  | ztrl adler =>
    exact (((readBytes_blind 4).comp (fun s => { s with phase := .zlibTrl }) fun _ => rfl).andThen fun _ =>
      enterDefilter_blind).outcome
  | blkFixed final => exact execBlkFixed_blind final
  | blkStored | blkDynamic | blkReserved | len286Invalid | len287Invalid | dist30Invalid | dist31Invalid
    | rowInvalid | pad => exact fun _ => rfl
  | stored len nlen payload => exact execStored_blind len nlen payload
  | dyn hlit hdist hclen cl => exact execDyn_blind hlit hdist hclen cl
  | cl0 | cl1 | cl2 | cl3 | cl4 | cl5 | cl6 | cl7 | cl8 | cl9 | cl10 | cl11 | cl12 | cl13 | cl14 | cl15 =>
    exact (runCl_blind _).outcome.of_eq (exec_cl rfl)
  | cl16 rep | repeatPrev rep => exact (runRepeatPrev_blind rep).outcome
  | cl17 rep | cl18 rep => exact (runZeros_blind _ rep).outcome
  | lit b => exact (emit_blind b).outcome
  | eob => exact fun s => congrArg Host.Outcome.next (endBlock_withInput s)
  | len257 | len258 | len259 | len260 | len261 | len262 | len263 | len264 | len265 _ | len266 _
    | len267 _ | len268 _ | len269 _ | len270 _ | len271 _ | len272 _ | len273 _ | len274 _ | len275 _ | len276 _
    | len277 _ | len278 _ | len279 _ | len280 _ | len281 _ | len282 _ | len283 _ | len284 _ | len285 =>
    exact (runLen_blind _ _).outcome.of_eq (exec_len rfl)
  | dist0 | dist1 | dist2 | dist3 | dist4 _ | dist5 _ | dist6 _ | dist7 _ | dist8 _ | dist9 _ | dist10 _
    | dist11 _ | dist12 _ | dist13 _ | dist14 _ | dist15 _ | dist16 _ | dist17 _ | dist18 _ | dist19 _ | dist20 _
    | dist21 _ | dist22 _ | dist23 _ | dist24 _ | dist25 _ | dist26 _ | dist27 _ | dist28 _ | dist29 _ =>
    exact (runDist_blind _ _).outcome.of_eq (exec_dist rfl)
  | row0 x | row1 x | row2 x | row3 x | row4 x => exact (runRow_blind _ _).outcome.of_eq (exec_row rfl)
  | matchPair length distance => exact (execMatchPair_blind length distance).of_eq fun _ => rfl
  | zeros n => exact (runZeros_blind _ n).outcome.of_eq (exec_zeros n)

/-- What a fetch answers, with its state changed. -/
def Fetched.map (g : State → State) : Fetched → Fetched
  | .element i s => .element i (g s)
  | .raised c s => .raised c (g s)
  | .idle => .idle
  | .stop f => .stop f

theorem fetchAfter_map (g : State → State) (r : Run Unit) (e : Decoded) :
    fetchAfter (r.map g) e = (fetchAfter r e).map g := by
  cases r with
  | ok a s => cases e <;> rfl
  | raised c s => rfl
  | stop f => rfl

theorem Blind.fetchAfter {k : State → Run Unit} (hk : Blind m d k) (e : Decoded) (s : State) :
    Machine.fetchAfter (k (withInput m d s)) e = (Machine.fetchAfter (k s) e).map (withInput m d) := by
  rw [hk s, fetchAfter_map]

theorem fetchCoded_withInput (tree : Tree) (e : Expect) (s : State) :
    fetchCoded tree e (withInput m d s) = (fetchCoded tree e s).map (withInput m d) :=
  ((huffDecode_blind tree).andThen fun _ _ => rfl).fetchAfter (decode s.cfg.missingBranch e (bitsAhead s)) s

theorem fetchRow_withInput (s : State) : fetchRow (withInput m d s) = (fetchRow s).map (withInput m d) := by
  change (match decode s.cfg.missingBranch (.row (stride s)) (rowBits s) with
    | .element i => Fetched.element i (withInput m d s)
    | _ => .stop .absentByte) = _
  unfold fetchRow
  cases decode s.cfg.missingBranch (.row (stride s)) (rowBits s) <;> rfl

section sameBits
variable {s : State} (hin : inBitsAhead (withInput m d s) = inBitsAhead s)
include hin

theorem fetchSignature_withInput : fetchSignature (withInput m d s) = (fetchSignature s).map (withInput m d) := by
  by_cases h : s.pcur + 8 ≤ s.lenIn
  · have hsame : decode (withInput m d s).cfg.missingBranch .signature (inBitsAhead (withInput m d s)) =
        decode s.cfg.missingBranch .signature (inBitsAhead s) := congrArg (decode s.cfg.missingBranch .signature) hin
    simp only [fetchSignature, rdn_ok h, rdn_ok (s := withInput m d s) h, hsame]
    cases decode s.cfg.missingBranch .signature (inBitsAhead s) <;> rfl
  · rw [fetchSignature_raised (rdn_short (not_le.1 h)),
      fetchSignature_raised (rdn_short (s := withInput m d s) (not_le.1 h))]
    rfl

theorem fetchChunk_withInput (e : Expect) : fetchChunk e (withInput m d s) = (fetchChunk e s).map (withInput m d) := by
  unfold fetchChunk
  rw [hin]
  exact chunkHeader_blind.fetchAfter (decode s.cfg.missingBranch e (inBitsAhead s)) s

theorem fetch_withInput : fetch (withInput m d s) = (fetch s).map (withInput m d) := by
  cases hp : s.phase with
  | idle | done | error =>
    have h : isRunning s.phase = false := by rw [hp]; rfl
    rw [fetch_idle h, fetch_idle (s := withInput m d s) h]
    rfl
  | png =>
    cases hpos : s.pngPos with
    | signature =>
      rw [fetch_signature hp hpos, fetch_signature (s := withInput m d s) hp hpos]
      exact fetchSignature_withInput hin
    | firstChunk =>
      rw [fetch_firstChunk hp hpos, fetch_firstChunk (s := withInput m d s) hp hpos]
      exact fetchChunk_withInput hin .firstChunk
    | chunkLoop =>
      rw [fetch_chunkLoop hp hpos, fetch_chunkLoop (s := withInput m d s) hp hpos]
      exact fetchChunk_withInput hin .chunk
  | zlibHdr => rw [fetch_zlibHdr hp, fetch_zlibHdr (s := withInput m d s) hp]; rfl
  | inflate =>
    cases hpos : s.infPos with
    | blockHeader =>
      rw [fetch_blockHeader hp hpos, fetch_blockHeader (s := withInput m d s) hp hpos]
      exact blkHeader_blind.fetchAfter (decodeBlk (bitsAhead s)) s
    | storedBlock => rw [fetch_storedBlock hp hpos, fetch_storedBlock (s := withInput m d s) hp hpos]; rfl
    | dynHeader => rw [fetch_dynHeader hp hpos, fetch_dynHeader (s := withInput m d s) hp hpos]; rfl
    | codeLengths =>
      rw [fetch_codeLengths hp hpos, fetch_codeLengths (s := withInput m d s) hp hpos]
      exact fetchCoded_withInput s.clTree (.codeLength s.clTree) s
    | symbols =>
      rw [fetch_symbols hp hpos, fetch_symbols (s := withInput m d s) hp hpos]
      exact fetchCoded_withInput s.litTree (.symbol s.litTree) s
    | distance =>
      rw [fetch_distance hp hpos, fetch_distance (s := withInput m d s) hp hpos]
      exact fetchCoded_withInput s.distTree (.distance s.distTree) s
  | zlibTrl => rw [fetch_zlibTrl hp, fetch_zlibTrl (s := withInput m d s) hp]; rfl
  | defilter =>
    rw [fetch_defilter hp, fetch_defilter (s := withInput m d s) hp]
    exact fetchRow_withInput s

/-- A step of the engine on another input with the same bytes below the latched length (R298, R245). -/
theorem engineStep_withInput : engineStep (withInput m d s) = nextMap (withInput m d) (engineStep s) := by
  unfold engineStep
  rw [fetch_withInput hin]
  cases fetch s with
  | element i t => exact exec_blind i t
  | raised c t => rfl
  | idle => rfl
  | stop f => rfl

end sameBits
end input

/-- Settles O60: the bits of `IN` ahead are the same in both states, and no part of a step looks at `IN` otherwise. -/
theorem beyondInputUnseen : Obligations.BeyondInputUnseen := by
  unfold Obligations.BeyondInputUnseen
  intro s m d hh hin
  have hbits : inBitsAhead (withInput m d s) = inBitsAhead s :=
    congrArg bytesBits (inBytes_congr fun k (hk : k < s.lenIn - s.pcur) => hin (s.pcur + k) (by omega))
  have hstep : step (withInput m d s) = nextMap (withInput m d) (step s) := by
    rw [step_engine hh, step_engine (s := withInput m d s) hh]
    exact engineStep_withInput hbits
  exact ⟨fun t ht => hstep.trans (by rw [ht]; rfl), fun f hf => hstep.trans (by rw [hf]; rfl)⟩

end Sys2Proof.Machine
end

section
/-! Power-on reset (R340), the end of a job (R299, R317, R341), the cause codes (R24, R311) and the fault entry (R315). -/

namespace Sys2Proof.Machine

/-! ### No job running -/

/-- With no move of the host and no job running, a step does nothing (R341). -/
theorem step_of_not_running {s : State} (hh : s.host = []) (hs : isRunning s.phase = false) : step s = .next s := by
  rw [step_engine hh, engineStep_idle (fetch_idle hs)]

/-- The interface registers after a fault (R315). -/
theorem InterfaceInv.of_error {s : State} (hp : s.phase = .error) (hi : InterfaceInv s) :
    s.status = statusErr ∧ noResult s := by
  unfold InterfaceInv at hi
  rw [hp] at hi
  obtain ⟨hstatus, hnone, -⟩ := hi
  exact ⟨hstatus, hnone⟩

/-- Settles O7: of all moves only a start, a reset and the engine of a running job write what a fault has left. -/
theorem noJobNoEffect : Obligations.NoJobNoEffect := by
  refine ⟨fun s => step_of_not_running, fun s t hp hi ht hreset hstart => ?_⟩
  obtain ⟨hstatus, hnone⟩ := hi.of_error hp
  cases step_move ht with
  | quiet h => rw [h]; exact ⟨hp, hstatus, rfl, rfl, hnone⟩
  | lengthWritten _ => exact ⟨hp, hstatus, rfl, rfl, hnone⟩
  | start h hv _ =>
    have hclear := hstart _ (congrArg List.head? h)
    rw [hv] at hclear
    cases hclear
  | powerOn h => exact absurd (congrArg List.head? h) hreset
  | engine hs _ => rw [hp] at hs; cases hs

/-- Settles O9: the phase that `raise` leaves runs no job. -/
theorem faultEntry : Obligations.FaultEntry :=
  fun c s => ⟨rfl, fun hh => step_of_not_running (s := raise c s) hh rfl⟩

/-! ### The cause codes -/

/-- The causes with the code column of R311. -/
def causeTable : List (Cause × Nat) :=
  [(.pngSignature, 0x11), (.firstNotIhdr, 0x12), (.ihdrLength, 0x13), (.zeroDimension, 0x14), (.zlibFcheck, 0x15),
    (.zlibCinfo, 0x16), (.bitDepth, 0x21), (.colorType, 0x22), (.pngCompression, 0x23), (.pngFilterMethod, 0x24),
    (.pngInterlace, 0x25), (.zlibCm, 0x26), (.zlibFdict, 0x27), (.outOfData, 0x31), (.btypeReserved, 0x32),
    (.filterType, 0x33), (.distanceTooFar, 0x34), (.emptyTree, 0x35), (.missingBranch, 0x36), (.repeatNoPrevious, 0x37),
    (.repeatOverrun, 0x38), (.lengthSymbol, 0x39), (.distanceSymbol, 0x3A), (.shortImageData, 0x3B), (.ioSource, 0x41),
    (.outputCapacity, 0x51), (.sizeOverflow, 0x52)]

theorem toNat_causeCode_of_mem_causeTable : ∀ p ∈ causeTable, (causeCode p.1).toNat = p.2 := by decide

theorem mem_map_fst_causeTable (c : Cause) : c ∈ causeTable.map Prod.fst := by cases c <;> decide

theorem nodup_map_causeCode : ((causeTable.map Prod.fst).map causeCode).Nodup := by decide

/-- No two causes share a code: the table lists every cause and no code twice. -/
theorem causeCode_injective : Function.Injective causeCode := fun c d h =>
  List.inj_on_of_nodup_map nodup_map_causeCode (mem_map_fst_causeTable c) (mem_map_fst_causeTable d) h

theorem toNat_causeWord (c : Cause) : (causeWord c).toNat = (causeCode c).toNat :=
  BitVec.toNat_setWidth_of_le (by decide)

theorem causeKind_causeWord (c : Cause) : causeKind (causeWord c) = (causeCode c).toNat / 16 := by
  have hlt := (causeCode c).isLt
  rw [causeKind, BitVec.extractLsb'_toNat, toNat_causeWord, Nat.shiftRight_eq_div_pow]
  omega

theorem causeSub_causeWord (c : Cause) : causeSub (causeWord c) = (causeCode c).toNat % 16 := by
  rw [causeSub, BitVec.extractLsb'_toNat, toNat_causeWord, Nat.shiftRight_zero]

/-- Settles O8: the fields of `CAUSE` are the digits of the code, and the code is that of the table. -/
theorem causeCodes : Obligations.CauseCodes := by
  refine ⟨fun p hp => ?_, fun c d h => causeCode_injective h⟩
  have hcode := toNat_causeCode_of_mem_causeTable p hp
  rw [toNat_causeWord, causeKind_causeWord, causeSub_causeWord, hcode]
  exact ⟨rfl, rfl, rfl, rfl⟩

/-! ### Power-on reset -/

/-- After reset every register reads 0 (R21, R340). -/
theorem hostReadReg_reset (k : Nat) : hostReadReg State.reset k = 0 := by
  rw [hostReadReg_eq]
  split_ifs <;> rfl

theorem interfaceInv_reset : InterfaceInv State.reset := ⟨rfl, rfl, rfl, rfl, rfl, rfl, rfl⟩

theorem sizesFit_reset : SizesFit State.reset := ⟨Nat.two_pow_pos _, Nat.two_pow_pos _, trivial⟩

/-- Settles O1: the host's move is `powerOn`, and the registers and spaces are those of `State.reset`. -/
theorem resetState : Obligations.ResetState := by
  refine ⟨fun s rest hh => ?_, rfl, rfl, rfl, rfl, rfl, rfl, rfl, rfl, rfl, rfl, rfl, rfl, hostReadReg_reset, rfl,
    interfaceInv_reset, sizesFit_reset⟩
  rw [step_host hh]
  rfl

end Sys2Proof.Machine
end
